-- ==== Sys2Proof/Word.lean ====
section
/-! DEFINITION. The number types of HUFFCORE (00_scope.md R7, R8; 10_state.md R20, R30) and the two reserved 9-bit
values. -/

namespace Sys2Proof

/-- One byte of a byte channel (20_memory.md R69). -/
abbrev Byte := BitVec 8

/-- One bit of the bit buffer, of a code or of the stream; `true` is 1 (10_state.md R23). -/
abbrev Bit := Bool

/-- A command word, and a result: `W_CMD` and `W_RES` are both 64 (00_scope.md R7). -/
abbrev Word := BitVec 64

/-- A node index, `W_IDX` = 9 bits (00_scope.md R7). -/
abbrev Idx := BitVec 9

/-- The symbol field of a node: 9 bits, signed two's complement (10_state.md R30). -/
abbrev Sym := BitVec 9

/-- A frequency count, `W_CNT` = 32 bits unsigned (00_scope.md R7). -/
abbrev Count := BitVec 32

/-- A node weight, `W_WT` = 40 bits unsigned (00_scope.md R7). -/
abbrev Weight := BitVec 40

/-- `NONE` = 0x1FF: no node (00_scope.md R7). -/
def noneIdx : Idx := 0x1FF

/-- The sentinel -1, stored 0x1FF in the 9-bit symbol field of an internal node (10_state.md R30). -/
def sentinel : Sym := 0x1FF

/-- `CNT_MAX` = 2^32 - 1 (00_scope.md R7). -/
def cntMax : Count := 0xFFFFFFFF

end Sys2Proof
end

