-- ==== Sys2Proof/Syntax.lean ====
section
/-! DEFINITION. The 19 commands of 30_encoding.md R94, with the operands of the assembler syntax R98, one constructor
per row of the opcode table; their mnemonics, assembler text and the pseudo-commands of R99. -/

namespace Sys2Proof

/-- A command. Operands have the width of their field of the word (30_encoding.md R90: `a` 24 bits, `b` 32 bits,
unsigned). `st` and `fsel` are operands of the syntax R98 whose field is wider than their legal values: WellFormed.lean
states the limits. -/
inductive Instr where
  | bbCreate (cap : BitVec 32)
  | bbAppend (bit : BitVec 32)
  | bbPop
  | bbRender (st : BitVec 24) (bufsize : BitVec 32)
  | bsOpenR
  | bsOpenW
  | bsReadBit
  | bsWriteBit (bit : BitVec 32)
  | bsWriteBuf
  | bsAtEnd
  | bsClose
  | ftCreate (size : BitVec 24)
  | ftScan
  | ftInc (sym : BitVec 24)
  | ftSet (sym : BitVec 24) (count : BitVec 32)
  | ftGet (sym : BitVec 24)
  | tbBuild
  | tbExtract
  | tbNode (idx : BitVec 24) (fsel : BitVec 32)
deriving DecidableEq, Repr

/-- The mnemonic of a command (30_encoding.md R94). -/
def Instr.mnemonic : Instr → String
  | .bbCreate _ => "BB_CREATE"
  | .bbAppend _ => "BB_APPEND"
  | .bbPop => "BB_POP"
  | .bbRender _ _ => "BB_RENDER"
  | .bsOpenR => "BS_OPEN_R"
  | .bsOpenW => "BS_OPEN_W"
  | .bsReadBit => "BS_READ_BIT"
  | .bsWriteBit _ => "BS_WRITE_BIT"
  | .bsWriteBuf => "BS_WRITE_BUF"
  | .bsAtEnd => "BS_AT_END"
  | .bsClose => "BS_CLOSE"
  | .ftCreate _ => "FT_CREATE"
  | .ftScan => "FT_SCAN"
  | .ftInc _ => "FT_INC"
  | .ftSet _ _ => "FT_SET"
  | .ftGet _ => "FT_GET"
  | .tbBuild => "TB_BUILD"
  | .tbExtract => "TB_EXTRACT"
  | .tbNode _ _ => "TB_NODE"

/-- The used operands of a command, in the order `a` then `b` (30_encoding.md R98). -/
def Instr.operands : Instr → List Nat
  | .bbCreate cap => [cap.toNat]
  | .bbAppend bit => [bit.toNat]
  | .bbRender st bufsize => [st.toNat, bufsize.toNat]
  | .bsWriteBit bit => [bit.toNat]
  | .ftCreate size => [size.toNat]
  | .ftInc sym => [sym.toNat]
  | .ftSet sym count => [sym.toNat, count.toNat]
  | .ftGet sym => [sym.toNat]
  | .tbNode idx fsel => [idx.toNat, fsel.toNat]
  | .bbPop | .bsOpenR | .bsOpenW | .bsReadBit | .bsWriteBuf | .bsAtEnd | .bsClose => []
  | .ftScan | .tbBuild | .tbExtract => []

/-- The command as a line of assembler text with decimal operands separated by commas (30_encoding.md R98). -/
def Instr.toAsm (i : Instr) : String :=
  match i.operands.map toString with
  | [] => i.mnemonic
  | ops => i.mnemonic ++ " " ++ ", ".intercalate ops

/-- `BB_SIZEQ`: the size query of render (30_encoding.md R99). -/
def Instr.bbSizeQ : Instr := .bbRender 0 0

/-- `BS_W0`: write a 0 bit (30_encoding.md R99). -/
def Instr.bsW0 : Instr := .bsWriteBit 0

/-- `BS_W1`: write a 1 bit (30_encoding.md R99). -/
def Instr.bsW1 : Instr := .bsWriteBit 1

end Sys2Proof
end

