-- ==== Sys2Proof/WellFormed.lean ====
section
/-! DEFINITION. Which commands of Syntax.lean are words of the opcode map: the reserved bits of formats R and N are
zero (30_encoding.md R91, R93, R98). -/

namespace Sys2Proof

/-- `st` of `BB_RENDER` is 0 or 1: `a[23:1]` must be 0 (30_encoding.md R91 format R, R98). -/
def stOk (st : BitVec 24) : Bool := decide (st.toNat ≤ 1)

/-- `fsel` of `TB_NODE` is 0 to 3: `b[31:2]` must be 0 (30_encoding.md R91 format N, R98). -/
def fselOk (fsel : BitVec 32) : Bool := decide (fsel.toNat ≤ 3)

/-- The command is one of the opcode map: the only operands with an illegal value are `st` and `fsel`; every other
operand field is "free" (30_encoding.md R91). -/
def Instr.wellFormed : Instr → Bool
  | .bbRender st _ => stOk st
  | .tbNode _ fsel => fselOk fsel
  | .bbCreate _ | .bbAppend _ | .bbPop => true
  | .bsOpenR | .bsOpenW | .bsReadBit | .bsWriteBit _ | .bsWriteBuf | .bsAtEnd | .bsClose => true
  | .ftCreate _ | .ftScan | .ftInc _ | .ftSet _ _ | .ftGet _ => true
  | .tbBuild | .tbExtract => true

end Sys2Proof
end

