-- ==== Sys2Proof/Decode.lean ====
section
/-! DEFINITION. The decoder of 30_encoding.md R100 over the opcode map R94, total on all 64-bit words and refusing by
name, and the encoder of the same map. -/

namespace Sys2Proof

/-- Why a word is no command (30_encoding.md R93, R95). -/
inductive DecodeError where
  /-- The opcode is none of the 19 (R95). -/
  | unassignedOpcode (op : BitVec 8)
  /-- The opcode is assigned, but a field its format reserves is not zero (R93). -/
  | reservedField (mnemonic : String)
deriving DecidableEq, Repr

/-- `cmd[63:56]` (30_encoding.md R90). -/
def opField (w : Word) : BitVec 8 := w.extractLsb' 56 8

/-- `a = cmd[55:32]` (30_encoding.md R90, R92). -/
def aField (w : Word) : BitVec 24 := w.extractLsb' 32 24

/-- `b = cmd[31:0]` (30_encoding.md R90, R92). -/
def bField (w : Word) : BitVec 32 := w.extractLsb' 0 32

/-- The word `(op, a, b)`, `op` in the most significant bits (30_encoding.md R90). -/
def mkWord (op : BitVec 8) (a : BitVec 24) (b : BitVec 32) : Word := op ++ a ++ b

/-- A row of the opcode map: the command iff `w & mask = match` (30_encoding.md R94). -/
structure OpRow where
  op : BitVec 8
  mnemonic : String
  matchBits : Word
  mask : Word
  build : BitVec 24 → BitVec 32 → Instr

/-- The mask of format Z: `a` and `b` must be 0 (30_encoding.md R91). -/
def maskZ : Word := 0xFFFFFFFFFFFFFFFF
/-- The mask of format A: `b` must be 0 (30_encoding.md R91). -/
def maskA : Word := 0xFF000000FFFFFFFF
/-- The mask of format B: `a` must be 0 (30_encoding.md R91). -/
def maskB : Word := 0xFFFFFFFF00000000
/-- The mask of format AB: both operands free (30_encoding.md R91). -/
def maskAB : Word := 0xFF00000000000000
/-- The mask of format R: `a[23:1]` must be 0 (30_encoding.md R91). -/
def maskR : Word := 0xFFFFFFFE00000000
/-- The mask of format N: `b[31:2]` must be 0 (30_encoding.md R91). -/
def maskN : Word := 0xFF000000FFFFFFFC

/-- The 19 rows of 30_encoding.md R94. -/
def opcodeMap : List OpRow :=
  [ ⟨0x10, "BB_CREATE", 0x1000000000000000, maskB, fun _ b => .bbCreate b⟩,
    ⟨0x11, "BB_APPEND", 0x1100000000000000, maskB, fun _ b => .bbAppend b⟩,
    ⟨0x12, "BB_POP", 0x1200000000000000, maskZ, fun _ _ => .bbPop⟩,
    ⟨0x13, "BB_RENDER", 0x1300000000000000, maskR, fun a b => .bbRender a b⟩,
    ⟨0x20, "BS_OPEN_R", 0x2000000000000000, maskZ, fun _ _ => .bsOpenR⟩,
    ⟨0x21, "BS_OPEN_W", 0x2100000000000000, maskZ, fun _ _ => .bsOpenW⟩,
    ⟨0x22, "BS_READ_BIT", 0x2200000000000000, maskZ, fun _ _ => .bsReadBit⟩,
    ⟨0x23, "BS_WRITE_BIT", 0x2300000000000000, maskB, fun _ b => .bsWriteBit b⟩,
    ⟨0x24, "BS_WRITE_BUF", 0x2400000000000000, maskZ, fun _ _ => .bsWriteBuf⟩,
    ⟨0x25, "BS_AT_END", 0x2500000000000000, maskZ, fun _ _ => .bsAtEnd⟩,
    ⟨0x26, "BS_CLOSE", 0x2600000000000000, maskZ, fun _ _ => .bsClose⟩,
    ⟨0x30, "FT_CREATE", 0x3000000000000000, maskA, fun a _ => .ftCreate a⟩,
    ⟨0x31, "FT_SCAN", 0x3100000000000000, maskZ, fun _ _ => .ftScan⟩,
    ⟨0x32, "FT_INC", 0x3200000000000000, maskA, fun a _ => .ftInc a⟩,
    ⟨0x33, "FT_SET", 0x3300000000000000, maskAB, fun a b => .ftSet a b⟩,
    ⟨0x34, "FT_GET", 0x3400000000000000, maskA, fun a _ => .ftGet a⟩,
    ⟨0x40, "TB_BUILD", 0x4000000000000000, maskZ, fun _ _ => .tbBuild⟩,
    ⟨0x41, "TB_EXTRACT", 0x4100000000000000, maskZ, fun _ _ => .tbExtract⟩,
    ⟨0x42, "TB_NODE", 0x4200000000000000, maskN, fun a b => .tbNode a b⟩ ]

/-- The row whose opcode this is (30_encoding.md R100, first step). -/
def rowOf (op : BitVec 8) : Option OpRow := opcodeMap.find? fun r => r.op == op

/-- The decoding algorithm of 30_encoding.md R100, total on all words. -/
def decode (w : Word) : Except DecodeError Instr :=
  match rowOf (opField w) with
  | none => .error (.unassignedOpcode (opField w))
  | some r =>
    if w &&& r.mask = r.matchBits then .ok (r.build (aField w) (bField w))
    else .error (.reservedField r.mnemonic)

/-- The word of a command (30_encoding.md R94, R98). -/
def encode : Instr → Word
  | .bbCreate cap => mkWord 0x10 0 cap
  | .bbAppend bit => mkWord 0x11 0 bit
  | .bbPop => mkWord 0x12 0 0
  | .bbRender st bufsize => mkWord 0x13 st bufsize
  | .bsOpenR => mkWord 0x20 0 0
  | .bsOpenW => mkWord 0x21 0 0
  | .bsReadBit => mkWord 0x22 0 0
  | .bsWriteBit bit => mkWord 0x23 0 bit
  | .bsWriteBuf => mkWord 0x24 0 0
  | .bsAtEnd => mkWord 0x25 0 0
  | .bsClose => mkWord 0x26 0 0
  | .ftCreate size => mkWord 0x30 size 0
  | .ftScan => mkWord 0x31 0 0
  | .ftInc sym => mkWord 0x32 sym 0
  | .ftSet sym count => mkWord 0x33 sym count
  | .ftGet sym => mkWord 0x34 sym 0
  | .tbBuild => mkWord 0x40 0 0
  | .tbExtract => mkWord 0x41 0 0
  | .tbNode idx fsel => mkWord 0x42 idx fsel

/-- The command word a table word stands for: the bits at and above `nbits` are 0. A command is presented whole on a
64-bit port and has no byte order (20_memory.md R69), so the table's numbering of the one word's bits is the word's. -/
def tableWord (nbits w : Nat) : Word := BitVec.ofNat 64 (w % 2 ^ min nbits 64)

/-- What the decoder reads from a table word (the host's question about the opcode table). -/
def decodeTableWord (nbits w : Nat) : Option Instr :=
  match decode (tableWord nbits w) with
  | .ok i => some i
  | .error _ => none

end Sys2Proof
end

