-- ==== Sys2Proof/Config.lean ====
section
/-! DEFINITION. What is fixed for one machine: the parameters of 00_scope.md R7, the identity constant of 10_state.md
R50, and the free answers of the channels (20_memory.md R70, R72). -/

namespace Sys2Proof

/-- `A_MAX`: the largest alphabet size (00_scope.md R7). -/
def Config.aMax : Nat := 256

/-- `BB_GROW`: the capacity increment of the bit buffer (00_scope.md R7, 93_implementation_defined.md U3). -/
def Config.bbGrow : Nat := 256

/-- The value of `ID` (10_state.md R50). -/
def Config.idValue : BitVec 32 := 0x48554601

/-- The parameters a model takes as arguments (00_scope.md R7; 93_implementation_defined.md U1, U4, U5). They are
constants of a machine: no step changes them. DESIGN CHOICE (notes/assumptions/6.md): they are carried in the state,
because `exec` has no other argument. -/
structure Params where
  /-- `NODE_CAP`, 0 to 511: entries of the node arena NM. -/
  nodeCap : Fin 512 := 511
  /-- `BB_MAX`, 0 to 2047: physical bit slots of the bit buffer. -/
  bbMax : Fin 2048 := 1024
  /-- `TIE_ARRAY_SENSE`: true is the comparator of 43_treebuilder.md R182 as written (decision D10), false the other
  reading of the tie-break (90_conflicts.md C1). -/
  tieArraySense : Bool := true
deriving DecidableEq, Repr

/-- FREE VALUE (notes/assumptions/4.md): the bytes SRC still delivers before it answers "no more data", for a scan
that reaches pull number `n` with no answer held in the state (20_memory.md R70: any value). -/
opaque Config.srcRest (n : Nat) : List Byte

/-- FREE VALUE (notes/assumptions/4.md): the answer `bsi(n)` to pull number `n` on BSI where the state holds none
(20_memory.md R70: any value of type `Option Byte`). -/
opaque Config.bsiAnswer (n : Nat) : Option Byte

/-- FREE VALUE (notes/assumptions/4.md): the answer `bso(n)` to push number `n` on BSO where the state holds none,
`true` for ok and `false` for fail (20_memory.md R72). -/
opaque Config.bsoAnswer (n : Nat) : Bool

end Sys2Proof
end

