-- ==== Sys2Proof/Machine/State.lean ====
section
/-! DEFINITION. The architectural state of HUFFCORE (10_state.md R20), one structure per unit, with the ports and
channels of R21 beside it, and the state after reset (10_state.md R52). Plain data throughout. -/

namespace Sys2Proof.Machine

/-- An array of HUFFCORE (20_memory.md R60) as the list of its entries that have a value: (index, entry), indices
strictly rising. -/
abbrev Entries (α : Type) := List (Nat × α)

/-- The bit buffer BB (10_state.md R23). -/
structure BitBuffer where
  /-- `BB.VALID`. -/
  valid : Bool
  /-- `BB.LEN`, 11 bits. -/
  len : BitVec 11
  /-- `BB.CAP`, 11 bits. -/
  cap : BitVec 11
  /-- `BB.BITS`: an unlisted slot holds 0, and no listed slot does. -/
  bits : Entries Bit
deriving DecidableEq, Repr

/-- `BS.MODE`: 0 is read, 1 is write (10_state.md R25). -/
inductive StreamMode where
  | read
  | write
deriving DecidableEq, Repr

/-- The bit stream BS (10_state.md R25). -/
structure BitStream where
  /-- `BS.OPEN`. -/
  isOpen : Bool
  /-- `BS.MODE`. -/
  mode : StreamMode
  /-- `BS.EOS`. -/
  eos : Bool
  /-- `BS.OFF`, the stream offset: offset `o` is register bit `7 - o` (00_scope.md R8). -/
  off : BitVec 3
  /-- `BS.BYTE`. -/
  byte : Byte
deriving DecidableEq, Repr

/-- The frequency table FT (10_state.md R27). -/
structure FreqTable where
  /-- `FT.VALID`. -/
  valid : Bool
  /-- `FT.ASIZE`, 0 to 256. -/
  asize : Fin 257
  /-- `FT[0 .. A_MAX-1]`: an unlisted entry has no value. -/
  counts : Entries Count
deriving DecidableEq, Repr

/-- A node of the arena, 67 bits (10_state.md R30). -/
structure Node where
  /-- The symbol, or the sentinel -1 for an internal node. -/
  sym : Sym
  /-- The weight. -/
  wt : Weight
  /-- The left child, or NONE. -/
  left : Idx
  /-- The right child, or NONE. -/
  right : Idx
deriving DecidableEq, Repr

/-- The tree builder's registers, the node arena and the working set (10_state.md R29, R30, R31). -/
structure TreeBuilder where
  /-- `TB.ROOT_VALID`. -/
  rootValid : Bool
  /-- `TB.ROOT`. -/
  root : Idx
  /-- `TB.K`. -/
  k : BitVec 9
  /-- `TB.NALLOC`. -/
  nalloc : BitVec 9
  /-- `NM[0 .. 510]`: an unlisted entry has no value. -/
  nm : Entries Node
  /-- `WS[0 .. A_MAX-1]`: an unlisted entry has no value. -/
  ws : Entries Idx
deriving DecidableEq, Repr

/-- An answer of the host to a pull on SRC or BSI (20_memory.md R70, R71, R83). -/
inductive PullAnswer where
  /-- `Some(v)`. -/
  | data (v : Byte)
  /-- `None`: no more data, distinct from every byte value (R71). -/
  | noMore
  /-- The host never answers this pull: the command that made it never finishes (R83). -/
  | never
deriving DecidableEq, Repr

/-- An answer of the host to a push on BSO (20_memory.md R72, R83). -/
inductive PushAnswer where
  | ok
  | fail
  /-- The host never answers this push: the command that made it never finishes (R83). -/
  | never
deriving DecidableEq, Repr

/-- What the host does at the command port and the reset input (10_state.md R21, 70_reset_and_hazards.md R260). -/
inductive PortEvent where
  /-- A command word is presented. -/
  | command (w : Word)
  /-- Reset is asserted and released. -/
  | reset
deriving DecidableEq, Repr

/-- A record of CODE_OUT (20_memory.md R73, 44_extractor.md R213). -/
structure CodeRecord where
  /-- The 8-bit symbol of the leaf. -/
  sym : Byte
  /-- The code length, 9 bits. -/
  len : BitVec 9
  /-- The code, the bit nearest the root first. -/
  code : List Bit
deriving DecidableEq, Repr

/-- The ports and channels (10_state.md R21): the model's own fields, not registers of R20. The inputs are what the
host will present and answer, the next one first (10_state.md R39 calls them an oracle); the outputs are the
observable history, oldest first. DESIGN CHOICE (notes/assumptions/1.md, 2.md, 3.md). -/
structure Ports where
  /-- The command port and the reset input. -/
  port : List PortEvent
  /-- The answers the host will give on SRC; past the end of the list they are free values. -/
  src : List PullAnswer
  /-- Pulls made on SRC so far. -/
  srcPulls : Nat
  /-- The answers the host will give on BSI; past the end of the list they are free values. -/
  bsi : List PullAnswer
  /-- Pulls made on BSI so far. -/
  bsiPulls : Nat
  /-- The answers the host will give on BSO; past the end of the list they are free values. -/
  bso : List PushAnswer
  /-- Pushes offered on BSO so far. -/
  bsoPushes : Nat
  /-- `OUTB`: the bytes BSO has taken (20_memory.md R72). -/
  outb : List Byte
  /-- The records emitted on CODE_OUT (20_memory.md R73). -/
  codeOut : List CodeRecord
  /-- The characters emitted on RENDER_OUT (20_memory.md R74). -/
  renderOut : List Byte
  /-- The pairs (code, result) given on the response port (60_exceptions.md R232). -/
  responses : List (BitVec 8 × Word)
deriving DecidableEq, Repr

/-- The state: every piece of 10_state.md R20, then the model's own fields `busy`, `params` and `io`. -/
structure State where
  /-- The bit buffer BB. -/
  bb : BitBuffer
  /-- The bit stream BS. -/
  bs : BitStream
  /-- The frequency table FT. -/
  ft : FreqTable
  /-- The tree builder TB with NM and WS. -/
  tb : TreeBuilder
  /-- `ERR`, the code of the last command that finished (R34). -/
  err : BitVec 8
  /-- `RES`, the result of the last command that finished (R33). -/
  res : Word
  /-- `ESTICKY` (R35). -/
  esticky : BitVec 16
  /-- `ID`, a constant (R50). -/
  ident : BitVec 32
  /-- A command is running and waits for a channel that never answers (20_memory.md R83); notes/assumptions/5.md. -/
  busy : Bool
  /-- The parameters of the machine (00_scope.md R7); notes/assumptions/6.md. -/
  params : Params
  /-- The ports and channels (R21). -/
  io : Ports
deriving DecidableEq, Repr

/-- The error codes of 60_exceptions.md R231. -/
inductive ErrCode where
  | ok
  | alloc
  | invalidState
  | invalidArg
  | endOfStream
  /-- Never raised by any command (41_bitstream.md R135). -/
  | invalidOffset
  | invalidBit
  | bufferTooSmall
  | writeError
  | overflow
  | illegalCmd
deriving DecidableEq, Repr

/-- Why a run stops. The errors of the manual are results (60_exceptions.md R230), never these. -/
inductive Fault where
  /-- A read of an entry of FT at or above `FT.ASIZE` or with no value (10_state.md R52, 93_implementation_defined.md
  U19). Raised by `ftRead`, so by FT_SCAN, FT_INC, FT_GET and TB_BUILD, in states no run reaches. Safe: the model
  stops. -/
  | noCount (sym : Nat)
  /-- A read of an entry of NM at or above `TB.NALLOC` or with no value (10_state.md R52, 93_implementation_defined.md
  U19). Raised by `nodeAt`, so by TB_NODE and TB_EXTRACT, in states no run reaches. Safe: the model stops. -/
  | noNode (idx : Nat)
  /-- The walk of TB_EXTRACT has used up its recursion bound. Raised by `walk` in no state at all: each descent needs
  a free slot of the bit buffer, and there are at most 2047 (44_extractor.md R211). Safe: the model stops. -/
  | walkTooDeep
deriving DecidableEq, Repr

/-- Why the model gives no meaning. -/
inductive Refusal where
  /-- An instruction with no meaning in `exec`. No arm answers with it: every command is modelled. Safe: the model
  stops. -/
  | notModelled (mnemonic : String)
deriving DecidableEq, Repr

/-- The answer of a meaning and of a step. -/
abbrev Result := Host.Outcome State Fault Refusal

/-- The ports before the host has done anything: nothing presented, no answer held, empty histories. -/
def Ports.idle : Ports :=
  { port := []
    src := []
    srcPulls := 0
    bsi := []
    bsiPulls := 0
    bso := []
    bsoPushes := 0
    outb := []
    codeOut := []
    renderOut := []
    responses := [] }

/-- Every register, flag and array at its value of 10_state.md R52, with the given parameters and ports. FT, NM and WS
are "unspecified": no entry has a value. -/
def State.resetWith (p : Params) (io : Ports) : State :=
  { bb := { valid := false, len := 0, cap := 0, bits := [] }
    bs := { isOpen := false, mode := .read, eos := false, off := 0, byte := 0 }
    ft := { valid := false, asize := 0, counts := [] }
    tb := { rootValid := false, root := noneIdx, k := 0, nalloc := 0, nm := [], ws := [] }
    err := 0
    res := 0
    esticky := 0
    ident := Config.idValue
    busy := false
    params := p
    io := io }

/-- The machine right after reset (10_state.md R52) with the default parameters of 00_scope.md R7. -/
def State.reset : State := State.resetWith {} Ports.idle

end Sys2Proof.Machine
end

