-- ==== Sys2Proof/Machine/Ops.lean ====
section
/-! DEFINITION. The named operations: array entries (`MemRead`, `MemWrite` of 00_scope.md R9), the checked reads of FT
and NM, the channels (20_memory.md R70 to R74), the completion of a command (60_exceptions.md R232, which is all an
error does here: there is no trap to enter and none to return from, R237), the illegal command (30_encoding.md R96)
and the reset input (70_reset_and_hazards.md R260). -/

namespace Sys2Proof.Machine

/-! ### Unit updates -/

/-- Replace the bit buffer. -/
def State.withBb (s : State) (x : BitBuffer) : State := { s with bb := x }
/-- Replace the bit stream. -/
def State.withBs (s : State) (x : BitStream) : State := { s with bs := x }
/-- Replace the frequency table. -/
def State.withFt (s : State) (x : FreqTable) : State := { s with ft := x }
/-- Replace the tree builder. -/
def State.withTb (s : State) (x : TreeBuilder) : State := { s with tb := x }
/-- Replace the ports. -/
def State.withIo (s : State) (x : Ports) : State := { s with io := x }

/-! ### Arrays -/

/-- `MemRead(S, i)`: the entry at index `i`, or none where it has no value (00_scope.md R9). -/
def memRead {α : Type} : Entries α → Nat → Option α
  | [], _ => none
  | (j, v) :: m, i => if i = j then some v else memRead m i

/-- `MemWrite(S, i, v)` (00_scope.md R9), keeping the indices strictly rising. -/
def memWrite {α : Type} : Entries α → Nat → α → Entries α
  | [], i, v => [(i, v)]
  | (j, w) :: m, i, v =>
    if i < j then (i, v) :: (j, w) :: m
    else if i = j then (i, v) :: m
    else (j, w) :: memWrite m i v

/-- Take the value of entry `i` away: what writing the value of an unlisted entry is. -/
def memClear {α : Type} (m : Entries α) (i : Nat) : Entries α := m.filter fun e => e.1 != i

/-- Take the value of every entry below `n` away. -/
def memClearBelow {α : Type} (m : Entries α) (n : Nat) : Entries α := m.filter fun e => decide (n ≤ e.1)

/-- Write `v` to every entry below `n`. -/
def memFill {α : Type} (m : Entries α) (n : Nat) (v : α) : Entries α :=
  ((List.range n).map fun i => (i, v)) ++ memClearBelow m n

/-- The canonical form of an array: indices strictly rising. -/
def memWf {α : Type} (m : Entries α) : Bool := decide (m.Pairwise fun x y => x.1 < y.1)

/-- `BB.BITS[i]`: an unlisted slot holds 0. -/
def bitRead (m : Entries Bit) (i : Nat) : Bit := (memRead m i).getD false

/-- `BB.BITS[i] <- b`: writing 0 takes the entry out. -/
def bitWrite (m : Entries Bit) (i : Nat) (b : Bit) : Entries Bit :=
  if b then memWrite m i true else memClear m i

/-- The canonical form of the slot array: indices strictly rising and no listed slot 0. -/
def bitsWf (m : Entries Bit) : Bool := memWf m && m.all fun e => e.2

/-- The canonical form of all four arrays. -/
def State.memoryWf (s : State) : Bool :=
  bitsWf s.bb.bits && memWf s.ft.counts && memWf s.tb.nm && memWf s.tb.ws

/-- `FT[i]`, accessible only below `FT.ASIZE` (20_memory.md R60); an entry with no value faults (10_state.md R52). -/
def ftRead (ft : FreqTable) (i : Nat) : Except Fault Count :=
  if i < ft.asize.val then
    match memRead ft.counts i with
    | some c => .ok c
    | none => .error (.noCount i)
  else .error (.noCount i)

/-- `FT[i] <- c`. -/
def ftWrite (ft : FreqTable) (i : Nat) (c : Count) : FreqTable := { ft with counts := memWrite ft.counts i c }

/-- `NM[i]`, accessible only below `TB.NALLOC` (20_memory.md R60); an entry with no value faults (10_state.md R52). -/
def nodeAt (tb : TreeBuilder) (i : Idx) : Except Fault Node :=
  if i.toNat < tb.nalloc.toNat then
    match memRead tb.nm i.toNat with
    | some n => .ok n
    | none => .error (.noNode i.toNat)
  else .error (.noNode i.toNat)

/-! ### Completion of a command (60_exceptions.md R232) -/

/-- The code number (60_exceptions.md R231). -/
def ErrCode.code : ErrCode → BitVec 8
  | .ok => 0
  | .alloc => 1
  | .invalidState => 2
  | .invalidArg => 3
  | .endOfStream => 4
  | .invalidOffset => 5
  | .invalidBit => 6
  | .bufferTooSmall => 7
  | .writeError => 8
  | .overflow => 9
  | .illegalCmd => 10

/-- `if code != 0: ESTICKY[code] <- 1` (60_exceptions.md R232, 10_state.md R35). -/
def stickyAfter (e : ErrCode) (old : BitVec 16) : BitVec 16 :=
  if e.code = 0 then old else old ||| (1#16 <<< e.code.toNat)

/-- The last effect of every command: `ERR`, `RES`, `ESTICKY` and the pair on the response port (60_exceptions.md
R232). -/
def complete (e : ErrCode) (r : Word) (s : State) : State :=
  { s with
    err := e.code
    res := r
    esticky := stickyAfter e s.esticky
    io := { s.io with responses := s.io.responses ++ [(e.code, r)] } }

/-- `done(res)` (00_scope.md R9). -/
def done (r : Word) (s : State) : Result := .next (complete .ok r s)

/-- `raise E(res)` (00_scope.md R9): what earlier lines wrote stays written. -/
def raise (e : ErrCode) (r : Word) (s : State) : Result := .next (complete e r s)

/-- A word that is no command: `E_ILLEGAL_CMD`, result 0, nothing else (30_encoding.md R96). -/
def illegal (s : State) : Result := raise .illegalCmd 0 s

/-! ### A command that waits for ever -/

/-- The command that was started in `s` and has come as far as `t` waits for a channel that never answers: it never
finishes and gives no response (20_memory.md R83). What it pulled, pushed and emitted stays so (R80); the registers
and arrays show the state before the command, never a state in between (R67). -/
def suspend (s t : State) : State := { s with io := t.io, busy := true }

/-- How a loop over a channel ends: `done`, `raise`, waiting for ever, or a read with no value. -/
inductive Ending where
  | done (r : Word) (t : State)
  | raise (e : ErrCode) (r : Word) (t : State)
  | waits (t : State)
  | unreadable (f : Fault)
deriving DecidableEq, Repr

/-- The command that was started in `s` ends so. -/
def conclude (s : State) : Ending → Result
  | .done r t => Sys2Proof.Machine.done r t
  | .raise e r t => Sys2Proof.Machine.raise e r t
  | .waits t => .next (suspend s t)
  | .unreadable f => .fault f

/-! ### Channels -/

/-- The answer to a pull, with the state after it; or the command waits for ever (20_memory.md R70, R83). -/
inductive Pulled where
  | answer (r : Option Byte) (s : State)
  | waits (s : State)
deriving DecidableEq, Repr

/-- The answer to a push, with the state after it; or the command waits for ever (20_memory.md R72, R83). -/
inductive Pushed where
  | ok (s : State)
  | fail (s : State)
  | waits (s : State)
deriving DecidableEq, Repr

/-- One pull on SRC is made: its answer is consumed (20_memory.md R80). -/
def countSrcPull (s : State) : State :=
  s.withIo { s.io with src := s.io.src.tail, srcPulls := s.io.srcPulls + 1 }

/-- One pull on BSI is made: its answer is consumed (20_memory.md R80). -/
def countBsiPull (s : State) : State :=
  s.withIo { s.io with bsi := s.io.bsi.tail, bsiPulls := s.io.bsiPulls + 1 }

/-- One push on BSO is offered: its answer is consumed (20_memory.md R80). -/
def countBsoPush (s : State) : State :=
  s.withIo { s.io with bso := s.io.bso.tail, bsoPushes := s.io.bsoPushes + 1 }

/-- `pull(BSI)` (20_memory.md R70): the held answer, or a free value where none is held. -/
def pullBsi (s : State) : Pulled :=
  match s.io.bsi with
  | [] => .answer (Config.bsiAnswer s.io.bsiPulls) (countBsiPull s)
  | .data v :: _ => .answer (some v) (countBsiPull s)
  | .noMore :: _ => .answer none (countBsiPull s)
  | .never :: _ => .waits (countBsiPull s)

/-- BSO has taken byte `v`: it is appended to `OUTB` (20_memory.md R72). -/
def deliver (v : Byte) (s : State) : State := s.withIo { s.io with outb := s.io.outb ++ [v] }

/-- `push(BSO, v)` (20_memory.md R72): the held answer, or a free value where none is held. On `fail` nothing is
appended. -/
def pushBso (v : Byte) (s : State) : Pushed :=
  match s.io.bso with
  | [] => if Config.bsoAnswer s.io.bsoPushes then .ok (deliver v (countBsoPush s)) else .fail (countBsoPush s)
  | .ok :: _ => .ok (deliver v (countBsoPush s))
  | .fail :: _ => .fail (countBsoPush s)
  | .never :: _ => .waits (countBsoPush s)

/-- `emit(CODE_OUT, r)` for each record in order (20_memory.md R73). -/
def emitCodes (rs : List CodeRecord) (s : State) : State := s.withIo { s.io with codeOut := s.io.codeOut ++ rs }

/-- `emit(RENDER_OUT, c)` for each character in order (20_memory.md R74). -/
def emitChars (cs : List Byte) (s : State) : State := s.withIo { s.io with renderOut := s.io.renderOut ++ cs }

/-- The 256-bit vector of a record on the port: code bit `i` at vector bit `i`, zeros above (20_memory.md R73). -/
def CodeRecord.vector (r : CodeRecord) : BitVec 256 := (BitVec.ofBoolListLE r.code).setWidth 256

/-! ### The command port and the reset input -/

/-- The next event of the command port and the reset input, and the state once the host has passed it. -/
def nextEvent (s : State) : Option (PortEvent × State) :=
  match s.io.port with
  | [] => none
  | e :: rest => some (e, s.withIo { s.io with port := rest })

/-- Reset (70_reset_and_hazards.md R260): every piece of state at its value of 10_state.md R52; a waiting command is
abandoned without a response; what was pulled, pushed or emitted stays so. -/
def applyReset (s : State) : State := State.resetWith s.params s.io

/-- Present a command word ahead of everything else the host will present, to a block that runs no command. -/
def presentWord (w : Word) (s : State) : State :=
  { s with busy := false, io := { s.io with port := .command w :: s.io.port } }

end Sys2Proof.Machine
end

