-- ==== Sys2Proof/Machine/Operands.lean ====
section
/-! DEFINITION. The operand forms (30_encoding.md R90 to R92, R98): a bit value, the storage flag, a symbol, a node
index, a field selector, a size. Operands are unsigned and compared after zero extension, never truncated first. -/

namespace Sys2Proof.Machine

/-- A bit operand: 0 or 1, any other value is no bit (40_bitbuffer.md R113, 41_bitstream.md R136). -/
def bitOperand (b : BitVec 32) : Option Bit :=
  if b.toNat > 1 then none else some (b.toNat == 1)

/-- The storage flag of `BB_RENDER`: `st = 1` passes storage (40_bitbuffer.md R115). -/
def storagePassed (st : BitVec 24) : Bool := st.toNat == 1

/-- A symbol operand as an index of FT, or none when `sym >= FT.ASIZE` (42_freqtable.md R164). -/
def symbolOperand (ft : FreqTable) (sym : BitVec 24) : Option Nat :=
  if sym.toNat ≥ ft.asize.val then none else some sym.toNat

/-- A node operand as an index of NM, or none when `idx >= TB.NALLOC` (43_treebuilder.md R195). -/
def nodeOperand (tb : TreeBuilder) (idx : BitVec 24) : Option Idx :=
  if idx.toNat ≥ tb.nalloc.toNat then none else some (idx.setWidth 9)

/-- The field of a node that `fsel` selects, zero-extended to 64 bits (43_treebuilder.md R195). -/
def nodeField (n : Node) (fsel : BitVec 32) : Word :=
  if fsel = 0 then n.sym.setWidth 64
  else if fsel = 1 then n.wt.setWidth 64
  else if fsel = 2 then n.left.setWidth 64
  else n.right.setWidth 64

/-- An alphabet size, or none when it is larger than the table storage (42_freqtable.md R162). -/
def sizeOperand (size : BitVec 24) : Option (Fin 257) :=
  if h : size.toNat < 257 then some ⟨size.toNat, h⟩ else none

/-- A capacity, or none when it is larger than `BB_MAX` (40_bitbuffer.md R112). -/
def capOperand (p : Params) (cap : BitVec 32) : Option (BitVec 11) :=
  if cap.toNat > p.bbMax.val then none else some (cap.setWidth 11)

end Sys2Proof.Machine
end

