-- ==== Sys2Proof/Machine/BitBuffer.lean ====
section
/-! DEFINITION. The bit buffer: its primitives (40_bitbuffer.md R111) and the commands BB_CREATE, BB_APPEND, BB_POP,
BB_RENDER (R112 to R115). -/

namespace Sys2Proof.Machine

/-- The slots that hold data, front to back: `BB.BITS[0 .. BB.LEN-1]` (20_memory.md R60, R65). -/
def bbContents (b : BitBuffer) : List Bit := (List.range b.len.toNat).map (bitRead b.bits)

/-- `for i = 0 to BB_MAX - 1: BB.BITS[i] <- 0` (40_bitbuffer.md R112, 44_extractor.md R212). -/
def zeroSlots (p : Params) (m : Entries Bit) : Entries Bit := memClearBelow m p.bbMax.val

/-- The store and the length step of `bb_push` (40_bitbuffer.md R111). -/
def bbStore (bit : Bit) (b : BitBuffer) : BitBuffer :=
  { b with bits := bitWrite b.bits b.len.toNat bit, len := b.len + 1 }

/-- `bb_push(bit)` (40_bitbuffer.md R111); none is `alloc_fail`, with nothing changed. The growth test is made on the
exact sum (30_encoding.md R101). -/
def bbPush (p : Params) (bit : Bit) (b : BitBuffer) : Option BitBuffer :=
  if b.len = b.cap then
    if b.cap.toNat + Config.bbGrow > p.bbMax.val then none
    else some (bbStore bit { b with cap := b.cap + BitVec.ofNat 11 Config.bbGrow })
  else some (bbStore bit b)

/-- `bb_pop()` (40_bitbuffer.md R111): nothing happens to an empty buffer. -/
def bbPop (b : BitBuffer) : BitBuffer :=
  if b.len.toNat > 0 then
    { b with len := b.len - 1, bits := bitWrite b.bits (b.len - 1).toNat false }
  else b

/-- `BB_CREATE cap` (40_bitbuffer.md R112). -/
def execBbCreate (cap : BitVec 32) (s : State) : Result :=
  match capOperand s.params cap with
  | none => raise .alloc 0 s
  | some c => done 0 (s.withBb { valid := true, len := 0, cap := c, bits := zeroSlots s.params s.bb.bits })

/-- `BB_APPEND bit` (40_bitbuffer.md R113). -/
def execBbAppend (bit : BitVec 32) (s : State) : Result :=
  if s.bb.valid = false then raise .invalidState 0 s
  else
    match bitOperand bit with
    | none => raise .invalidBit 0 s
    | some b =>
      match bbPush s.params b s.bb with
      | none => raise .alloc 0 s
      | some bb => done (bb.len.setWidth 64) (s.withBb bb)

/-- `BB_POP` (40_bitbuffer.md R114). -/
def execBbPop (s : State) : Result :=
  if s.bb.valid = false then raise .invalidState 0 s
  else done ((bbPop s.bb).len.setWidth 64) (s.withBb (bbPop s.bb))

/-- The character of a bit: '0' is 0x30, '1' is 0x31 (40_bitbuffer.md R115). -/
def bitChar (b : Bit) : Byte := 0x30 + (BitVec.ofBool b).setWidth 8

/-- The string a render emits: the bits in order and the terminator 0x00 (40_bitbuffer.md R115). -/
def renderText (b : BitBuffer) : List Byte := (bbContents b).map bitChar ++ [0]

/-- The size a render needs, `BB.LEN + 1` on 12 bits (40_bitbuffer.md R115). -/
def renderNeed (b : BitBuffer) : BitVec 12 := b.len.setWidth 12 + 1

/-- `BB_RENDER st, bufsize` (40_bitbuffer.md R115). An `st` other than 0 or 1 is a nonzero reserved field: an illegal
command (30_encoding.md R93). -/
def execBbRender (st : BitVec 24) (bufsize : BitVec 32) (s : State) : Result :=
  if stOk st = false then illegal s
  else if s.bb.valid = false then raise .invalidState 0 s
  else if storagePassed st = false then done ((renderNeed s.bb).setWidth 64) s
  else if bufsize.toNat < (renderNeed s.bb).toNat then raise .bufferTooSmall 0 s
  else done ((renderNeed s.bb).setWidth 64) (emitChars (renderText s.bb) s)

end Sys2Proof.Machine
end

