-- ==== Sys2Proof/Machine/Flags.lean ====
section
/-! DEFINITION. The flags of 10_state.md R36 as the commands test them, and the status port, which shows every
register of R20 that is not an array (10_state.md R21, R38). The sticky bits are `stickyAfter` of Ops.lean. -/

namespace Sys2Proof.Machine

/-- A stream is open for reading: not (`BS.OPEN = 0` or `BS.MODE = 1`) (41_bitstream.md R134). -/
def BitStream.readable (b : BitStream) : Bool := b.isOpen && b.mode == .read

/-- A stream is open for writing: not (`BS.OPEN = 0` or `BS.MODE = 0`) (41_bitstream.md R136). -/
def BitStream.writable (b : BitStream) : Bool := b.isOpen && b.mode == .write

/-- `BS.MODE` as the bit the status port shows: 0 read, 1 write (10_state.md R25). -/
def StreamMode.toBit : StreamMode → BitVec 1
  | .read => 0
  | .write => 1

/-- The answer of `BS_AT_END` on an open stream: always 0 for a write-mode stream, else `BS.EOS`
(41_bitstream.md R138). -/
def atEndFlag (b : BitStream) : Word :=
  match b.mode with
  | .write => 0
  | .read => (BitVec.ofBool b.eos).setWidth 64

/-- What the status port shows (10_state.md R38), each register at its width of R20. -/
structure Status where
  bbValid : BitVec 1
  bbLen : BitVec 11
  bbCap : BitVec 11
  bsOpen : BitVec 1
  bsMode : BitVec 1
  bsEos : BitVec 1
  bsOff : BitVec 3
  bsByte : BitVec 8
  ftValid : BitVec 1
  ftAsize : BitVec 9
  tbRootValid : BitVec 1
  tbRoot : BitVec 9
  tbK : BitVec 9
  tbNalloc : BitVec 9
  err : BitVec 8
  res : BitVec 64
  esticky : BitVec 16
  ident : BitVec 32
deriving DecidableEq, Repr

/-- The status port: a read at any time, without side effect (10_state.md R38). -/
def statusPort (s : State) : Status :=
  { bbValid := BitVec.ofBool s.bb.valid
    bbLen := s.bb.len
    bbCap := s.bb.cap
    bsOpen := BitVec.ofBool s.bs.isOpen
    bsMode := s.bs.mode.toBit
    bsEos := BitVec.ofBool s.bs.eos
    bsOff := s.bs.off
    bsByte := s.bs.byte
    ftValid := BitVec.ofBool s.ft.valid
    ftAsize := BitVec.ofNat 9 s.ft.asize.val
    tbRootValid := BitVec.ofBool s.tb.rootValid
    tbRoot := s.tb.root
    tbK := s.tb.k
    tbNalloc := s.tb.nalloc
    err := s.err
    res := s.res
    esticky := s.esticky
    ident := s.ident }

end Sys2Proof.Machine
end

