-- ==== Sys2Proof/Machine/BitStream.lean ====
section
/-! DEFINITION. The bit stream: the write primitive (41_bitstream.md R131) and the commands BS_OPEN_R, BS_OPEN_W,
BS_READ_BIT, BS_WRITE_BIT, BS_WRITE_BUF, BS_AT_END, BS_CLOSE (R132 to R139). -/

namespace Sys2Proof.Machine

/-- The register bit of stream offset `off`: `7 - off`, most significant bit first (20_memory.md R68). -/
def streamBit (off : BitVec 3) : Nat := 7 - off.toNat

/-- `BS.BYTE[7 - BS.OFF]` (41_bitstream.md R134). -/
def readStreamBit (b : BitStream) : Bit := b.byte.getLsbD (streamBit b.off)

/-- A byte with one position set or cleared, the other seven kept (41_bitstream.md R131). -/
def putBit (v : Byte) (i : Nat) (bit : Bit) : Byte :=
  if bit then v ||| (1#8 <<< i) else v &&& ~~~(1#8 <<< i)

/-- `bs_put(bit)` (41_bitstream.md R131). At offset 7 the byte is complete: the offset becomes 0 before the push, so
also when the push fails. -/
def bsPut (bit : Bit) (s : State) : Pushed :=
  let byte := putBit s.bs.byte (streamBit s.bs.off) bit
  if s.bs.off.toNat < 7 then .ok (s.withBs { s.bs with byte := byte, off := s.bs.off + 1 })
  else pushBso byte (s.withBs { s.bs with byte := byte, off := 0 })

/-- The stream of a read-mode open before its first pull (41_bitstream.md R132). -/
def openRead (b : BitStream) : BitStream := { b with isOpen := true, mode := .read, off := 0 }

/-- The primed byte, or the end of the file (41_bitstream.md R132). -/
def primeByte (r : Option Byte) (b : BitStream) : BitStream :=
  { b with byte := r.getD 0, eos := r.isNone }

/-- `BS_OPEN_R` (41_bitstream.md R132). -/
def execBsOpenR (s : State) : Result :=
  if s.bs.isOpen = true then raise .invalidState 0 s
  else
    match pullBsi (s.withBs (openRead s.bs)) with
    | .answer r t => done 0 (t.withBs (primeByte r t.bs))
    | .waits t => .next (suspend s t)

/-- `BS_OPEN_W` (41_bitstream.md R133). -/
def execBsOpenW (s : State) : Result :=
  if s.bs.isOpen = true then raise .invalidState 0 s
  else done 0 (s.withBs { isOpen := true, mode := .write, off := 0, byte := 0, eos := false })

/-- The next byte of a read stream, or its end: at the end `BS.BYTE` keeps the exhausted byte (41_bitstream.md
R134). -/
def nextByte (r : Option Byte) (b : BitStream) : BitStream :=
  { b with byte := r.getD b.byte, eos := b.eos || r.isNone }

/-- `BS_READ_BIT` (41_bitstream.md R134). -/
def execBsReadBit (s : State) : Result :=
  if s.bs.readable = false then raise .invalidState 0 s
  else if s.bs.eos = true then raise .endOfStream 0 s
  else
    let bit : Word := (BitVec.ofBool (readStreamBit s.bs)).setWidth 64
    if s.bs.off.toNat < 7 then done bit (s.withBs { s.bs with off := s.bs.off + 1 })
    else
      match pullBsi (s.withBs { s.bs with off := 0 }) with
      | .answer r t => done bit (t.withBs (nextByte r t.bs))
      | .waits t => .next (suspend s t)

/-- `BS_WRITE_BIT bit` (41_bitstream.md R136). -/
def execBsWriteBit (bit : BitVec 32) (s : State) : Result :=
  if s.bs.writable = false then raise .invalidState 0 s
  else
    match bitOperand bit with
    | none => raise .invalidBit 0 s
    | some b =>
      match bsPut b s with
      | .ok t => done 0 t
      | .fail t => raise .writeError 0 t
      | .waits t => .next (suspend s t)

/-- The loop of `BS_WRITE_BUF`: the bits still to write and how many were written without failure (41_bitstream.md
R137). -/
def writeBits : List Bit → Nat → State → Ending
  | [], _, s => .done (s.bb.len.setWidth 64) s
  | b :: rest, i, s =>
    match bsPut b s with
    | .ok t => writeBits rest (i + 1) t
    | .fail t => .raise .writeError (BitVec.ofNat 64 i) t
    | .waits t => .waits t

/-- `BS_WRITE_BUF` (41_bitstream.md R137): the stream is checked, then the buffer; the buffer is not changed. -/
def execBsWriteBuf (s : State) : Result :=
  if s.bs.writable = false then raise .invalidState 0 s
  else if s.bb.valid = false then raise .invalidState 0 s
  else conclude s (writeBits (bbContents s.bb) 0 s)

/-- `BS_AT_END` (41_bitstream.md R138). -/
def execBsAtEnd (s : State) : Result :=
  if s.bs.isOpen = false then raise .invalidState 0 s
  else done (atEndFlag s.bs) s

/-- The stream closed: every field 0 (41_bitstream.md R139). -/
def closedStream : BitStream := { isOpen := false, mode := .read, eos := false, off := 0, byte := 0 }

/-- `BS_CLOSE` (41_bitstream.md R139): nothing is pushed; a close with no open stream changes nothing. -/
def execBsClose (s : State) : Result :=
  if s.bs.isOpen = true then done 0 (s.withBs closedStream) else done 0 s

end Sys2Proof.Machine
end

