-- ==== Sys2Proof/Machine/TreeBuilder.lean ====
section
/-! DEFINITION. The tree builder: the comparator, the sort passes, node allocation and the three phases of a build
(43_treebuilder.md R180 to R191), and the commands TB_BUILD (R190) and TB_NODE (R195). -/

namespace Sys2Proof.Machine

/-- `is_leaf(n)` (43_treebuilder.md R181). -/
def Node.isLeaf (n : Node) : Bool := n.left == noneIdx && n.right == noneIdx

/-- `is_internal(n)` (43_treebuilder.md R181). -/
def Node.isInternal (n : Node) : Bool := n.sym == sentinel

/-- A leaf of the seed phase (43_treebuilder.md R186). -/
def leafNode (s : Nat) (c : Count) : Node :=
  { sym := BitVec.ofNat 9 s, wt := c.setWidth 40, left := noneIdx, right := noneIdx }

/-- The tie-break of the comparator in the array reading (43_treebuilder.md R182): internal node before leaf, then
the larger symbol, a signed 9-bit compare. -/
def tieBefore (x y : Node) : Bool :=
  if x.isInternal && !y.isInternal then true
  else if y.isInternal && !x.isInternal then false
  else y.sym.slt x.sym

/-- The comparator `before(x, y)` (43_treebuilder.md R182): heavier first, a 40-bit unsigned compare, then the
tie-break. With `sense` false the tie-break points the other way (93_implementation_defined.md U1,
notes/assumptions/7.md). -/
def before (sense : Bool) (x y : Node) : Bool :=
  if x.wt ≠ y.wt then y.wt.ult x.wt
  else if sense then tieBefore x y else tieBefore y x

/-- An entry of the window: a node index that WS holds, with the node NM holds there. -/
structure Entry where
  idx : Idx
  node : Node
deriving DecidableEq, Repr

/-- What a build works on: the registers and arrays, and the window, the first `rem` entries of WS as the build has
written them, listed from index `rem - 1` (the tail) down to index 0 (10_state.md R31: WS is written before it is
read, so the window is a copy of what the build itself has put there; notes/assumptions/11.md). -/
structure Build where
  tb : TreeBuilder
  win : List Entry
deriving DecidableEq, Repr

/-- One pass from the high end down (43_treebuilder.md R183): `x` stands at the index above the first of the listed
entries; it is swapped down when the comparator says it should sort before its lower neighbour. -/
def bubble (sense : Bool) (x : Entry) : List Entry → List Entry
  | [] => [x]
  | y :: rest => if before sense x.node y.node then y :: bubble sense x rest else x :: bubble sense y rest

/-- `sort_pass(rem)` (43_treebuilder.md R183), `rem` being the length of the window. -/
def sortPass (sense : Bool) : List Entry → List Entry
  | [] => []
  | x :: rest => bubble sense x rest

/-- A number of passes. -/
def sortPasses (sense : Bool) : Nat → List Entry → List Entry
  | 0, w => w
  | n + 1, w => sortPasses sense n (sortPass sense w)

/-- `sort_window(rem)`: `rem` passes, no early exit (43_treebuilder.md R184). -/
def sortWindow (sense : Bool) (w : List Entry) : List Entry := sortPasses sense w.length w

/-- The window written to `WS[0 .. rem-1]`. -/
def storeWindow : List Entry → Entries Idx → Entries Idx
  | [], ws => ws
  | e :: rest, ws => memWrite (storeWindow rest ws) rest.length e.idx

/-- `alloc()` (43_treebuilder.md R189): the index and the builder with `TB.NALLOC` one higher, or none for
`alloc_fail`. -/
def alloc (p : Params) (tb : TreeBuilder) : Option (Idx × TreeBuilder) :=
  if tb.nalloc.toNat = p.nodeCap.val then none
  else some (tb.nalloc, { tb with nalloc := tb.nalloc + 1 })

/-- `NM[i] <- n`. -/
def writeNode (i : Idx) (n : Node) (tb : TreeBuilder) : TreeBuilder :=
  { tb with nm := memWrite tb.nm i.toNat n }

/-- The leaf of the seed loop: `NM[i]`, then `WS[TB.K] <- i`, then `TB.K <- TB.K + 1` (43_treebuilder.md R186). -/
def addLeaf (i : Idx) (n : Node) (b : Build) : Build :=
  { tb :=
      { writeNode i n b.tb with
        ws := memWrite b.tb.ws b.tb.k.toNat i
        k := b.tb.k + 1 }
    win := ⟨i, n⟩ :: b.win }

/-- The answer of a phase: `ok`, or `alloc_fail` with what was written so far. -/
inductive Phase where
  | ok (b : Build)
  | allocFail (b : Build)
  | unreadable (f : Fault)
deriving DecidableEq, Repr

/-- The seed loop over the symbols still to come (43_treebuilder.md R186). -/
def seedFrom (p : Params) (ft : FreqTable) : List Nat → Build → Phase
  | [], b => .ok b
  | s :: rest, b =>
    match ftRead ft s with
    | .error f => .unreadable f
    | .ok c =>
      if c = 0 then seedFrom p ft rest b
      else
        match alloc p b.tb with
        | none => .allocFail b
        | some (i, tb) => seedFrom p ft rest (addLeaf i (leafNode s c) { b with tb := tb })

/-- `seed()` (43_treebuilder.md R186): the symbols 0 to `FT.ASIZE - 1` in ascending order. -/
def seed (p : Params) (ft : FreqTable) (b : Build) : Phase := seedFrom p ft (List.range ft.asize.val) b

/-- The new internal node: the sentinel, the sum of the weights (40 bits), `l` left and `r` right
(43_treebuilder.md R187). -/
def mergedNode (l r : Entry) : Node :=
  { sym := sentinel, wt := l.node.wt + r.node.wt, left := l.idx, right := r.idx }

/-- The window sorted, in WS as in the copy (43_treebuilder.md R187). -/
def sortedBuild (sense : Bool) (b : Build) : Build :=
  { tb := { b.tb with ws := storeWindow (sortWindow sense b.win) b.tb.ws }
    win := sortWindow sense b.win }

/-- The node `i` replaces the last two entries of the window: `NM[i]`, then `WS[rem-2] <- i`, `rem - 2` being the
length of what stands above them (43_treebuilder.md R187). -/
def replaceTail (i : Idx) (n : Node) (rest : List Entry) (tb : TreeBuilder) : Build :=
  { tb := { writeNode i n tb with ws := memWrite tb.ws rest.length i }
    win := ⟨i, n⟩ :: rest }

/-- `merge()` (43_treebuilder.md R187): `for rem = TB.K downto 2`, `rem` being the first argument and the length of
the window. The right child is the entry at `rem - 1`, the left child the one at `rem - 2`. A window that is not as
long as `rem` does not occur. -/
def mergeFrom (p : Params) : Nat → Build → Phase
  | 0, b => .ok b
  | 1, b => .ok b
  | rem + 2, b =>
    let b1 := sortedBuild p.tieArraySense b
    match alloc p b1.tb with
    | none => .allocFail b1
    | some (i, tb) =>
      match b1.win with
      | r :: l :: rest => mergeFrom p (rem + 1) (replaceTail i (mergedNode l r) rest tb)
      | _ => .ok b1

/-- `finalize()` (43_treebuilder.md R188): the sole remaining entry, `WS[0]`, is the root. -/
def finalize (b : Build) : TreeBuilder :=
  match b.win with
  | e :: _ => { b.tb with root := e.idx, rootValid := true }
  | [] => b.tb

/-- The start of a build: the previous tree is gone (43_treebuilder.md R190). -/
def clearTree (tb : TreeBuilder) : TreeBuilder :=
  { tb with rootValid := false, root := noneIdx, nalloc := 0, k := 0 }

/-- `TB_BUILD` (43_treebuilder.md R190). -/
def execTbBuild (s : State) : Result :=
  if s.ft.valid = false then raise .invalidState 0 s
  else
    match seed s.params s.ft { tb := clearTree s.tb, win := [] } with
    | .unreadable f => .fault f
    | .allocFail b => raise .alloc 0 (s.withTb b.tb)
    | .ok b =>
      if b.tb.k = 0 then done 0 (s.withTb b.tb)
      else
        match mergeFrom s.params b.tb.k.toNat b with
        | .unreadable f => .fault f
        | .allocFail c => raise .alloc 0 (s.withTb c.tb)
        | .ok c => done (c.tb.k.setWidth 64) (s.withTb (finalize c))

/-- `TB_NODE idx, fsel` (43_treebuilder.md R195). An `fsel` above 3 is a nonzero reserved field: an illegal command
(30_encoding.md R93). -/
def execTbNode (idx : BitVec 24) (fsel : BitVec 32) (s : State) : Result :=
  if fselOk fsel = false then illegal s
  else
    match nodeOperand s.tb idx with
    | none => raise .invalidArg 0 s
    | some i =>
      match nodeAt s.tb i with
      | .ok n => done (nodeField n fsel) s
      | .error f => .fault f

end Sys2Proof.Machine
end

