-- ==== Sys2Proof/Machine/Extractor.lean ====
section
/-! DEFINITION. The code extractor: the depth-first walk (44_extractor.md R211) and the command TB_EXTRACT (R212). -/

namespace Sys2Proof.Machine

/-- What a walk carries: the bit buffer with the path, and the records emitted so far by this command, whose number
is `count` (44_extractor.md R211). -/
structure Walk where
  bb : BitBuffer
  records : List CodeRecord
deriving DecidableEq, Repr

/-- The answer of a walk: `ok`, `alloc_fail` where it stands, or a node with no value, which no tree of a build has. -/
inductive Walked where
  | ok (w : Walk)
  | allocFail (w : Walk)
  | unreadable (f : Fault)
deriving DecidableEq, Repr

/-- The record of a leaf: `(sym[7:0], BB.LEN, BB.BITS[0 .. BB.LEN-1])` (44_extractor.md R211, R213). -/
def leafRecord (n : Node) (b : BitBuffer) : CodeRecord :=
  { sym := n.sym.setWidth 8, len := b.len.setWidth 9, code := bbContents b }

/-- `walk(n)` (44_extractor.md R211), left subtree before right. The first argument bounds the recursion: each descent
pushes one bit, the buffer has at most 2047 slots, so a walk from an empty buffer never uses up `walkBound`. -/
def walk (p : Params) (tb : TreeBuilder) : Nat → Idx → Walk → Walked
  | 0, _, _ => .unreadable .walkTooDeep
  | d + 1, n, w =>
    match nodeAt tb n with
    | .error f => .unreadable f
    | .ok x =>
      if x.isLeaf then .ok { w with records := w.records ++ [leafRecord x w.bb] }
      else
        match bbPush p false w.bb with
        | none => .allocFail w
        | some b0 =>
          match walk p tb d x.left { w with bb := b0 } with
          | .ok w1 =>
            match bbPush p true (bbPop w1.bb) with
            | none => .allocFail { w1 with bb := bbPop w1.bb }
            | some b1 =>
              match walk p tb d x.right { w1 with bb := b1 } with
              | .ok w2 => .ok { w2 with bb := bbPop w2.bb }
              | stop => stop
          | stop => stop

/-- More descents than the bit buffer has slots. -/
def walkBound : Nat := 2048

/-- The path buffer at the start: length 0, slots 0, capacity kept (44_extractor.md R212). -/
def emptied (p : Params) (b : BitBuffer) : BitBuffer := { b with len := 0, bits := zeroSlots p b.bits }

/-- `TB_EXTRACT` (44_extractor.md R212). -/
def execTbExtract (s : State) : Result :=
  if s.bb.valid = false then raise .invalidState 0 s
  else if s.tb.rootValid = false then done 0 (s.withBb (emptied s.params s.bb))
  else
    match walk s.params s.tb walkBound s.tb.root { bb := emptied s.params s.bb, records := [] } with
    | .unreadable f => .fault f
    | .allocFail w => raise .alloc (BitVec.ofNat 64 w.records.length) (emitCodes w.records (s.withBb w.bb))
    | .ok w => done (BitVec.ofNat 64 w.records.length) (emitCodes w.records (s.withBb w.bb))

end Sys2Proof.Machine
end

