-- ==== Sys2Proof/Machine/FreqTable.lean ====
section
/-! DEFINITION. The frequency table: the increment primitive (42_freqtable.md R161) and the commands FT_CREATE,
FT_SCAN, FT_INC, FT_SET, FT_GET (R162 to R166). -/

namespace Sys2Proof.Machine

/-- The answer of `ft_bump` (42_freqtable.md R161); `unreadable` stands for an entry with no value, which no reachable
table has below `FT.ASIZE` (10_state.md R52). -/
inductive Bumped where
  | counted (c : Count) (ft : FreqTable)
  | overflow
  | unreadable (f : Fault)
deriving DecidableEq, Repr

/-- `ft_bump(i)` (42_freqtable.md R161): the new count and the table, or overflow with the count unchanged. -/
def ftBump (ft : FreqTable) (i : Nat) : Bumped :=
  match ftRead ft i with
  | .error f => .unreadable f
  | .ok c => if c = cntMax then .overflow else .counted (c + 1) (ftWrite ft i (c + 1))

/-- `FT_CREATE size` (42_freqtable.md R162): entries at `size` and above are not written. -/
def execFtCreate (size : BitVec 24) (s : State) : Result :=
  match sizeOperand size with
  | none => raise .alloc 0 s
  | some n => done 0 (s.withFt { valid := true, asize := n, counts := memFill s.ft.counts n.val 0 })

/-- A byte the scan has consumed: counted when it is a symbol of the table, else not (42_freqtable.md R163). -/
def scanByte (ft : FreqTable) (v : Byte) : Bumped :=
  if v.toNat < ft.asize.val then ftBump ft v.toNat else .counted 0 ft

/-- The scan where the state holds no answer: the bytes SRC still delivers, then "no more data" (42_freqtable.md R163;
the bytes are a free value, notes/assumptions/4.md). `n` is the count of bytes consumed by this command. -/
def scanRest : List Byte → Nat → State → Ending
  | [], n, s => .done (BitVec.ofNat 64 n) (countSrcPull s)
  | v :: rest, n, s =>
    match scanByte s.ft v with
    | .counted _ ft => scanRest rest (n + 1) ((countSrcPull s).withFt ft)
    | .overflow => .raise .overflow (BitVec.ofNat 64 (n + 1)) (countSrcPull s)
    | .unreadable f => .unreadable f

/-- The scan over the answers the state holds (42_freqtable.md R163). -/
def scanHeld : List PullAnswer → Nat → State → Ending
  | [], n, s => scanRest (Config.srcRest s.io.srcPulls) n s
  | .noMore :: _, n, s => .done (BitVec.ofNat 64 n) (countSrcPull s)
  | .never :: _, _, s => .waits (countSrcPull s)
  | .data v :: rest, n, s =>
    match scanByte s.ft v with
    | .counted _ ft => scanHeld rest (n + 1) ((countSrcPull s).withFt ft)
    | .overflow => .raise .overflow (BitVec.ofNat 64 (n + 1)) (countSrcPull s)
    | .unreadable f => .unreadable f

/-- `FT_SCAN` (42_freqtable.md R163). -/
def execFtScan (s : State) : Result :=
  if s.ft.valid = false then raise .invalidState 0 s
  else conclude s (scanHeld s.io.src 0 s)

/-- `FT_INC sym` (42_freqtable.md R164). -/
def execFtInc (sym : BitVec 24) (s : State) : Result :=
  if s.ft.valid = false then raise .invalidState 0 s
  else
    match symbolOperand s.ft sym with
    | none => raise .invalidArg 0 s
    | some i =>
      match ftBump s.ft i with
      | .counted c ft => done (c.setWidth 64) (s.withFt ft)
      | .overflow => raise .overflow 0 s
      | .unreadable f => .fault f

/-- `FT_SET sym, count` (42_freqtable.md R165). -/
def execFtSet (sym : BitVec 24) (count : BitVec 32) (s : State) : Result :=
  if s.ft.valid = false then raise .invalidState 0 s
  else
    match symbolOperand s.ft sym with
    | none => raise .invalidArg 0 s
    | some i => done (count.setWidth 64) (s.withFt (ftWrite s.ft i count))

/-- `FT_GET sym` (42_freqtable.md R166). -/
def execFtGet (sym : BitVec 24) (s : State) : Result :=
  if s.ft.valid = false then raise .invalidState 0 s
  else
    match symbolOperand s.ft sym with
    | none => raise .invalidArg 0 s
    | some i =>
      match ftRead s.ft i with
      | .ok c => done (c.setWidth 64) s
      | .error f => .fault f

end Sys2Proof.Machine
end

