-- ==== Sys2Proof/Machine/Dispatch.lean ====
section
/-! DEFINITION. The dispatch: one arm per command (30_encoding.md R94). -/

namespace Sys2Proof.Machine

def exec (i : Instr) (s : State) : Host.Outcome State Fault Refusal :=
  match i with
  | .bbCreate cap => Sys2Proof.Machine.execBbCreate cap s
  | .bbAppend bit => Sys2Proof.Machine.execBbAppend bit s
  | .bbPop => Sys2Proof.Machine.execBbPop s
  | .bbRender st bufsize => Sys2Proof.Machine.execBbRender st bufsize s
  | .bsOpenR => Sys2Proof.Machine.execBsOpenR s
  | .bsOpenW => Sys2Proof.Machine.execBsOpenW s
  | .bsReadBit => Sys2Proof.Machine.execBsReadBit s
  | .bsWriteBit bit => Sys2Proof.Machine.execBsWriteBit bit s
  | .bsWriteBuf => Sys2Proof.Machine.execBsWriteBuf s
  | .bsAtEnd => Sys2Proof.Machine.execBsAtEnd s
  | .bsClose => Sys2Proof.Machine.execBsClose s
  | .ftCreate size => Sys2Proof.Machine.execFtCreate size s
  | .ftScan => Sys2Proof.Machine.execFtScan s
  | .ftInc sym => Sys2Proof.Machine.execFtInc sym s
  | .ftSet sym count => Sys2Proof.Machine.execFtSet sym count s
  | .ftGet sym => Sys2Proof.Machine.execFtGet sym s
  | .tbBuild => Sys2Proof.Machine.execTbBuild s
  | .tbExtract => Sys2Proof.Machine.execTbExtract s
  | .tbNode idx fsel => Sys2Proof.Machine.execTbNode idx fsel s

end Sys2Proof.Machine
end

