-- ==== Sys2Proof/Machine/Step.lean ====
section
/-! DEFINITION. One step: the block takes the next event of the command port and the reset input (10_state.md R21,
R22; 30_encoding.md R102: "apply one command to the state"). -/

namespace Sys2Proof.Machine

/-- One step. With nothing presented nothing happens. Reset is 70_reset_and_hazards.md R260. A word presented while a
command is running is not accepted and has no effect (10_state.md R21). Otherwise the word is decoded and the command
runs to completion; a word that is no command is illegal (30_encoding.md R96). -/
def step (s : State) : Host.Outcome State Fault Refusal :=
  match nextEvent s with
  | none => .next s
  | some (.reset, t) => .next (applyReset t)
  | some (.command w, t) =>
    if t.busy then .next t
    else
      match decode w with
      | .ok i => exec i t
      | .error _ => illegal t

/-- The command word of the table presented so that the very next step runs it (notes/assumptions/2.md): there is no
instruction memory (10_state.md R22), the host presents each word. -/
def State.withFetchWord (s : State) (nbits w : Nat) : State := presentWord (tableWord nbits w) s

end Sys2Proof.Machine
end

