-- ==== Sys2Proof/Safety.lean ====
section
/-! DEFINITION. The terms claims are stated in: how a command ends (60_exceptions.md R232), which channels and units
stay as they were, the invariants of the spec (10_state.md R24, R26, R28, R32, R35), the tree that stands in the
arena and its codes (44_extractor.md R211), and the bit order of the stream (20_memory.md R68). -/

namespace Sys2Proof.Machine

/-! ### How a command ends -/

/-- The command `i` issued in `s` ends in `t` with code `e` and result `r`: `ERR`, `RES`, `ESTICKY` and the response
are written (60_exceptions.md R232); the constants of the machine and what the host still has to present are as they
were. -/
def Ends (i : Instr) (s : State) (e : ErrCode) (r : Word) (t : State) : Prop :=
  exec i s = .next t ∧ t.err = e.code ∧ t.res = r ∧ t.esticky = stickyAfter e s.esticky ∧
    t.io.responses = s.io.responses ++ [(e.code, r)] ∧
    t.busy = s.busy ∧ t.ident = s.ident ∧ t.params = s.params ∧ t.io.port = s.io.port

/-- The channel on which the command `i` issued in `s` waits (20_memory.md R83): the answer the state holds for its
pull or push, after those the command has already been given, is `never`, and it is consumed. -/
def WaitsOn (i : Instr) (s t : State) : Prop :=
  (i = .ftScan ∧ ∃ bytes rest, s.io.src = List.map .data bytes ++ .never :: rest ∧ t.io.src = rest ∧
    t.io.srcPulls = s.io.srcPulls + bytes.length + 1) ∨
  ((i = .bsOpenR ∨ i = .bsReadBit) ∧ ∃ rest, s.io.bsi = .never :: rest ∧ t.io.bsi = rest ∧
    t.io.bsiPulls = s.io.bsiPulls + 1) ∨
  ((∃ bit, i = .bsWriteBit bit) ∧ ∃ rest, s.io.bso = .never :: rest ∧ t.io.bso = rest ∧
    t.io.bsoPushes = s.io.bsoPushes + 1) ∨
  (i = .bsWriteBuf ∧ ∃ k rest, s.io.bso = List.replicate k .ok ++ .never :: rest ∧ t.io.bso = rest ∧
    t.io.bsoPushes = s.io.bsoPushes + k + 1)

/-- The command `i` issued in `s` never ends, because the pull or push it makes is never answered (20_memory.md R83):
no response, the block is busy. That every register and array is as before the command is the model's reading of
20_memory.md R67 (DEDUCED, notes/assumptions/5.md). -/
def Hangs (i : Instr) (s t : State) : Prop :=
  exec i s = .next t ∧ t = { s with io := t.io, busy := true } ∧
    t.io.responses = s.io.responses ∧ t.io.port = s.io.port ∧ WaitsOn i s t

/-- SRC is as it was: nothing pulled. -/
def SameSrc (s t : State) : Prop := t.io.src = s.io.src ∧ t.io.srcPulls = s.io.srcPulls

/-- BSI is as it was: nothing pulled. -/
def SameBsi (s t : State) : Prop := t.io.bsi = s.io.bsi ∧ t.io.bsiPulls = s.io.bsiPulls

/-- BSO is as it was: nothing pushed. -/
def SameBso (s t : State) : Prop :=
  t.io.bso = s.io.bso ∧ t.io.bsoPushes = s.io.bsoPushes ∧ t.io.outb = s.io.outb

/-- CODE_OUT and RENDER_OUT are as they were: nothing emitted. -/
def SameEmitted (s t : State) : Prop := t.io.codeOut = s.io.codeOut ∧ t.io.renderOut = s.io.renderOut

/-- No channel is touched. -/
def SameChannels (s t : State) : Prop := SameSrc s t ∧ SameBsi s t ∧ SameBso s t ∧ SameEmitted s t

/-- No unit is touched. -/
def SameUnits (s t : State) : Prop := t.bb = s.bb ∧ t.bs = s.bs ∧ t.ft = s.ft ∧ t.tb = s.tb

/-- The command ends with an error and changes nothing but `ERR`, `RES`, `ESTICKY` and the response (60_exceptions.md
R232). -/
def FailsClean (i : Instr) (s : State) (e : ErrCode) : Prop :=
  ∃ t, Ends i s e 0 t ∧ SameUnits s t ∧ SameChannels s t

/-- The codes a command can end with (60_exceptions.md R233), code 0 among them. -/
def mayEndWith : Instr → List ErrCode
  | .bbCreate _ => [.ok, .alloc]
  | .bbAppend _ => [.ok, .alloc, .invalidState, .invalidBit]
  | .bbPop => [.ok, .invalidState]
  | .bbRender _ _ => [.ok, .invalidState, .bufferTooSmall]
  | .bsOpenR => [.ok, .invalidState]
  | .bsOpenW => [.ok, .invalidState]
  | .bsReadBit => [.ok, .invalidState, .endOfStream]
  | .bsWriteBit _ => [.ok, .invalidState, .invalidBit, .writeError]
  | .bsWriteBuf => [.ok, .invalidState, .writeError]
  | .bsAtEnd => [.ok, .invalidState]
  | .bsClose => [.ok]
  | .ftCreate _ => [.ok, .alloc]
  | .ftScan => [.ok, .invalidState, .overflow]
  | .ftInc _ => [.ok, .invalidState, .invalidArg, .overflow]
  | .ftSet _ _ => [.ok, .invalidState, .invalidArg]
  | .ftGet _ => [.ok, .invalidState, .invalidArg]
  | .tbBuild => [.ok, .alloc, .invalidState]
  | .tbExtract => [.ok, .alloc, .invalidState]
  | .tbNode _ _ => [.ok, .invalidArg]

/-- Commands in a row, as the host presents them one after the other (20_memory.md R77), stopping at the first fault
or refusal. -/
def execAll : List Instr → State → Result
  | [], s => .next s
  | i :: rest, s =>
    match exec i s with
    | .next t => execAll rest t
    | .fault f => .fault f
    | .refused r => .refused r

/-! ### Invariants -/

/-- 10_state.md R24 (a) and (c): the length is within the capacity, the capacity within `BB_MAX`, and every slot at or
above the length holds 0. -/
def BitBuffer.Inv (p : Params) (b : BitBuffer) : Prop :=
  b.len.toNat ≤ b.cap.toNat ∧ b.cap.toNat ≤ p.bbMax.val ∧ ∀ i, b.len.toNat ≤ i → bitRead b.bits i = false

/-- 10_state.md R26 (b) and (c). -/
def BitStream.Inv (b : BitStream) : Prop :=
  (b.eos = true → b.isOpen = true ∧ b.mode = .read) ∧
    (b.isOpen = false → b.mode = .read ∧ b.eos = false ∧ b.off = 0 ∧ b.byte = 0)

/-- 10_state.md R27, R52: every entry of the table has a value. -/
def FreqTable.Inv (ft : FreqTable) : Prop := ∀ i, i < ft.asize.val → (memRead ft.counts i).isSome = true

/-- What a node of the arena is (10_state.md R32 (a), (b), (d), (e); 43_treebuilder.md R194): below `TB.K` a leaf of a
symbol, at or above it an internal node over two earlier nodes whose weights add up exactly. -/
def NodeOk (tb : TreeBuilder) (i : Nat) (n : Node) : Prop :=
  if i < tb.k.toNat then n.isLeaf = true ∧ n.isInternal = false ∧ n.sym.toNat < 256
  else
    n.isLeaf = false ∧ n.isInternal = true ∧ n.left.toNat < i ∧ n.right.toNat < i ∧
      ∃ l r, memRead tb.nm n.left.toNat = some l ∧ memRead tb.nm n.right.toNat = some r ∧
        n.wt.toNat = l.wt.toNat + r.wt.toNat

/-- Every node has at most one parent (10_state.md R32 (c)): the children of the internal nodes of the arena are
pairwise different nodes. -/
def OneParent (tb : TreeBuilder) : Prop :=
  ∀ i j n m, tb.k.toNat ≤ i → i < tb.nalloc.toNat → tb.k.toNat ≤ j → j < tb.nalloc.toNat →
    memRead tb.nm i = some n → memRead tb.nm j = some m →
      n.left ≠ m.right ∧ (i ≠ j → n.left ≠ m.left ∧ n.right ≠ m.right)

/-- 10_state.md R29, R32 and 43_treebuilder.md R191, R194: the arena is within `NODE_CAP`, every node below
`TB.NALLOC` is one of `NodeOk` and has at most one parent, and the root is the last node of a finished build or
`NONE`. -/
def TreeBuilder.Inv (p : Params) (tb : TreeBuilder) : Prop :=
  tb.nalloc.toNat ≤ p.nodeCap.val ∧ tb.k.toNat ≤ 256 ∧
    (∀ i, i < tb.nalloc.toNat → ∃ n, memRead tb.nm i = some n ∧ NodeOk tb i n) ∧ OneParent tb ∧
    (tb.rootValid = true →
      0 < tb.k.toNat ∧ tb.nalloc.toNat = 2 * tb.k.toNat - 1 ∧ tb.root.toNat = 2 * tb.k.toNat - 2) ∧
    (tb.rootValid = false → tb.root = noneIdx)

/-- 10_state.md R34, R35: `ERR` is a code of 60_exceptions.md R231 other than 5, bits 0, 5 and 11 to 15 of `ESTICKY`
are 0, and the bit of the code in `ERR` is set. -/
def ResponseInv (s : State) : Prop :=
  s.err.toNat ≤ 10 ∧ s.err ≠ 5 ∧ s.esticky &&& 0xF821#16 = 0 ∧
    (s.err ≠ 0 → s.esticky.getLsbD s.err.toNat = true)

/-- All of them together, with the canonical form of the arrays and the constant `ID` (10_state.md R50). -/
def State.Inv (s : State) : Prop :=
  s.bb.Inv s.params ∧ s.bs.Inv ∧ s.ft.Inv ∧ s.tb.Inv s.params ∧ ResponseInv s ∧ s.memoryWf = true ∧
    s.ident = Config.idValue

/-! ### The table and the tree -/

/-- The count of a symbol of a table all of whose entries have a value (used under `FreqTable.Inv` only). -/
def countOf (ft : FreqTable) (i : Nat) : Count := (memRead ft.counts i).getD 0

/-- The symbols with nonzero count, in ascending order (43_treebuilder.md R186). -/
def activeSymbols (ft : FreqTable) : List Nat := (List.range ft.asize.val).filter fun i => countOf ft i != 0

/-- The table `b` is the table `a` with the bytes counted (42_freqtable.md R163): each count is higher by the number of
times its symbol occurs, and an entry whose symbol does not occur, or that is none of the table, is as it was. -/
def Counted (bytes : List Byte) (a b : FreqTable) : Prop :=
  b.valid = a.valid ∧ b.asize = a.asize ∧
    (∀ i, i < a.asize.val → (countOf b i).toNat = (countOf a i).toNat + bytes.countP fun v => v.toNat == i) ∧
    ∀ i, (bytes.countP fun v => v.toNat == i) = 0 ∨ a.asize.val ≤ i → memRead b.counts i = memRead a.counts i

/-- Of two nodes of equal weight, `x` stands nearer index 0 (43_treebuilder.md R182): it is internal and `y` is not, or
both are of one kind and its symbol is the larger one, the sentinel 0x1FF marking an internal node. -/
def TieFirst (x y : Node) : Prop :=
  (x.sym = 0x1FF ∧ y.sym ≠ 0x1FF) ∨ ((x.sym = 0x1FF ↔ y.sym = 0x1FF) ∧ y.sym.toInt < x.sym.toInt)

/-- Node `i` is a candidate when node `j` is made (43_treebuilder.md R187): it exists, and no internal node made before
`j` is its parent. -/
def Candidate (tb : TreeBuilder) (j i : Nat) : Prop :=
  i < j ∧ ∀ m n, tb.k.toNat ≤ m → m < j → memRead tb.nm m = some n → n.left.toNat ≠ i ∧ n.right.toNat ≠ i

/-- Node `i` stands nearer index 0 of the sorted window than node `j`: by the comparator (43_treebuilder.md R182), and
where it does not order them, by age, since the sort keeps their order (R185) and a new node enters at the tail
(R187). -/
def StandsBefore (sense : Bool) (tb : TreeBuilder) (i j : Nat) : Prop :=
  ∃ x y, memRead tb.nm i = some x ∧ memRead tb.nm j = some y ∧
    (before sense x y = true ∨ (before sense y x = false ∧ i < j))

/-- Node `j` is over the last two entries of the sorted window (43_treebuilder.md R187): its right child is the last of
all candidates, its left child the one before. -/
def MergesLastTwo (sense : Bool) (tb : TreeBuilder) (j : Nat) : Prop :=
  ∃ n, memRead tb.nm j = some n ∧ Candidate tb j n.left.toNat ∧ Candidate tb j n.right.toNat ∧
    StandsBefore sense tb n.left.toNat n.right.toNat ∧
    ∀ i, Candidate tb j i → i ≠ n.left.toNat → i ≠ n.right.toNat → StandsBefore sense tb i n.left.toNat

/-- Node `j` is over the two lightest candidates (43_treebuilder.md R187): its right child is no heavier than its left
child, and no other candidate is lighter than either. -/
def MergesLightest (tb : TreeBuilder) (j : Nat) : Prop :=
  ∃ n l r, memRead tb.nm j = some n ∧ memRead tb.nm n.left.toNat = some l ∧ memRead tb.nm n.right.toNat = some r ∧
    r.wt.toNat ≤ l.wt.toNat ∧
    ∀ i, Candidate tb j i → i ≠ n.left.toNat → i ≠ n.right.toNat →
      ∃ c, memRead tb.nm i = some c ∧ l.wt.toNat ≤ c.wt.toNat

/-- A binary tree with a symbol and a weight at each leaf. -/
inductive HTree where
  | leaf (sym : Nat) (wt : Nat)
  | node (l r : HTree)
deriving DecidableEq, Repr

/-- The leaves from left to right. -/
def HTree.leaves : HTree → List (Nat × Nat)
  | .leaf sym wt => [(sym, wt)]
  | .node l r => l.leaves ++ r.leaves

/-- The depth of the deepest leaf. -/
def HTree.depth : HTree → Nat
  | .leaf _ _ => 0
  | .node l r => max l.depth r.depth + 1

/-- The symbols with their codes under a path, left subtree before right, 0 for a left edge and 1 for a right edge
(44_extractor.md R210). -/
def HTree.codes : HTree → List Bit → List (Nat × List Bit)
  | .leaf sym _, path => [(sym, path)]
  | .node l r, path => l.codes (path ++ [false]) ++ r.codes (path ++ [true])

/-- The record of a symbol and its code (44_extractor.md R213). -/
def codeRecord (c : Nat × List Bit) : CodeRecord :=
  { sym := BitVec.ofNat 8 c.1, len := BitVec.ofNat 9 c.2.length, code := c.2 }

/-- The tree `t` stands in the arena at node `i`. -/
def TreeAt (tb : TreeBuilder) : HTree → Idx → Prop
  | .leaf sym wt, i =>
    ∃ n, nodeAt tb i = .ok n ∧ n.isLeaf = true ∧ sym < 256 ∧ n.sym = BitVec.ofNat 9 sym ∧ n.wt.toNat = wt
  | .node l r, i =>
    ∃ n, nodeAt tb i = .ok n ∧ n.isLeaf = false ∧ TreeAt tb l n.left ∧ TreeAt tb r n.right

/-- The first capacity of `c, c + 256, c + 512, ...` that is at least `d` (44_extractor.md R217). -/
def capacityFor (c d : Nat) : Nat := if d ≤ c then c else c + 256 * ((d - c + 255) / 256)

/-- The extractor's pushes fit: not (`c < d` and `c + 256 * ceil((d - c) / 256) > BB_MAX`)
(70_reset_and_hazards.md R268). -/
def PathFits (p : Params) (c d : Nat) : Prop := d ≤ c ∨ capacityFor c d ≤ p.bbMax.val

/-! ### The bits of a byte stream (20_memory.md R68) -/

/-- The whole bytes of a bit string, most significant bit first; bits after the last whole byte are not packed. -/
def packBytes : List Bit → List Byte
  | b0 :: b1 :: b2 :: b3 :: b4 :: b5 :: b6 :: b7 :: rest =>
    BitVec.ofBoolListBE [b0, b1, b2, b3, b4, b5, b6, b7] :: packBytes rest
  | _ => []

/-- The bits of the partial byte of a write stream (10_state.md R37). -/
def partialBits (b : BitStream) : List Bit := (List.range b.off.toNat).map fun o => b.byte.getLsbD (7 - o)

/-- What `BS_WRITE_BUF` has to write: the bits of the partial byte, then those of the buffer (41_bitstream.md R131,
R137). -/
def bitsToWrite (s : State) : List Bit := partialBits s.bs ++ (List.range s.bb.len.toNat).map (bitRead s.bb.bits)

/-- `BS_WRITE_BUF` writes everything (41_bitstream.md R137): the whole bytes are pushed, most significant bit first,
the rest stays in the partial byte, the result is the length of the buffer. -/
def WritesAll (s t : State) : Prop :=
  Ends .bsWriteBuf s .ok (s.bb.len.setWidth 64) t ∧
    t.io.outb = s.io.outb ++ packBytes (bitsToWrite s) ∧
    t.io.bsoPushes = s.io.bsoPushes + (bitsToWrite s).length / 8 ∧
    t.bs.off.toNat = (bitsToWrite s).length % 8 ∧
    partialBits t.bs = (bitsToWrite s).drop (8 * ((bitsToWrite s).length / 8)) ∧
    t.bs.isOpen = true ∧ t.bs.mode = .write ∧ t.bs.eos = s.bs.eos ∧
    t.bb = s.bb ∧ t.ft = s.ft ∧ t.tb = s.tb ∧ SameSrc s t ∧ SameBsi s t ∧ SameEmitted s t

/-- The push of byte number `j` of `BS_WRITE_BUF` fails (41_bitstream.md R131, R137; 70_reset_and_hazards.md R272): the
bytes before it are pushed, the byte is lost and stays in `BS.BYTE`, the stream stays open at offset 0, the result is
the number of bits of the buffer before the one that completed the byte. -/
def WriteFailsAt (j : Nat) (s t : State) : Prop :=
  8 * (j + 1) ≤ (bitsToWrite s).length ∧
    Ends .bsWriteBuf s .writeError (BitVec.ofNat 64 (8 * j + 7 - s.bs.off.toNat)) t ∧
    t.io.outb = s.io.outb ++ packBytes ((bitsToWrite s).take (8 * j)) ∧
    t.io.bsoPushes = s.io.bsoPushes + (j + 1) ∧
    t.bs.off = 0 ∧ [t.bs.byte] = packBytes (((bitsToWrite s).drop (8 * j)).take 8) ∧
    t.bs.isOpen = true ∧ t.bs.mode = .write ∧ t.bs.eos = s.bs.eos ∧
    t.bb = s.bb ∧ t.ft = s.ft ∧ t.tb = s.tb ∧ SameSrc s t ∧ SameBsi s t ∧ SameEmitted s t

/-- `BS_WRITE_BIT` of a bit. -/
def writeBitOf (b : Bit) : Instr := .bsWriteBit (if b then 1 else 0)

end Sys2Proof.Machine
end

