-- ==== Sys2Proof/Certificates/Slice0/Obligations.lean ====
section
/-! DEFINITION. The statements for the provers, from the numbered rules of spec/. -/

open Sys2Proof Sys2Proof.Machine

/-! ### The encoding (30_encoding.md) -/

/-- 30_encoding.md R94, R98: the words written out from the table decode to their commands, one word per command with
the operand fields filled. -/
def Obligations.SpecWordsDecode : Prop :=
  decode 0x10000000000007D0 = .ok (.bbCreate 2000) ∧
  decode 0x11000000FFFFFFFF = .ok (.bbAppend 0xFFFFFFFF) ∧
  decode 0x1200000000000000 = .ok .bbPop ∧
  decode 0x1300000100000004 = .ok (.bbRender 1 4) ∧
  decode 0x2000000000000000 = .ok .bsOpenR ∧
  decode 0x2100000000000000 = .ok .bsOpenW ∧
  decode 0x2200000000000000 = .ok .bsReadBit ∧
  decode 0x2300000000000005 = .ok (.bsWriteBit 5) ∧
  decode 0x2400000000000000 = .ok .bsWriteBuf ∧
  decode 0x2500000000000000 = .ok .bsAtEnd ∧
  decode 0x2600000000000000 = .ok .bsClose ∧
  decode 0x3000010000000000 = .ok (.ftCreate 256) ∧
  decode 0x3100000000000000 = .ok .ftScan ∧
  decode 0x3200004100000000 = .ok (.ftInc 0x41) ∧
  decode 0x3300004100000005 = .ok (.ftSet 0x41 5) ∧
  decode 0x3400000F00000000 = .ok (.ftGet 15) ∧
  decode 0x4000000000000000 = .ok .tbBuild ∧
  decode 0x4100000000000000 = .ok .tbExtract ∧
  decode 0x4200000A00000003 = .ok (.tbNode 10 3)

/-- 30_encoding.md R94, R98: decoding the word of a well-formed command gives the command back, every operand at every
value its field admits. -/
def Obligations.DecodeEncodeRoundTrip : Prop :=
  ∀ i : Instr, i.wellFormed = true → decode (encode i) = .ok i

/-- 30_encoding.md R100: a word that decodes is the word of the command it decodes to, and that command is
well-formed: no bit of the word is dropped. -/
def Obligations.DecodedWordIsItsEncoding : Prop :=
  ∀ (w : Word) (i : Instr), decode w = .ok i → encode i = w ∧ i.wellFormed = true

/-- 30_encoding.md R93, R95: an assigned opcode with a nonzero reserved field is refused under its mnemonic, and every
other opcode is refused whatever the operands are. -/
def Obligations.IllegalWordsRefused : Prop :=
  (∀ (w : Word) (r : OpRow), r ∈ opcodeMap → opField w = r.op → w &&& r.mask ≠ r.matchBits →
    decode w = .error (.reservedField r.mnemonic)) ∧
  (∀ w : Word,
    opField w ∉ ([0x10, 0x11, 0x12, 0x13, 0x20, 0x21, 0x22, 0x23, 0x24, 0x25, 0x26, 0x30, 0x31, 0x32, 0x33, 0x34, 0x40,
      0x41, 0x42] : List (BitVec 8)) → decode w = .error (.unassignedOpcode (opField w)))

/-- 30_encoding.md R100: every mask contains the opcode bits and every opcode appears in one row, so at most one row
matches a word. -/
def Obligations.AtMostOneRowMatches : Prop :=
  ∀ (w : Word) (r q : OpRow), r ∈ opcodeMap → q ∈ opcodeMap →
    w &&& r.mask = r.matchBits → w &&& q.mask = q.matchBits → r.op = q.op ∧ r.mnemonic = q.mnemonic

/-! ### The step -/

/-- When the host presents a word that decodes to `i` and no command is running, the step is `exec i` in the state with
that word taken from the port. -/
def Obligations.StepRunsDecodedCommand : Prop :=
  ∀ (s : State) (w : Word) (rest : List PortEvent) (i : Instr),
    s.io.port = .command w :: rest → s.busy = false → decode w = .ok i →
      step s = exec i { s with io := { s.io with port := rest } }

/-- 30_encoding.md R96: a word that is no command ends at once with code 10 and result 0; it changes `ERR`, `RES`,
`ESTICKY` and the response, and nothing else. -/
def Obligations.IllegalWordOnlyReports : Prop :=
  ∀ (s : State) (w : Word) (rest : List PortEvent) (e : DecodeError),
    s.io.port = .command w :: rest → s.busy = false → decode w = .error e →
      step s = .next { s with
        err := 10
        res := 0
        esticky := s.esticky ||| 0x0400
        io := { s.io with port := rest, responses := s.io.responses ++ [(10, 0)] } }

/-- 10_state.md R21: a word presented while a command is running is not accepted and has no effect. -/
def Obligations.BusyBlockIgnoresCommand : Prop :=
  ∀ (s : State) (w : Word) (rest : List PortEvent), s.io.port = .command w :: rest → s.busy = true →
    step s = .next { s with io := { s.io with port := rest } }

/-- 70_reset_and_hazards.md R260, 10_state.md R52: reset puts every flag, counter and register at its value, whatever
was running, and leaves no entry of FT, NM and WS a value; what was pulled, pushed or emitted stays so, and no response
is given. The parameters stay, and the port moves on by the reset. -/
def Obligations.ResetInputRestoresState : Prop :=
  ∀ (s : State) (rest : List PortEvent), s.io.port = .reset :: rest →
    ∃ t, step s = .next t ∧
      t.bb.valid = false ∧ t.bb.len = 0 ∧ t.bb.cap = 0 ∧ (∀ i, bitRead t.bb.bits i = false) ∧
      t.bs.isOpen = false ∧ t.bs.mode = .read ∧ t.bs.eos = false ∧ t.bs.off = 0 ∧ t.bs.byte = 0 ∧
      t.ft.valid = false ∧ t.ft.asize = 0 ∧ (∀ i, memRead t.ft.counts i = none) ∧
      t.tb.rootValid = false ∧ t.tb.root = 0x1FF ∧ t.tb.k = 0 ∧ t.tb.nalloc = 0 ∧
      (∀ i, memRead t.tb.nm i = none) ∧ (∀ i, memRead t.tb.ws i = none) ∧
      t.err = 0 ∧ t.res = 0 ∧ t.esticky = 0 ∧ t.ident = 0x48554601 ∧ t.busy = false ∧ t.params = s.params ∧
      SameChannels s t ∧ t.io.responses = s.io.responses ∧ t.io.port = rest

/-- 10_state.md R52: the state after reset. -/
def Obligations.ResetStateIsAsListed : Prop :=
  State.reset.bb.valid = false ∧ State.reset.bb.len = 0 ∧ State.reset.bb.cap = 0 ∧
  (∀ i, bitRead State.reset.bb.bits i = false) ∧
  State.reset.bs.isOpen = false ∧ State.reset.bs.mode = .read ∧ State.reset.bs.eos = false ∧
  State.reset.bs.off = 0 ∧ State.reset.bs.byte = 0 ∧
  State.reset.ft.valid = false ∧ State.reset.ft.asize = 0 ∧ (∀ i, memRead State.reset.ft.counts i = none) ∧
  State.reset.tb.rootValid = false ∧ State.reset.tb.root = 0x1FF ∧ State.reset.tb.k = 0 ∧ State.reset.tb.nalloc = 0 ∧
  (∀ i, memRead State.reset.tb.nm i = none) ∧ (∀ i, memRead State.reset.tb.ws i = none) ∧
  State.reset.err = 0 ∧ State.reset.res = 0 ∧ State.reset.esticky = 0 ∧ State.reset.ident = 0x48554601

/-- 60_exceptions.md R232: a command that gives a next state ends with a pair (code, result), written to `ERR`, `RES`,
`ESTICKY` and the response port; the one other next state is that of a command whose pull or push is never answered
(20_memory.md R83), which it makes only where the answer held for its channel is `never`. That such a command shows the
registers and arrays as they were is the model's reading (notes/assumptions/5.md, DEDUCED from 20_memory.md R67). -/
def Obligations.EveryCommandEndsOrWaits : Prop :=
  ∀ (i : Instr) (s t : State), exec i s = .next t → (∃ e r, Ends i s e r t) ∨ Hangs i s t

/-- 60_exceptions.md R231, R233: the number of each code, and a command ends with no other code than its row of the
matrix allows. -/
def Obligations.ErrorMatrixHolds : Prop :=
  (ErrCode.ok.code = 0 ∧ ErrCode.alloc.code = 1 ∧ ErrCode.invalidState.code = 2 ∧ ErrCode.invalidArg.code = 3 ∧
    ErrCode.endOfStream.code = 4 ∧ ErrCode.invalidOffset.code = 5 ∧ ErrCode.invalidBit.code = 6 ∧
    ErrCode.bufferTooSmall.code = 7 ∧ ErrCode.writeError.code = 8 ∧ ErrCode.overflow.code = 9 ∧
    ErrCode.illegalCmd.code = 10) ∧
  ∀ (i : Instr) (s t : State) (e : ErrCode) (r : Word), i.wellFormed = true → Ends i s e r t → e ∈ mayEndWith i

/-- The model's choice (notes/assumptions/9.md): a command whose `st` or `fsel` is no legal value is what its word is,
an illegal command. -/
def Obligations.IllFormedCommandIsIllegal : Prop :=
  ∀ (i : Instr) (s : State), i.wellFormed = false → FailsClean i s .illegalCmd

/-- 20_memory.md R83, 70_reset_and_hazards.md R273: a command whose pull or push is never answered, one of the five
that pull or push, never finishes: no response, the block stays busy. The answers before it and itself are consumed,
and what was pushed before it stays pushed (20_memory.md R80). That no register or array shows a change is the model's
reading (notes/assumptions/5.md, DEDUCED from 20_memory.md R67). -/
def Obligations.UnansweredChannelHangs : Prop :=
  (∀ (s : State) (rest : List PullAnswer), s.bs.isOpen = false → s.io.bsi = .never :: rest →
    ∃ t, Hangs .bsOpenR s t ∧ t.io.bsi = rest ∧ t.io.bsiPulls = s.io.bsiPulls + 1 ∧
      SameSrc s t ∧ SameBso s t ∧ SameEmitted s t) ∧
  (∀ (s : State) (rest : List PullAnswer), s.bs.isOpen = true → s.bs.mode = .read → s.bs.eos = false →
    s.bs.off = 7 → s.io.bsi = .never :: rest →
    ∃ t, Hangs .bsReadBit s t ∧ t.io.bsi = rest ∧ t.io.bsiPulls = s.io.bsiPulls + 1 ∧
      SameSrc s t ∧ SameBso s t ∧ SameEmitted s t) ∧
  (∀ (s : State) (b : Bit) (rest : List PushAnswer), s.bs.isOpen = true → s.bs.mode = .write → s.bs.off = 7 →
    s.io.bso = .never :: rest →
    ∃ t, Hangs (writeBitOf b) s t ∧ t.io.bso = rest ∧ t.io.bsoPushes = s.io.bsoPushes + 1 ∧
      t.io.outb = s.io.outb ∧ SameSrc s t ∧ SameBsi s t ∧ SameEmitted s t) ∧
  (∀ (s : State) (j : Nat) (rest : List PushAnswer), s.bs.isOpen = true → s.bs.mode = .write → s.bb.valid = true →
    8 * (j + 1) ≤ (bitsToWrite s).length → s.io.bso = List.replicate j .ok ++ .never :: rest →
    ∃ t, Hangs .bsWriteBuf s t ∧ t.io.bso = rest ∧ t.io.bsoPushes = s.io.bsoPushes + (j + 1) ∧
      t.io.outb = s.io.outb ++ packBytes ((bitsToWrite s).take (8 * j)) ∧
      SameSrc s t ∧ SameBsi s t ∧ SameEmitted s t) ∧
  (∀ (s : State) (bytes : List Byte) (rest : List PullAnswer), s.ft.valid = true → s.ft.Inv →
    (∀ i, i < s.ft.asize.val → (countOf s.ft i).toNat + bytes.countP (fun v => v.toNat == i) ≤ 4294967295) →
    s.io.src = bytes.map .data ++ .never :: rest →
    ∃ t, Hangs .ftScan s t ∧ t.io.src = rest ∧ t.io.srcPulls = s.io.srcPulls + bytes.length + 1 ∧
      SameBsi s t ∧ SameBso s t ∧ SameEmitted s t)

/-! ### Errors that change nothing -/

/-- 70_reset_and_hazards.md R262: a command issued too early ends with `E_INVALID_STATE` (`TB_NODE` with
`E_INVALID_ARG`) and changes nothing else; an extraction without a tree gives an empty result. -/
def Obligations.CommandTooEarlyFails : Prop :=
  ∀ s : State,
    (s.bb.valid = false → (∀ bit, FailsClean (.bbAppend bit) s .invalidState) ∧ FailsClean .bbPop s .invalidState ∧
      (∀ st n, st.toNat ≤ 1 → FailsClean (.bbRender st n) s .invalidState) ∧
      FailsClean .bsWriteBuf s .invalidState ∧ FailsClean .tbExtract s .invalidState) ∧
    (s.bb.valid = true → s.tb.rootValid = false →
      ∃ t, Ends .tbExtract s .ok 0 t ∧ t.bs = s.bs ∧ t.ft = s.ft ∧ t.tb = s.tb ∧ SameChannels s t) ∧
    (s.ft.valid = false → FailsClean .ftScan s .invalidState ∧ (∀ sym, FailsClean (.ftInc sym) s .invalidState) ∧
      (∀ sym c, FailsClean (.ftSet sym c) s .invalidState) ∧ (∀ sym, FailsClean (.ftGet sym) s .invalidState) ∧
      FailsClean .tbBuild s .invalidState) ∧
    (∀ idx fsel, fsel.toNat ≤ 3 → s.tb.nalloc.toNat ≤ idx.toNat → FailsClean (.tbNode idx fsel) s .invalidArg) ∧
    (s.bs.isOpen = false ∨ s.bs.mode = .write → FailsClean .bsReadBit s .invalidState) ∧
    (s.bs.isOpen = false ∨ s.bs.mode = .read → (∀ bit, FailsClean (.bsWriteBit bit) s .invalidState) ∧
      FailsClean .bsWriteBuf s .invalidState) ∧
    (s.bs.isOpen = false → FailsClean .bsAtEnd s .invalidState) ∧
    (s.bs.isOpen = true → FailsClean .bsOpenR s .invalidState ∧ FailsClean .bsOpenW s .invalidState)

/-- 60_exceptions.md R231, R234: the operand checks, made when the object exists: a bit operand above 1, a symbol at or
above `FT.ASIZE`, a capacity or size larger than the storage, a render buffer smaller than needed, a read at the end of
the stream, an append to a full buffer that cannot grow, an increment of the largest count. Nothing else changes. -/
def Obligations.BadOperandFails : Prop :=
  ∀ s : State,
    (s.bb.valid = true → ∀ bit, 1 < bit.toNat → FailsClean (.bbAppend bit) s .invalidBit) ∧
    (s.bs.isOpen = true → s.bs.mode = .write → ∀ bit, 1 < bit.toNat → FailsClean (.bsWriteBit bit) s .invalidBit) ∧
    (s.ft.valid = true → ∀ sym, s.ft.asize.val ≤ sym.toNat → FailsClean (.ftInc sym) s .invalidArg ∧
      (∀ c, FailsClean (.ftSet sym c) s .invalidArg) ∧ FailsClean (.ftGet sym) s .invalidArg) ∧
    (∀ cap, s.params.bbMax.val < cap.toNat → FailsClean (.bbCreate cap) s .alloc) ∧
    (∀ size, 256 < size.toNat → FailsClean (.ftCreate size) s .alloc) ∧
    (s.bb.valid = true → ∀ n, n.toNat < s.bb.len.toNat + 1 → FailsClean (.bbRender 1 n) s .bufferTooSmall) ∧
    (s.bs.isOpen = true → s.bs.mode = .read → s.bs.eos = true → FailsClean .bsReadBit s .endOfStream) ∧
    (s.bb.valid = true → s.bb.len = s.bb.cap → s.params.bbMax.val < s.bb.cap.toNat + 256 →
      ∀ bit, bit.toNat ≤ 1 → FailsClean (.bbAppend bit) s .alloc) ∧
    (s.ft.valid = true → ∀ sym, sym.toNat < s.ft.asize.val → memRead s.ft.counts sym.toNat = some 0xFFFFFFFF →
      FailsClean (.ftInc sym) s .overflow)

/-! ### The bit buffer (40_bitbuffer.md) -/

/-- 40_bitbuffer.md R112: the encoding; a create above `BB_MAX` fails with `E_ALLOC`; a create within it gives a fresh
empty buffer of that capacity with every slot 0. -/
def Obligations.BbCreateMakesFreshBuffer : Prop :=
  ∀ (s : State) (cap : BitVec 32),
    decode (0x10#8 ++ 0#24 ++ cap) = .ok (.bbCreate cap) ∧
    (s.params.bbMax.val < cap.toNat → FailsClean (.bbCreate cap) s .alloc) ∧
    (cap.toNat ≤ s.params.bbMax.val →
    ∃ t, Ends (.bbCreate cap) s .ok 0 t ∧ t.bb.valid = true ∧ t.bb.len = 0 ∧ t.bb.cap.toNat = cap.toNat ∧
      (∀ i, bitRead t.bb.bits i = if i < s.params.bbMax.val then false else bitRead s.bb.bits i) ∧
      t.bs = s.bs ∧ t.ft = s.ft ∧ t.tb = s.tb ∧ SameChannels s t)

/-- 40_bitbuffer.md R113: the encoding, the three errors, each changing nothing, and: an append that has room, or can
grow by exactly 256, stores the bit at the tail and answers the new length; every other slot keeps its bit. -/
def Obligations.BbAppendStoresAtTail : Prop :=
  ∀ (s : State) (b : Bit),
    (∀ bit, decode (0x11#8 ++ 0#24 ++ bit) = .ok (.bbAppend bit)) ∧
    (s.bb.valid = false → ∀ bit, FailsClean (.bbAppend bit) s .invalidState) ∧
    (s.bb.valid = true → ∀ bit, 1 < bit.toNat → FailsClean (.bbAppend bit) s .invalidBit) ∧
    (s.bb.valid = true → s.bb.len = s.bb.cap → s.params.bbMax.val < s.bb.cap.toNat + 256 →
      FailsClean (.bbAppend (if b then 1 else 0)) s .alloc) ∧
    (s.bb.valid = true → (s.bb.len ≠ s.bb.cap ∨ s.bb.cap.toNat + 256 ≤ s.params.bbMax.val) →
    ∃ t, Ends (.bbAppend (if b then 1 else 0)) s .ok (t.bb.len.setWidth 64) t ∧
      t.bb.valid = true ∧ t.bb.len = s.bb.len + 1 ∧
      t.bb.cap.toNat = (if s.bb.len = s.bb.cap then s.bb.cap.toNat + 256 else s.bb.cap.toNat) ∧
      (∀ i, bitRead t.bb.bits i = if i = s.bb.len.toNat then b else bitRead s.bb.bits i) ∧
      t.bs = s.bs ∧ t.ft = s.ft ∧ t.tb = s.tb ∧ SameChannels s t)

/-- 40_bitbuffer.md R114: the encoding, the error, and: a pop lowers the length by one and clears the vacated slot; a
pop of an empty buffer succeeds and changes nothing. The capacity never changes. -/
def Obligations.BbPopRemovesTail : Prop :=
  ∀ s : State,
    decode (0x12#8 ++ 0#24 ++ 0#32) = .ok .bbPop ∧
    (s.bb.valid = false → FailsClean .bbPop s .invalidState) ∧
    (s.bb.valid = true →
    ∃ t, Ends .bbPop s .ok (t.bb.len.setWidth 64) t ∧ t.bb.valid = true ∧ t.bb.cap = s.bb.cap ∧
      t.bb.len.toNat = s.bb.len.toNat - 1 ∧
      (∀ i, bitRead t.bb.bits i =
        if 0 < s.bb.len.toNat ∧ i = s.bb.len.toNat - 1 then false else bitRead s.bb.bits i) ∧
      (s.bb.len = 0 → t.bb = s.bb) ∧ t.bs = s.bs ∧ t.ft = s.ft ∧ t.tb = s.tb ∧ SameChannels s t)

/-- 40_bitbuffer.md R115: the encoding, the two errors, and: a render answers `BB.LEN + 1`; without storage nothing is
emitted, with storage of at least that size the characters 0x30 or 0x31 of the bits in order and the terminator 0x00
are. The buffer is not changed. -/
def Obligations.BbRenderEmitsString : Prop :=
  ∀ (s : State) (n : BitVec 32),
    (∀ st : BitVec 24, st.toNat ≤ 1 → decode (0x13#8 ++ st ++ n) = .ok (.bbRender st n) ∧
      (s.bb.valid = false → FailsClean (.bbRender st n) s .invalidState)) ∧
    (s.bb.valid = true → n.toNat < s.bb.len.toNat + 1 → FailsClean (.bbRender 1 n) s .bufferTooSmall) ∧
    (s.bb.valid = true →
      ∃ t, Ends (.bbRender 0 n) s .ok (BitVec.ofNat 64 (s.bb.len.toNat + 1)) t ∧ SameUnits s t ∧ SameChannels s t) ∧
    (s.bb.valid = true → s.bb.len.toNat + 1 ≤ n.toNat →
      ∃ t, Ends (.bbRender 1 n) s .ok (BitVec.ofNat 64 (s.bb.len.toNat + 1)) t ∧ SameUnits s t ∧
        t.io.renderOut = s.io.renderOut ++
          ((List.range s.bb.len.toNat).map fun i => if bitRead s.bb.bits i then 0x31 else 0x30) ++ [0x00] ∧
        t.io.codeOut = s.io.codeOut ∧ SameSrc s t ∧ SameBsi s t ∧ SameBso s t)

/-- 40_bitbuffer.md R117: from an empty buffer that has room, appending bits and rendering emits their characters in
order and the terminator; popping as often empties the buffer again with every slot 0. -/
def Obligations.AppendedBitsRenderInOrder : Prop :=
  ∀ (s : State) (bits : List Bit), s.bb.valid = true → s.bb.Inv s.params → s.bb.len = 0 →
    PathFits s.params s.bb.cap.toNat bits.length →
    (∃ t, execAll (bits.map (fun b => Instr.bbAppend (if b then 1 else 0)) ++
        [.bbRender 1 (BitVec.ofNat 32 (bits.length + 1))]) s = .next t ∧ t.err = 0 ∧
      t.io.renderOut = s.io.renderOut ++ bits.map (fun b => if b then 0x31 else 0x30) ++ [0x00]) ∧
    (∃ t, execAll (bits.map (fun b => Instr.bbAppend (if b then 1 else 0)) ++ List.replicate bits.length .bbPop) s =
        .next t ∧ t.bb.valid = true ∧ t.bb.len = 0 ∧
      ∀ i, bitRead t.bb.bits i = false)

/-- 10_state.md R24 (a), (c): every step keeps the bit buffer's invariant. -/
def Obligations.BitBufferInvariantKept : Prop :=
  ∀ s t : State, s.bb.Inv s.params → step s = .next t → t.bb.Inv t.params

/-- 40_bitbuffer.md R116: but for a create the capacity only ever rises, by multiples of 256, within `BB_MAX`. -/
def Obligations.CapacityGrowsBySteps : Prop :=
  ∀ (i : Instr) (s t : State), (∀ cap, i ≠ .bbCreate cap) → s.bb.Inv s.params → exec i s = .next t →
    ∃ g, t.bb.cap.toNat = s.bb.cap.toNat + 256 * g ∧ t.bb.cap.toNat ≤ s.params.bbMax.val

/-! ### The bit stream (41_bitstream.md) -/

/-- 41_bitstream.md R132: the encoding, the error, and: an open for read primes the first byte with exactly one pull,
or is at its end at once. The last clause: where the state holds no answer, the answer is some value. -/
def Obligations.OpenReadPrimesFirstByte : Prop :=
  ∀ s : State,
    decode (0x20#8 ++ 0#24 ++ 0#32) = .ok .bsOpenR ∧
    (s.bs.isOpen = true → FailsClean .bsOpenR s .invalidState) ∧
    (s.bs.isOpen = false →
    (∀ v rest, s.io.bsi = .data v :: rest →
      ∃ t, Ends .bsOpenR s .ok 0 t ∧ t.bs = { isOpen := true, mode := .read, eos := false, off := 0, byte := v } ∧
        t.io.bsi = rest ∧ t.io.bsiPulls = s.io.bsiPulls + 1 ∧
        t.bb = s.bb ∧ t.ft = s.ft ∧ t.tb = s.tb ∧ SameSrc s t ∧ SameBso s t ∧ SameEmitted s t) ∧
    (∀ rest, s.io.bsi = .noMore :: rest →
      ∃ t, Ends .bsOpenR s .ok 0 t ∧ t.bs = { isOpen := true, mode := .read, eos := true, off := 0, byte := 0 } ∧
        t.io.bsi = rest ∧ t.io.bsiPulls = s.io.bsiPulls + 1 ∧
        t.bb = s.bb ∧ t.ft = s.ft ∧ t.tb = s.tb ∧ SameSrc s t ∧ SameBso s t ∧ SameEmitted s t) ∧
    (s.io.bsi = [] →
      ∃ t, Ends .bsOpenR s .ok 0 t ∧ t.bs.isOpen = true ∧ t.bs.mode = .read ∧ t.bs.off = 0 ∧
        (t.bs.eos = true → t.bs.byte = 0) ∧ t.io.bsi = [] ∧ t.io.bsiPulls = s.io.bsiPulls + 1 ∧
        t.bb = s.bb ∧ t.ft = s.ft ∧ t.tb = s.tb ∧ SameSrc s t ∧ SameBso s t ∧ SameEmitted s t))

/-- 41_bitstream.md R133: the encoding, the error, and: an open for write starts with an empty byte; nothing is pushed
or pulled. -/
def Obligations.OpenWriteStartsEmptyByte : Prop :=
  ∀ s : State,
    decode (0x21#8 ++ 0#24 ++ 0#32) = .ok .bsOpenW ∧
    (s.bs.isOpen = true → FailsClean .bsOpenW s .invalidState) ∧
    (s.bs.isOpen = false →
    ∃ t, Ends .bsOpenW s .ok 0 t ∧ t.bs = { isOpen := true, mode := .write, eos := false, off := 0, byte := 0 } ∧
      t.bb = s.bb ∧ t.ft = s.ft ∧ t.tb = s.tb ∧ SameChannels s t)

/-- 41_bitstream.md R134: the encoding, the two errors, and: a read answers the bit at the offset, most significant
bit first, and advances the offset; with the eighth bit the next byte is pulled, or the end of the stream is set and
the byte kept. -/
def Obligations.ReadBitReturnsStreamBit : Prop :=
  ∀ s : State,
    decode (0x22#8 ++ 0#24 ++ 0#32) = .ok .bsReadBit ∧
    (s.bs.isOpen = false ∨ s.bs.mode = .write → FailsClean .bsReadBit s .invalidState) ∧
    (s.bs.isOpen = true → s.bs.mode = .read → s.bs.eos = true → FailsClean .bsReadBit s .endOfStream) ∧
    (s.bs.isOpen = true → s.bs.mode = .read → s.bs.eos = false →
    (s.bs.off.toNat < 7 →
      ∃ t, Ends .bsReadBit s .ok (if s.bs.byte.getLsbD (7 - s.bs.off.toNat) then 1 else 0) t ∧
        t.bs = { s.bs with off := s.bs.off + 1 } ∧
        t.bb = s.bb ∧ t.ft = s.ft ∧ t.tb = s.tb ∧ SameChannels s t) ∧
    (s.bs.off = 7 → ∀ v rest, s.io.bsi = .data v :: rest →
      ∃ t, Ends .bsReadBit s .ok (if s.bs.byte.getLsbD 0 then 1 else 0) t ∧
        t.bs = { s.bs with off := 0, byte := v } ∧ t.io.bsi = rest ∧ t.io.bsiPulls = s.io.bsiPulls + 1 ∧
        t.bb = s.bb ∧ t.ft = s.ft ∧ t.tb = s.tb ∧ SameSrc s t ∧ SameBso s t ∧ SameEmitted s t) ∧
    (s.bs.off = 7 → ∀ rest, s.io.bsi = .noMore :: rest →
      ∃ t, Ends .bsReadBit s .ok (if s.bs.byte.getLsbD 0 then 1 else 0) t ∧
        t.bs = { s.bs with off := 0, eos := true } ∧ t.io.bsi = rest ∧ t.io.bsiPulls = s.io.bsiPulls + 1 ∧
        t.bb = s.bb ∧ t.ft = s.ft ∧ t.tb = s.tb ∧ SameSrc s t ∧ SameBso s t ∧ SameEmitted s t) ∧
    (s.bs.off = 7 → s.io.bsi = [] →
      ∃ t, Ends .bsReadBit s .ok (if s.bs.byte.getLsbD 0 then 1 else 0) t ∧
        t.bs.isOpen = true ∧ t.bs.mode = .read ∧ t.bs.off = 0 ∧ (t.bs.eos = true → t.bs.byte = s.bs.byte) ∧
        t.io.bsi = [] ∧ t.io.bsiPulls = s.io.bsiPulls + 1 ∧
        t.bb = s.bb ∧ t.ft = s.ft ∧ t.tb = s.tb ∧ SameSrc s t ∧ SameBso s t ∧ SameEmitted s t))

/-- 41_bitstream.md R131, R136: the encoding, the errors, and: a write sets or clears the one position of the offset
and keeps the other seven; the eighth pushes the byte, and the offset is 0 after it whether the push is taken or
fails. -/
def Obligations.WriteBitSetsOnePosition : Prop :=
  ∀ (s : State) (b : Bit),
    (∀ bit, decode (0x23#8 ++ 0#24 ++ bit) = .ok (.bsWriteBit bit)) ∧
    (s.bs.isOpen = false ∨ s.bs.mode = .read → ∀ bit, FailsClean (.bsWriteBit bit) s .invalidState) ∧
    (s.bs.isOpen = true → s.bs.mode = .write → ∀ bit, 1 < bit.toNat → FailsClean (.bsWriteBit bit) s .invalidBit) ∧
    (s.bs.isOpen = true → s.bs.mode = .write →
    (s.bs.off.toNat < 7 →
      ∃ t, Ends (writeBitOf b) s .ok 0 t ∧ t.bs.off = s.bs.off + 1 ∧
        (∀ i, i < 8 → t.bs.byte.getLsbD i = if i = 7 - s.bs.off.toNat then b else s.bs.byte.getLsbD i) ∧
        t.bs.isOpen = true ∧ t.bs.mode = .write ∧ t.bs.eos = s.bs.eos ∧
        t.bb = s.bb ∧ t.ft = s.ft ∧ t.tb = s.tb ∧ SameChannels s t) ∧
    (s.bs.off = 7 → ∀ rest, s.io.bso = .ok :: rest →
      ∃ t, Ends (writeBitOf b) s .ok 0 t ∧ t.bs.off = 0 ∧
        (∀ i, i < 8 → t.bs.byte.getLsbD i = if i = 0 then b else s.bs.byte.getLsbD i) ∧
        t.bs.isOpen = true ∧ t.bs.mode = .write ∧ t.bs.eos = s.bs.eos ∧
        t.io.outb = s.io.outb ++ [t.bs.byte] ∧ t.io.bso = rest ∧ t.io.bsoPushes = s.io.bsoPushes + 1 ∧
        t.bb = s.bb ∧ t.ft = s.ft ∧ t.tb = s.tb ∧ SameSrc s t ∧ SameBsi s t ∧ SameEmitted s t) ∧
    (s.bs.off = 7 → ∀ rest, s.io.bso = .fail :: rest →
      ∃ t, Ends (writeBitOf b) s .writeError 0 t ∧ t.bs.off = 0 ∧
        (∀ i, i < 8 → t.bs.byte.getLsbD i = if i = 0 then b else s.bs.byte.getLsbD i) ∧
        t.bs.isOpen = true ∧ t.bs.mode = .write ∧ t.bs.eos = s.bs.eos ∧
        t.io.outb = s.io.outb ∧ t.io.bso = rest ∧ t.io.bsoPushes = s.io.bsoPushes + 1 ∧
        t.bb = s.bb ∧ t.ft = s.ft ∧ t.tb = s.tb ∧ SameSrc s t ∧ SameBsi s t ∧ SameEmitted s t) ∧
    (s.bs.off = 7 → s.io.bso = [] →
      ∃ t e, Ends (writeBitOf b) s e 0 t ∧ t.bs.off = 0 ∧
        (∀ i, i < 8 → t.bs.byte.getLsbD i = if i = 0 then b else s.bs.byte.getLsbD i) ∧
        t.bs.isOpen = true ∧ t.bs.mode = .write ∧ t.bs.eos = s.bs.eos ∧
        ((e = .ok ∧ t.io.outb = s.io.outb ++ [t.bs.byte]) ∨ (e = .writeError ∧ t.io.outb = s.io.outb)) ∧
        t.io.bso = [] ∧ t.io.bsoPushes = s.io.bsoPushes + 1 ∧
        t.bb = s.bb ∧ t.ft = s.ft ∧ t.tb = s.tb ∧ SameSrc s t ∧ SameBsi s t ∧ SameEmitted s t))

/-- 41_bitstream.md R131, R137: a write of the buffer whose pushes are taken puts its bits after those the partial byte
already holds, pushes the whole bytes, most significant bit first, leaves the rest in the partial byte and answers the
number of bits of the buffer, which is not changed. The last clause: where the state holds answers for the first `k`
pushes only, or for none, every push after them is taken or the first one that fails ends the command. -/
def Obligations.WriteBufferPacksBits : Prop :=
  ∀ s : State, s.bs.isOpen = true → s.bs.mode = .write → s.bb.valid = true →
    (∀ rest, s.io.bso = List.replicate ((bitsToWrite s).length / 8) .ok ++ rest →
      ∃ t, WritesAll s t ∧ t.io.bso = rest) ∧
    (∀ k, k ≤ (bitsToWrite s).length / 8 → s.io.bso = List.replicate k .ok →
      ∃ t, (WritesAll s t ∨ ∃ j, k ≤ j ∧ WriteFailsAt j s t) ∧ t.io.bso = [])

/-- 41_bitstream.md R131, R137, 70_reset_and_hazards.md R272: the first push that fails ends the command with the
number of bits written before the one that completed the byte; the bits after it are not written, the lost byte stays
in `BS.BYTE`, and the stream stays open at offset 0. -/
def Obligations.WriteBufferStopsAtFirstFailure : Prop :=
  ∀ (s : State) (j : Nat) (rest : List PushAnswer), s.bs.isOpen = true → s.bs.mode = .write → s.bb.valid = true →
    8 * (j + 1) ≤ (bitsToWrite s).length → s.io.bso = List.replicate j .ok ++ .fail :: rest →
    ∃ t, WriteFailsAt j s t ∧ t.io.bso = rest

/-- 41_bitstream.md R138: the encoding, the error, and: at-end is 0 for a write-mode stream and `BS.EOS` for a
read-mode stream; nothing else changes. -/
def Obligations.AtEndAnswersEndOfStream : Prop :=
  ∀ s : State,
    decode (0x25#8 ++ 0#24 ++ 0#32) = .ok .bsAtEnd ∧
    (s.bs.isOpen = false → FailsClean .bsAtEnd s .invalidState) ∧
    (s.bs.isOpen = true →
    ∃ t, Ends .bsAtEnd s .ok (if s.bs.mode = .read ∧ s.bs.eos = true then 1 else 0) t ∧
      SameUnits s t ∧ SameChannels s t)

/-- 41_bitstream.md R139: the encoding, and: a close clears every field of an open stream and pushes nothing; with no
open stream it succeeds and changes nothing. -/
def Obligations.CloseClearsStream : Prop :=
  ∀ s : State, decode (0x26#8 ++ 0#24 ++ 0#32) = .ok .bsClose ∧ ∃ t, Ends .bsClose s .ok 0 t ∧
    (s.bs.isOpen = true → t.bs = { isOpen := false, mode := .read, eos := false, off := 0, byte := 0 }) ∧
    (s.bs.isOpen = false → t.bs = s.bs) ∧ t.bb = s.bb ∧ t.ft = s.ft ∧ t.tb = s.tb ∧ SameChannels s t

/-- 41_bitstream.md R140: bits written to a fresh write stream whose pushes are taken come out as the whole bytes
among them; those bytes followed by the end of the file, read through a fresh read stream, give the bits of the whole
bytes in the same order, and the last read sets the end of the stream. With a multiple of 8 bits these are all. R140 is
the spec's own derivation. -/
def Obligations.BitStreamRoundTrip : Prop :=
  ∀ (s u : State) (bits : List Bit) (more : List PushAnswer) (rest : List PullAnswer),
    s.bs.isOpen = false → s.io.bso = List.replicate (bits.length / 8) .ok ++ more → u.bs.isOpen = false →
    ∃ t bytes, execAll (.bsOpenW :: bits.map writeBitOf ++ [.bsClose]) s = .next t ∧
      t.io.outb = s.io.outb ++ bytes ∧ bytes.length = bits.length / 8 ∧
      (u.io.bsi = bytes.map .data ++ .noMore :: rest →
        ∃ v, execAll (.bsOpenR :: List.replicate (8 * (bits.length / 8)) .bsReadBit) u = .next v ∧
          v.io.responses = u.io.responses ++
            (0, 0) :: (bits.take (8 * (bits.length / 8))).map (fun b => (0, if b then 1 else 0)) ∧
          v.bs.eos = true ∧ v.io.bsiPulls = u.io.bsiPulls + bits.length / 8 + 1)

/-- 10_state.md R26 (b), (c), the spec's own derivations: every step keeps the invariant of the stream. -/
def Obligations.BitStreamInvariantKept : Prop :=
  ∀ s t : State, s.bs.Inv → step s = .next t → t.bs.Inv

/-! ### The frequency table (42_freqtable.md) -/

/-- 42_freqtable.md R162: the encoding, the error, and: a create of at most 256 entries makes every entry below the
size 0 and writes no other. -/
def Obligations.FtCreateZeroesEntries : Prop :=
  ∀ (s : State) (size : BitVec 24),
    decode (0x30#8 ++ size ++ 0#32) = .ok (.ftCreate size) ∧
    (256 < size.toNat → FailsClean (.ftCreate size) s .alloc) ∧
    (size.toNat ≤ 256 →
    ∃ t, Ends (.ftCreate size) s .ok 0 t ∧ t.ft.valid = true ∧ t.ft.asize.val = size.toNat ∧
      (∀ i, memRead t.ft.counts i = if i < size.toNat then some 0 else memRead s.ft.counts i) ∧
      t.bb = s.bb ∧ t.bs = s.bs ∧ t.tb = s.tb ∧ SameChannels s t)

/-- 42_freqtable.md R161, R164: the encoding, the three errors, and: an increment of a count below 2^32 - 1 adds
exactly 1 and answers the new count; no other entry changes. -/
def Obligations.FtIncAddsOne : Prop :=
  ∀ (s : State) (sym : BitVec 24) (c : Count),
    decode (0x32#8 ++ sym ++ 0#32) = .ok (.ftInc sym) ∧
    (s.ft.valid = false → FailsClean (.ftInc sym) s .invalidState) ∧
    (s.ft.valid = true → s.ft.asize.val ≤ sym.toNat → FailsClean (.ftInc sym) s .invalidArg) ∧
    (s.ft.valid = true → sym.toNat < s.ft.asize.val → memRead s.ft.counts sym.toNat = some c → c.toNat = 4294967295 →
      FailsClean (.ftInc sym) s .overflow) ∧
    (s.ft.valid = true → sym.toNat < s.ft.asize.val → memRead s.ft.counts sym.toNat = some c → c.toNat < 4294967295 →
    ∃ t, Ends (.ftInc sym) s .ok (BitVec.ofNat 64 (c.toNat + 1)) t ∧ t.ft.valid = true ∧ t.ft.asize = s.ft.asize ∧
      (∀ i, memRead t.ft.counts i = if i = sym.toNat then some (BitVec.ofNat 32 (c.toNat + 1))
        else memRead s.ft.counts i) ∧
      t.bb = s.bb ∧ t.bs = s.bs ∧ t.tb = s.tb ∧ SameChannels s t)

/-- 42_freqtable.md R165: the encoding, the two errors, and: a set writes the count and answers it; no other entry
changes. -/
def Obligations.FtSetWritesCount : Prop :=
  ∀ (s : State) (sym : BitVec 24) (c : Count),
    decode (0x33#8 ++ sym ++ c) = .ok (.ftSet sym c) ∧
    (s.ft.valid = false → FailsClean (.ftSet sym c) s .invalidState) ∧
    (s.ft.valid = true → s.ft.asize.val ≤ sym.toNat → FailsClean (.ftSet sym c) s .invalidArg) ∧
    (s.ft.valid = true → sym.toNat < s.ft.asize.val →
    ∃ t, Ends (.ftSet sym c) s .ok (c.setWidth 64) t ∧ t.ft.valid = true ∧ t.ft.asize = s.ft.asize ∧
      (∀ i, memRead t.ft.counts i = if i = sym.toNat then some c else memRead s.ft.counts i) ∧
      t.bb = s.bb ∧ t.bs = s.bs ∧ t.tb = s.tb ∧ SameChannels s t)

/-- 42_freqtable.md R166: the encoding, the two errors, and: a get answers the count and changes nothing. -/
def Obligations.FtGetAnswersCount : Prop :=
  ∀ (s : State) (sym : BitVec 24) (c : Count),
    decode (0x34#8 ++ sym ++ 0#32) = .ok (.ftGet sym) ∧
    (s.ft.valid = false → FailsClean (.ftGet sym) s .invalidState) ∧
    (s.ft.valid = true → s.ft.asize.val ≤ sym.toNat → FailsClean (.ftGet sym) s .invalidArg) ∧
    (s.ft.valid = true → sym.toNat < s.ft.asize.val → memRead s.ft.counts sym.toNat = some c →
    ∃ t, Ends (.ftGet sym) s .ok (c.setWidth 64) t ∧ SameUnits s t ∧ SameChannels s t)

/-- 42_freqtable.md R163: a scan of bytes that no count overflows on adds to each entry the number of times its symbol
occurred, skips the bytes at or above `FT.ASIZE`, answers the number of bytes and stops at "no more data". The last
clause: past the answers the state holds, SRC delivers some bytes more (notes/assumptions/4.md), and the scan counts
them too, or stops at the first one whose count is already 2^32 - 1. -/
def Obligations.FtScanCountsOccurrences : Prop :=
  ∀ (s : State) (bytes : List Byte), s.ft.valid = true → s.ft.Inv →
    (∀ i, i < s.ft.asize.val → (countOf s.ft i).toNat + bytes.countP (fun v => v.toNat == i) ≤ 4294967295) →
    (∀ rest, s.io.src = bytes.map .data ++ .noMore :: rest →
      ∃ t, Ends .ftScan s .ok (BitVec.ofNat 64 bytes.length) t ∧ Counted bytes s.ft t.ft ∧
        t.io.src = rest ∧ t.io.srcPulls = s.io.srcPulls + bytes.length + 1 ∧
        t.bb = s.bb ∧ t.bs = s.bs ∧ t.tb = s.tb ∧ SameBsi s t ∧ SameBso s t ∧ SameEmitted s t) ∧
    (s.io.src = bytes.map .data →
      ∃ t more, (Ends .ftScan s .ok (BitVec.ofNat 64 (bytes ++ more).length) t ∨
          ∃ v : Byte, v.toNat < s.ft.asize.val ∧ countOf t.ft v.toNat = 0xFFFFFFFF ∧
            Ends .ftScan s .overflow (BitVec.ofNat 64 ((bytes ++ more).length + 1)) t) ∧
        Counted (bytes ++ more) s.ft t.ft ∧
        t.io.src = [] ∧ t.io.srcPulls = s.io.srcPulls + (bytes ++ more).length + 1 ∧
        t.bb = s.bb ∧ t.bs = s.bs ∧ t.tb = s.tb ∧ SameBsi s t ∧ SameBso s t ∧ SameEmitted s t)

/-- 42_freqtable.md R163: the byte whose count is already 2^32 - 1 is consumed, its count is unchanged, and the scan
stops there with the number of bytes consumed. -/
def Obligations.FtScanStopsAtOverflow : Prop :=
  ∀ (s : State) (bytes : List Byte) (v : Byte) (rest : List PullAnswer), s.ft.valid = true → s.ft.Inv →
    (∀ i, i < s.ft.asize.val → (countOf s.ft i).toNat + bytes.countP (fun v => v.toNat == i) ≤ 4294967295) →
    v.toNat < s.ft.asize.val →
    (countOf s.ft v.toNat).toNat + bytes.countP (fun x => x.toNat == v.toNat) = 4294967295 →
    s.io.src = bytes.map .data ++ .data v :: rest →
    ∃ t, Ends .ftScan s .overflow (BitVec.ofNat 64 (bytes.length + 1)) t ∧ Counted bytes s.ft t.ft ∧
      t.io.src = rest ∧ t.io.srcPulls = s.io.srcPulls + bytes.length + 1 ∧
      t.bb = s.bb ∧ t.bs = s.bs ∧ t.tb = s.tb ∧ SameBsi s t ∧ SameBso s t ∧ SameEmitted s t

/-- 10_state.md R27, R52: every step keeps "every entry of the table has a value". -/
def Obligations.FreqTableInvariantKept : Prop :=
  ∀ s t : State, s.ft.Inv → step s = .next t → t.ft.Inv

/-! ### The tree builder (43_treebuilder.md) -/

/-- 43_treebuilder.md R182: the heavier node stands nearer index 0; at equal weight an internal node before a leaf, and
at equal kind the larger signed symbol. The comparator is a strict order whose only unordered pairs have equal weight
and equal symbol field, which two leaves of different symbols never have. With `sense` false the tie-break points the
other way, the model's reading (notes/assumptions/7.md, DEDUCED). -/
def Obligations.ComparatorIsStrictOrder : Prop :=
  ∀ (sense : Bool) (x y z : Node),
    (before sense x y = true ↔ y.wt.toNat < x.wt.toNat ∨
      (x.wt.toNat = y.wt.toNat ∧ if sense then TieFirst x y else TieFirst y x)) ∧
    (before sense x y = true → before sense y x = false) ∧
    (before sense x y = true → before sense y z = true → before sense x z = true) ∧
    (before sense x y = false ∧ before sense y x = false ↔ x.wt = y.wt ∧ x.sym = y.sym)

/-- 43_treebuilder.md R183 to R185: the sorted window is a permutation of its former contents in which no entry nearer
the tail sorts before one nearer index 0, and entries the comparator does not order keep their relative order. (A
window is listed from its tail to index 0.) R185 is the spec's own derivation; the comparator with `sense` false is the
model's reading (notes/assumptions/7.md, DEDUCED). TbBuildMakesTree says what a build takes from the window. -/
def Obligations.SortWindowIsStableSort : Prop :=
  ∀ (sense : Bool) (w : List Entry),
    (sortWindow sense w).Perm w ∧
    (sortWindow sense w).Pairwise (fun a b => before sense a.node b.node = false) ∧
    ∀ x : Node,
      (sortWindow sense w).filter (fun e => !before sense e.node x && !before sense x e.node) =
        w.filter (fun e => !before sense e.node x && !before sense x e.node)

/-- 43_treebuilder.md R186 to R190, R194: a build whose arena suffices makes the leaves in ascending symbol order, then
the internal nodes, each with the exact sum of its children's weights, over the last two entries of the sorted window:
no other candidate stands after the two children, and the right child stands after the left one: these are the two
lightest, the right child the lighter one. The root is the last node. With no symbol of nonzero count there is no root and no node. The table is not changed. For a machine with
`TIE_ARRAY_SENSE` false the tie-break is the model's reading (notes/assumptions/7.md, DEDUCED). -/
def Obligations.TbBuildMakesTree : Prop :=
  ∀ s : State, s.ft.valid = true → s.ft.Inv →
    2 * (activeSymbols s.ft).length ≤ s.params.nodeCap.val + 1 →
    ∃ t, Ends .tbBuild s .ok (BitVec.ofNat 64 (activeSymbols s.ft).length) t ∧
      t.tb.k.toNat = (activeSymbols s.ft).length ∧
      t.tb.nalloc.toNat = 2 * (activeSymbols s.ft).length - 1 ∧
      (activeSymbols s.ft = [] → t.tb.rootValid = false ∧ t.tb.root = 0x1FF) ∧
      (activeSymbols s.ft ≠ [] → t.tb.rootValid = true ∧ t.tb.root.toNat = 2 * (activeSymbols s.ft).length - 2) ∧
      (∀ j sym, (activeSymbols s.ft)[j]? = some sym →
        memRead t.tb.nm j = some { sym := BitVec.ofNat 9 sym, wt := (countOf s.ft sym).setWidth 40, left := 0x1FF,
                                   right := 0x1FF }) ∧
      (∀ j, (activeSymbols s.ft).length ≤ j → j < t.tb.nalloc.toNat →
        ∃ n l r, memRead t.tb.nm j = some n ∧ n.sym = 0x1FF ∧ n.left.toNat < j ∧ n.right.toNat < j ∧
          memRead t.tb.nm n.left.toNat = some l ∧ memRead t.tb.nm n.right.toNat = some r ∧
          n.wt.toNat = l.wt.toNat + r.wt.toNat) ∧
      (∀ j, (activeSymbols s.ft).length ≤ j → j < t.tb.nalloc.toNat →
        MergesLastTwo s.params.tieArraySense t.tb j ∧ MergesLightest t.tb j) ∧
      (∀ j, t.tb.nalloc.toNat ≤ j → memRead t.tb.nm j = memRead s.tb.nm j) ∧
      (∀ j, (activeSymbols s.ft).length ≤ j → memRead t.tb.ws j = memRead s.tb.ws j) ∧
      t.bb = s.bb ∧ t.bs = s.bs ∧ t.ft = s.ft ∧ SameChannels s t

/-- 43_treebuilder.md R191: a build whose arena does not suffice ends with `E_ALLOC`, no root, every node of the arena
in use, the seed leaves that fitted, and the internal nodes made so far over the last two entries of the sorted window
(R187; with `TIE_ARRAY_SENSE` false, notes/assumptions/7.md). -/
def Obligations.TbBuildArenaExhausted : Prop :=
  ∀ s : State, s.ft.valid = true → s.ft.Inv →
    s.params.nodeCap.val + 1 < 2 * (activeSymbols s.ft).length →
    ∃ t, Ends .tbBuild s .alloc 0 t ∧ t.tb.rootValid = false ∧ t.tb.root = 0x1FF ∧
      t.tb.nalloc.toNat = s.params.nodeCap.val ∧
      t.tb.k.toNat = min (activeSymbols s.ft).length s.params.nodeCap.val ∧
      (∀ j sym, j < s.params.nodeCap.val → (activeSymbols s.ft)[j]? = some sym →
        memRead t.tb.nm j = some { sym := BitVec.ofNat 9 sym, wt := (countOf s.ft sym).setWidth 40, left := 0x1FF,
                                   right := 0x1FF }) ∧
      (∀ j, t.tb.k.toNat ≤ j → j < t.tb.nalloc.toNat →
        MergesLastTwo s.params.tieArraySense t.tb j ∧ MergesLightest t.tb j) ∧
      t.bb = s.bb ∧ t.bs = s.bs ∧ t.ft = s.ft ∧ SameChannels s t

/-- 43_treebuilder.md R192: the tree of a successful build has one leaf per symbol with nonzero count, weighted with
its count, and the root's weight is the sum of all counts. -/
def Obligations.TreeLeavesAreTheTable : Prop :=
  ∀ s t : State, s.ft.valid = true → s.ft.Inv → exec .tbBuild s = .next t → t.tb.rootValid = true →
    ∃ h root, TreeAt t.tb h t.tb.root ∧
      h.leaves.Perm ((activeSymbols s.ft).map fun i => (i, (countOf s.ft i).toNat)) ∧
      nodeAt t.tb t.tb.root = .ok root ∧ root.wt.toNat = ((activeSymbols s.ft).map fun i => (countOf s.ft i).toNat).sum

/-- 43_treebuilder.md R193: two builds over the same table with the same parameters end alike and give the same nodes,
working set and root, whatever stood in the arena before. -/
def Obligations.BuildDependsOnTableOnly : Prop :=
  ∀ s t s' t' : State, s.ft = t.ft → s.ft.valid = true → s.params = t.params →
    exec .tbBuild s = .next s' → exec .tbBuild t = .next t' →
    s'.err = t'.err ∧ s'.res = t'.res ∧ s'.tb.rootValid = t'.tb.rootValid ∧ s'.tb.root = t'.tb.root ∧
      s'.tb.k = t'.tb.k ∧ s'.tb.nalloc = t'.tb.nalloc ∧
      (∀ i, i < s'.tb.nalloc.toNat → memRead s'.tb.nm i = memRead t'.tb.nm i) ∧
      (∀ i, i < s'.tb.k.toNat → memRead s'.tb.ws i = memRead t'.tb.ws i)

/-- 10_state.md R29, R32: every step keeps the invariant of the tree and the arena. Clauses (d) and (e) of R32 are the
spec's own derivation. -/
def Obligations.TreeInvariantKept : Prop :=
  ∀ s t : State, s.tb.Inv s.params → step s = .next t → t.tb.Inv t.params

/-- 43_treebuilder.md R195: the encoding, the error, and: a node read answers the selected field of an allocated node,
zero-extended, and changes nothing. -/
def Obligations.TbNodeReadsField : Prop :=
  ∀ (s : State) (idx : BitVec 24) (n : Node),
    (∀ fsel : BitVec 32, fsel.toNat ≤ 3 → decode (0x42#8 ++ idx ++ fsel) = .ok (.tbNode idx fsel) ∧
      (s.tb.nalloc.toNat ≤ idx.toNat → FailsClean (.tbNode idx fsel) s .invalidArg)) ∧
    (idx.toNat < s.tb.nalloc.toNat → memRead s.tb.nm idx.toNat = some n →
    (∃ t, Ends (.tbNode idx 0) s .ok (BitVec.ofNat 64 n.sym.toNat) t ∧ SameUnits s t ∧ SameChannels s t) ∧
    (∃ t, Ends (.tbNode idx 1) s .ok (BitVec.ofNat 64 n.wt.toNat) t ∧ SameUnits s t ∧ SameChannels s t) ∧
    (∃ t, Ends (.tbNode idx 2) s .ok (BitVec.ofNat 64 n.left.toNat) t ∧ SameUnits s t ∧ SameChannels s t) ∧
    (∃ t, Ends (.tbNode idx 3) s .ok (BitVec.ofNat 64 n.right.toNat) t ∧ SameUnits s t ∧ SameChannels s t))

/-! ### The code extractor (44_extractor.md) -/

/-- 44_extractor.md R211, R212, R213, R217: with a tree whose paths fit the bit buffer, an extraction emits one record
per leaf, left subtree before right, with the path as its code, answers their number, and leaves the buffer empty with
every slot 0 and the capacity grown as far as the deepest leaf needs. -/
def Obligations.ExtractEmitsCodes : Prop :=
  ∀ (s : State) (h : HTree), s.bb.valid = true → s.tb.rootValid = true → TreeAt s.tb h s.tb.root →
    PathFits s.params s.bb.cap.toNat h.depth →
    ∃ t, Ends .tbExtract s .ok (BitVec.ofNat 64 h.leaves.length) t ∧
      t.io.codeOut = s.io.codeOut ++ (h.codes []).map codeRecord ∧
      t.bb.valid = true ∧ t.bb.len = 0 ∧ t.bb.cap.toNat = capacityFor s.bb.cap.toNat h.depth ∧
      (∀ i, i < s.params.bbMax.val → bitRead t.bb.bits i = false) ∧
      t.bs = s.bs ∧ t.ft = s.ft ∧ t.tb = s.tb ∧
      t.io.renderOut = s.io.renderOut ∧ SameSrc s t ∧ SameBsi s t ∧ SameBso s t

/-- 44_extractor.md R212, 70_reset_and_hazards.md R268: with a tree whose paths do not fit, the extraction ends with
`E_ALLOC`, at the first leaf in the order of the walk that is deeper than the last capacity, the one that cannot grow by
256 within `BB_MAX`; the records of the leaves before it stay emitted and their number is the result. The buffer is
full and holds the path at the point of failure: the bits of that leaf's code as far as there are slots. -/
def Obligations.ExtractStopsWhenBufferFull : Prop :=
  ∀ (s : State) (h : HTree), s.bb.valid = true → s.tb.rootValid = true → TreeAt s.tb h s.tb.root →
    ¬ PathFits s.params s.bb.cap.toNat h.depth →
    ∃ t pre c post, h.codes [] = pre ++ c :: post ∧
      Ends .tbExtract s .alloc (BitVec.ofNat 64 pre.length) t ∧ pre.length < h.leaves.length ∧
      t.io.codeOut = s.io.codeOut ++ pre.map codeRecord ∧
      (∀ x ∈ pre, x.2.length ≤ t.bb.cap.toNat) ∧ t.bb.cap.toNat < c.2.length ∧
      t.bb.valid = true ∧ t.bb.len = t.bb.cap ∧ s.params.bbMax.val < t.bb.cap.toNat + 256 ∧
      (∃ g, t.bb.cap.toNat = s.bb.cap.toNat + 256 * g ∧ (0 < g → t.bb.cap.toNat ≤ s.params.bbMax.val)) ∧
      (∀ i, i < t.bb.len.toNat → c.2[i]? = some (bitRead t.bb.bits i)) ∧
      (∀ i, t.bb.len.toNat ≤ i → i < s.params.bbMax.val → bitRead t.bb.bits i = false) ∧
      t.bs = s.bs ∧ t.ft = s.ft ∧ t.tb = s.tb ∧
      t.io.renderOut = s.io.renderOut ∧ SameSrc s t ∧ SameBsi s t ∧ SameBso s t

/-- 44_extractor.md R212: a null tree gives no record and no error; the buffer is emptied. -/
def Obligations.ExtractOfNullTree : Prop :=
  ∀ s : State, s.bb.valid = true → s.tb.rootValid = false →
    ∃ t, Ends .tbExtract s .ok 0 t ∧ t.bb.valid = true ∧ t.bb.len = 0 ∧ t.bb.cap = s.bb.cap ∧
      (∀ i, i < s.params.bbMax.val → bitRead t.bb.bits i = false) ∧
      t.bs = s.bs ∧ t.ft = s.ft ∧ t.tb = s.tb ∧ SameChannels s t

/-- 44_extractor.md R216: no code of a successful extraction is a prefix of another code of it. -/
def Obligations.CodesArePrefixFree : Prop :=
  ∀ (s t : State) (h : HTree) (r : Word), s.tb.rootValid = true → TreeAt s.tb h s.tb.root → Ends .tbExtract s .ok r t →
    ∃ rs, t.io.codeOut = s.io.codeOut ++ rs ∧
      rs.Pairwise (fun a b => ¬ a.code <+: b.code ∧ ¬ b.code <+: a.code)

/-- 70_reset_and_hazards.md R268: with `BB_MAX = 1024`, in every state that meets the invariants, an extraction of a
tree succeeds, and no code is longer than 255 bits. -/
def Obligations.ExtractFitsByDefault : Prop :=
  ∀ s : State, s.Inv → s.params.bbMax.val = 1024 → s.bb.valid = true → s.tb.rootValid = true →
    ∃ t rs, Ends .tbExtract s .ok (BitVec.ofNat 64 rs.length) t ∧ t.io.codeOut = s.io.codeOut ++ rs ∧
      ∀ r ∈ rs, r.code.length ≤ 255 ∧ r.len.toNat = r.code.length

/-! ### The whole machine -/

/-- 10_state.md R23, R25, R27, R29 ("written by"), R50, 00_scope.md R7: each unit changes only by its own commands,
and no command changes `ID` or a parameter. -/
def Obligations.UnitsChangeOnlyByTheirCommands : Prop :=
  ∀ (i : Instr) (s t : State), exec i s = .next t →
    ((∀ c, i ≠ .bbCreate c) → (∀ b, i ≠ .bbAppend b) → i ≠ .bbPop → i ≠ .tbExtract → t.bb = s.bb) ∧
    (i ≠ .bsOpenR → i ≠ .bsOpenW → i ≠ .bsReadBit → (∀ b, i ≠ .bsWriteBit b) → i ≠ .bsWriteBuf → i ≠ .bsClose →
      t.bs = s.bs) ∧
    ((∀ n, i ≠ .ftCreate n) → i ≠ .ftScan → (∀ n, i ≠ .ftInc n) → (∀ n c, i ≠ .ftSet n c) → t.ft = s.ft) ∧
    (i ≠ .tbBuild → t.tb = s.tb) ∧ t.ident = s.ident ∧ t.params = s.params

/-- 20_memory.md R70 to R74, R80: SRC is pulled only by `FT_SCAN`, BSI only by `BS_OPEN_R` and `BS_READ_BIT`, BSO
pushed only by the two writes, CODE_OUT written only by `TB_EXTRACT` and RENDER_OUT only by `BB_RENDER`; and what was
pushed, emitted or answered is never taken back. -/
def Obligations.ChannelsUsedOnlyByTheirCommands : Prop :=
  ∀ (i : Instr) (s t : State), exec i s = .next t →
    (i ≠ .ftScan → SameSrc s t) ∧ (i ≠ .bsOpenR → i ≠ .bsReadBit → SameBsi s t) ∧
    ((∀ b, i ≠ .bsWriteBit b) → i ≠ .bsWriteBuf → SameBso s t) ∧
    (i ≠ .tbExtract → t.io.codeOut = s.io.codeOut) ∧ ((∀ st n, i ≠ .bbRender st n) → t.io.renderOut = s.io.renderOut) ∧
    t.io.port = s.io.port ∧
    s.io.outb <+: t.io.outb ∧ s.io.codeOut <+: t.io.codeOut ∧ s.io.renderOut <+: t.io.renderOut ∧
    s.io.responses <+: t.io.responses

/-- 10_state.md R34, R35: every step keeps the invariant of the response registers, and no bit of `ESTICKY` is cleared
but by reset. -/
def Obligations.StickyBitsStay : Prop :=
  ∀ s t : State, ResponseInv s → step s = .next t →
    ResponseInv t ∧ ((∀ rest, s.io.port ≠ .reset :: rest) → s.esticky &&& t.esticky = s.esticky)

/-- 20_memory.md R60: every step keeps the arrays in their canonical form. -/
def Obligations.ArraysStayCanonical : Prop :=
  ∀ s t : State, s.memoryWf = true → step s = .next t → t.memoryWf = true

/-- The invariants hold after reset. -/
def Obligations.ResetMeetsInvariants : Prop := State.reset.Inv

/-- 10_state.md R52, 60_exceptions.md R236: from every state that meets the invariants a step gives a next state that
meets them: no read of an entry without a value, no lock-up after an error. -/
def Obligations.StepNeverStops : Prop :=
  ∀ s : State, s.Inv → ∃ t, step s = .next t ∧ t.Inv
end

