-- ==== Sys2Proof/Laws/Arrays.lean ====
section
/-! SUPPORT. The arrays: what a read gives after each operation of Machine/Ops.lean, and that every operation keeps
the canonical form. -/

namespace Sys2Proof.Machine

variable {α : Type}

/-! ### Reading -/

@[simp] theorem memRead_nil (i : Nat) : memRead ([] : Entries α) i = none := rfl

theorem memRead_cons (e : Nat × α) (m : Entries α) (i : Nat) :
    memRead (e :: m) i = if i = e.1 then some e.2 else memRead m i := rfl

theorem memRead_memWrite (m : Entries α) (i : Nat) (v : α) (j : Nat) :
    memRead (memWrite m i v) j = if j = i then some v else memRead m j := by
  induction m with
  | nil => rfl
  | cons e m ih =>
    obtain ⟨k, w⟩ := e
    simp only [memWrite]
    split
    · rfl
    split
    · rename_i h; subst h; simp only [memRead_cons]; split <;> rfl
    · rename_i h; simp only [memRead_cons, ih]
      by_cases hjk : j = k
      · subst hjk; simp [Ne.symm h]
      · simp [hjk]

@[simp] theorem memRead_memWrite_same (m : Entries α) (i : Nat) (v : α) : memRead (memWrite m i v) i = some v := by
  simp [memRead_memWrite]

theorem memRead_memWrite_ne (m : Entries α) {i j : Nat} (v : α) (h : j ≠ i) :
    memRead (memWrite m i v) j = memRead m j := by simp [memRead_memWrite, h]

theorem memRead_filter (m : Entries α) (q : Nat → Bool) (i : Nat) :
    memRead (m.filter fun e => q e.1) i = if q i then memRead m i else none := by
  induction m with
  | nil => simp
  | cons e m ih =>
    rw [List.filter_cons]
    split <;> rename_i h <;> simp only [memRead_cons, ih]
    · by_cases hi : i = e.1
      · subst hi; simp [h]
      · simp [hi]
    · by_cases hi : i = e.1
      · subst hi; simp [h]
      · simp [hi]

theorem memRead_memClear (m : Entries α) (i j : Nat) :
    memRead (memClear m i) j = if j = i then none else memRead m j := by
  unfold memClear
  rw [memRead_filter m (fun k => k != i)]
  by_cases h : j = i <;> simp [h]

theorem memRead_memClearBelow (m : Entries α) (n j : Nat) :
    memRead (memClearBelow m n) j = if j < n then none else memRead m j := by
  unfold memClearBelow
  rw [memRead_filter m (fun k => decide (n ≤ k))]
  by_cases h : j < n
  · simp [h, Nat.not_le.mpr h]
  · simp [h, Nat.not_lt.mp h]

theorem memRead_append (m m' : Entries α) (i : Nat) :
    memRead (m ++ m') i = (memRead m i).or (memRead m' i) := by
  induction m with
  | nil => simp
  | cons e m ih =>
    rw [List.cons_append, memRead_cons, memRead_cons, ih]
    split <;> simp

theorem memRead_map_range (n : Nat) (v : α) (i : Nat) :
    memRead ((List.range n).map fun i => (i, v)) i = if i < n then some v else none := by
  induction n with
  | zero => simp
  | succ n ih =>
    rw [List.range_succ, List.map_append, memRead_append, ih]
    by_cases h : i < n
    · simp [h, Nat.lt_succ_of_lt h]
    · simp only [h, if_false, Option.none_or, List.map_cons, List.map_nil, memRead_cons, memRead_nil]
      by_cases h' : i = n
      · simp [h']
      · have : ¬ i < n + 1 := by omega
        simp [h', this]

theorem memRead_memFill (m : Entries α) (n : Nat) (v : α) (i : Nat) :
    memRead (memFill m n v) i = if i < n then some v else memRead m i := by
  unfold memFill
  rw [memRead_append, memRead_map_range, memRead_memClearBelow]
  by_cases h : i < n <;> simp [h]

/-! ### Slots -/

@[simp] theorem bitRead_nil (i : Nat) : bitRead [] i = false := rfl

theorem bitRead_bitWrite (m : Entries Bit) (i : Nat) (b : Bit) (j : Nat) :
    bitRead (bitWrite m i b) j = if j = i then b else bitRead m j := by
  unfold bitRead bitWrite
  cases b
  · simp only [Bool.false_eq_true, if_false, memRead_memClear]; split <;> simp
  · simp only [if_true, memRead_memWrite]; split <;> simp

theorem bitRead_memClearBelow (m : Entries Bit) (n j : Nat) :
    bitRead (memClearBelow m n) j = if j < n then false else bitRead m j := by
  unfold bitRead; rw [memRead_memClearBelow]; split <;> simp

/-! ### The canonical form -/

theorem memWf_iff (m : Entries α) : memWf m = true ↔ m.Pairwise fun x y => x.1 < y.1 := by
  simp [memWf]

theorem memWrite_mem_val (m : Entries α) (i : Nat) (v : α) : ∀ e ∈ memWrite m i v, e = (i, v) ∨ e ∈ m := by
  induction m with
  | nil => simp [memWrite]
  | cons e m ih =>
    obtain ⟨k, w⟩ := e
    intro x hx
    simp only [memWrite] at hx
    split at hx
    · rcases List.mem_cons.mp hx with rfl | h
      · exact .inl rfl
      · exact .inr h
    split at hx
    · rcases List.mem_cons.mp hx with rfl | h
      · exact .inl rfl
      · exact .inr (List.mem_cons_of_mem _ h)
    · rcases List.mem_cons.mp hx with rfl | h
      · exact .inr List.mem_cons_self
      · exact (ih x h).imp id (List.mem_cons_of_mem _)

theorem memWrite_mem_idx (m : Entries α) (i : Nat) (v : α) : ∀ e ∈ memWrite m i v, e.1 = i ∨ e ∈ m := by
  intro e he
  rcases memWrite_mem_val m i v e he with rfl | h
  · exact .inl rfl
  · exact .inr h

@[simp] theorem memWf_nil : memWf ([] : Entries α) = true := rfl

theorem memWf_memWrite {m : Entries α} (h : memWf m = true) (i : Nat) (v : α) : memWf (memWrite m i v) = true := by
  rw [memWf_iff] at *
  induction m with
  | nil => simp [memWrite]
  | cons e m ih =>
    obtain ⟨k, w⟩ := e
    rw [List.pairwise_cons] at h
    simp only [memWrite]
    split
    · rename_i hik
      refine List.pairwise_cons.mpr ⟨?_, List.pairwise_cons.mpr h⟩
      intro x hx
      rcases List.mem_cons.mp hx with rfl | hx
      · exact hik
      · exact hik.trans (h.1 x hx)
    split
    · rename_i hik; subst hik; exact List.pairwise_cons.mpr h
    · rename_i hlt hne
      refine List.pairwise_cons.mpr ⟨?_, ih h.2⟩
      intro x hx
      rcases memWrite_mem_idx m i v x hx with h' | h'
      · rw [h']; exact Nat.lt_of_le_of_ne (Nat.not_lt.mp hlt) (Ne.symm hne)
      · exact h.1 x h'

theorem memWf_filter {m : Entries α} (h : memWf m = true) (q : Nat × α → Bool) : memWf (m.filter q) = true := by
  rw [memWf_iff] at *; exact h.filter q

theorem memWf_memClear {m : Entries α} (h : memWf m = true) (i : Nat) : memWf (memClear m i) = true :=
  memWf_filter h _

theorem memWf_memClearBelow {m : Entries α} (h : memWf m = true) (n : Nat) : memWf (memClearBelow m n) = true :=
  memWf_filter h _

theorem memWf_memFill {m : Entries α} (h : memWf m = true) (n : Nat) (v : α) : memWf (memFill m n v) = true := by
  have h2 := memWf_memClearBelow h n
  rw [memWf_iff] at *
  refine List.pairwise_append.mpr ⟨?_, h2, ?_⟩
  · rw [List.pairwise_map]; exact List.pairwise_lt_range
  · intro x hx y hy
    obtain ⟨i, hi, rfl⟩ := List.mem_map.mp hx
    have hn : n ≤ y.1 := by simpa using (List.mem_filter.mp hy).2
    exact lt_of_lt_of_le (List.mem_range.mp hi) hn

theorem bitsWf_iff (m : Entries Bit) : bitsWf m = true ↔ memWf m = true ∧ ∀ e ∈ m, e.2 = true := by
  simp [bitsWf, List.all_eq_true]

@[simp] theorem bitsWf_nil : bitsWf [] = true := rfl

theorem bitsWf_bitWrite {m : Entries Bit} (h : bitsWf m = true) (i : Nat) (b : Bit) : bitsWf (bitWrite m i b) = true := by
  rw [bitsWf_iff] at *
  unfold bitWrite
  cases b
  · exact ⟨memWf_memClear h.1 i, fun e he => h.2 e (List.mem_filter.mp he).1⟩
  · refine ⟨memWf_memWrite h.1 i true, fun e he => ?_⟩
    rcases memWrite_mem_val m i true e he with rfl | he
    · rfl
    · exact h.2 e he

theorem bitsWf_memClearBelow {m : Entries Bit} (h : bitsWf m = true) (n : Nat) : bitsWf (memClearBelow m n) = true := by
  rw [bitsWf_iff] at *
  exact ⟨memWf_memClearBelow h.1 n, fun e he => h.2 e (List.mem_filter.mp he).1⟩

/-- Reset memory is canonical. -/
theorem memoryWf_resetWith (p : Params) (io : Ports) : (State.resetWith p io).memoryWf = true := rfl

end Sys2Proof.Machine
end

