-- ==== Sys2Proof/Laws/State.lean ====
section
/-! SUPPORT. The state under its updates: one lemma per field per update of Machine/Ops.lean, so that no proof unfolds
a record update. -/

namespace Sys2Proof.Machine

variable (s t : State)


/-! ### withBb -/

@[simp] theorem withBb_bb (x : BitBuffer) : (s.withBb x).bb = x := rfl
@[simp] theorem withBb_bs (x : BitBuffer) : (s.withBb x).bs = s.bs := rfl
@[simp] theorem withBb_ft (x : BitBuffer) : (s.withBb x).ft = s.ft := rfl
@[simp] theorem withBb_tb (x : BitBuffer) : (s.withBb x).tb = s.tb := rfl
@[simp] theorem withBb_err (x : BitBuffer) : (s.withBb x).err = s.err := rfl
@[simp] theorem withBb_res (x : BitBuffer) : (s.withBb x).res = s.res := rfl
@[simp] theorem withBb_esticky (x : BitBuffer) : (s.withBb x).esticky = s.esticky := rfl
@[simp] theorem withBb_ident (x : BitBuffer) : (s.withBb x).ident = s.ident := rfl
@[simp] theorem withBb_busy (x : BitBuffer) : (s.withBb x).busy = s.busy := rfl
@[simp] theorem withBb_params (x : BitBuffer) : (s.withBb x).params = s.params := rfl
@[simp] theorem withBb_io (x : BitBuffer) : (s.withBb x).io = s.io := rfl

/-! ### withBs -/

@[simp] theorem withBs_bb (x : BitStream) : (s.withBs x).bb = s.bb := rfl
@[simp] theorem withBs_bs (x : BitStream) : (s.withBs x).bs = x := rfl
@[simp] theorem withBs_ft (x : BitStream) : (s.withBs x).ft = s.ft := rfl
@[simp] theorem withBs_tb (x : BitStream) : (s.withBs x).tb = s.tb := rfl
@[simp] theorem withBs_err (x : BitStream) : (s.withBs x).err = s.err := rfl
@[simp] theorem withBs_res (x : BitStream) : (s.withBs x).res = s.res := rfl
@[simp] theorem withBs_esticky (x : BitStream) : (s.withBs x).esticky = s.esticky := rfl
@[simp] theorem withBs_ident (x : BitStream) : (s.withBs x).ident = s.ident := rfl
@[simp] theorem withBs_busy (x : BitStream) : (s.withBs x).busy = s.busy := rfl
@[simp] theorem withBs_params (x : BitStream) : (s.withBs x).params = s.params := rfl
@[simp] theorem withBs_io (x : BitStream) : (s.withBs x).io = s.io := rfl

/-! ### withFt -/

@[simp] theorem withFt_bb (x : FreqTable) : (s.withFt x).bb = s.bb := rfl
@[simp] theorem withFt_bs (x : FreqTable) : (s.withFt x).bs = s.bs := rfl
@[simp] theorem withFt_ft (x : FreqTable) : (s.withFt x).ft = x := rfl
@[simp] theorem withFt_tb (x : FreqTable) : (s.withFt x).tb = s.tb := rfl
@[simp] theorem withFt_err (x : FreqTable) : (s.withFt x).err = s.err := rfl
@[simp] theorem withFt_res (x : FreqTable) : (s.withFt x).res = s.res := rfl
@[simp] theorem withFt_esticky (x : FreqTable) : (s.withFt x).esticky = s.esticky := rfl
@[simp] theorem withFt_ident (x : FreqTable) : (s.withFt x).ident = s.ident := rfl
@[simp] theorem withFt_busy (x : FreqTable) : (s.withFt x).busy = s.busy := rfl
@[simp] theorem withFt_params (x : FreqTable) : (s.withFt x).params = s.params := rfl
@[simp] theorem withFt_io (x : FreqTable) : (s.withFt x).io = s.io := rfl

/-! ### withTb -/

@[simp] theorem withTb_bb (x : TreeBuilder) : (s.withTb x).bb = s.bb := rfl
@[simp] theorem withTb_bs (x : TreeBuilder) : (s.withTb x).bs = s.bs := rfl
@[simp] theorem withTb_ft (x : TreeBuilder) : (s.withTb x).ft = s.ft := rfl
@[simp] theorem withTb_tb (x : TreeBuilder) : (s.withTb x).tb = x := rfl
@[simp] theorem withTb_err (x : TreeBuilder) : (s.withTb x).err = s.err := rfl
@[simp] theorem withTb_res (x : TreeBuilder) : (s.withTb x).res = s.res := rfl
@[simp] theorem withTb_esticky (x : TreeBuilder) : (s.withTb x).esticky = s.esticky := rfl
@[simp] theorem withTb_ident (x : TreeBuilder) : (s.withTb x).ident = s.ident := rfl
@[simp] theorem withTb_busy (x : TreeBuilder) : (s.withTb x).busy = s.busy := rfl
@[simp] theorem withTb_params (x : TreeBuilder) : (s.withTb x).params = s.params := rfl
@[simp] theorem withTb_io (x : TreeBuilder) : (s.withTb x).io = s.io := rfl

/-! ### withIo -/

@[simp] theorem withIo_bb (x : Ports) : (s.withIo x).bb = s.bb := rfl
@[simp] theorem withIo_bs (x : Ports) : (s.withIo x).bs = s.bs := rfl
@[simp] theorem withIo_ft (x : Ports) : (s.withIo x).ft = s.ft := rfl
@[simp] theorem withIo_tb (x : Ports) : (s.withIo x).tb = s.tb := rfl
@[simp] theorem withIo_err (x : Ports) : (s.withIo x).err = s.err := rfl
@[simp] theorem withIo_res (x : Ports) : (s.withIo x).res = s.res := rfl
@[simp] theorem withIo_esticky (x : Ports) : (s.withIo x).esticky = s.esticky := rfl
@[simp] theorem withIo_ident (x : Ports) : (s.withIo x).ident = s.ident := rfl
@[simp] theorem withIo_busy (x : Ports) : (s.withIo x).busy = s.busy := rfl
@[simp] theorem withIo_params (x : Ports) : (s.withIo x).params = s.params := rfl
@[simp] theorem withIo_io (x : Ports) : (s.withIo x).io = x := rfl

/-! ### complete -/

@[simp] theorem complete_bb (e : ErrCode) (r : Word) : (complete e r s).bb = s.bb := rfl
@[simp] theorem complete_bs (e : ErrCode) (r : Word) : (complete e r s).bs = s.bs := rfl
@[simp] theorem complete_ft (e : ErrCode) (r : Word) : (complete e r s).ft = s.ft := rfl
@[simp] theorem complete_tb (e : ErrCode) (r : Word) : (complete e r s).tb = s.tb := rfl
@[simp] theorem complete_err (e : ErrCode) (r : Word) : (complete e r s).err = e.code := rfl
@[simp] theorem complete_res (e : ErrCode) (r : Word) : (complete e r s).res = r := rfl
@[simp] theorem complete_esticky (e : ErrCode) (r : Word) : (complete e r s).esticky = stickyAfter e s.esticky := rfl
@[simp] theorem complete_ident (e : ErrCode) (r : Word) : (complete e r s).ident = s.ident := rfl
@[simp] theorem complete_busy (e : ErrCode) (r : Word) : (complete e r s).busy = s.busy := rfl
@[simp] theorem complete_params (e : ErrCode) (r : Word) : (complete e r s).params = s.params := rfl
@[simp] theorem complete_io_port (e : ErrCode) (r : Word) : (complete e r s).io.port = s.io.port := rfl
@[simp] theorem complete_io_src (e : ErrCode) (r : Word) : (complete e r s).io.src = s.io.src := rfl
@[simp] theorem complete_io_srcPulls (e : ErrCode) (r : Word) : (complete e r s).io.srcPulls = s.io.srcPulls := rfl
@[simp] theorem complete_io_bsi (e : ErrCode) (r : Word) : (complete e r s).io.bsi = s.io.bsi := rfl
@[simp] theorem complete_io_bsiPulls (e : ErrCode) (r : Word) : (complete e r s).io.bsiPulls = s.io.bsiPulls := rfl
@[simp] theorem complete_io_bso (e : ErrCode) (r : Word) : (complete e r s).io.bso = s.io.bso := rfl
@[simp] theorem complete_io_bsoPushes (e : ErrCode) (r : Word) : (complete e r s).io.bsoPushes = s.io.bsoPushes := rfl
@[simp] theorem complete_io_outb (e : ErrCode) (r : Word) : (complete e r s).io.outb = s.io.outb := rfl
@[simp] theorem complete_io_codeOut (e : ErrCode) (r : Word) : (complete e r s).io.codeOut = s.io.codeOut := rfl
@[simp] theorem complete_io_renderOut (e : ErrCode) (r : Word) : (complete e r s).io.renderOut = s.io.renderOut := rfl
@[simp] theorem complete_io_responses (e : ErrCode) (r : Word) : (complete e r s).io.responses = s.io.responses ++ [(e.code, r)] := rfl

/-! ### suspend -/

@[simp] theorem suspend_bb : (suspend s t).bb = s.bb := rfl
@[simp] theorem suspend_bs : (suspend s t).bs = s.bs := rfl
@[simp] theorem suspend_ft : (suspend s t).ft = s.ft := rfl
@[simp] theorem suspend_tb : (suspend s t).tb = s.tb := rfl
@[simp] theorem suspend_err : (suspend s t).err = s.err := rfl
@[simp] theorem suspend_res : (suspend s t).res = s.res := rfl
@[simp] theorem suspend_esticky : (suspend s t).esticky = s.esticky := rfl
@[simp] theorem suspend_ident : (suspend s t).ident = s.ident := rfl
@[simp] theorem suspend_busy : (suspend s t).busy = true := rfl
@[simp] theorem suspend_params : (suspend s t).params = s.params := rfl
@[simp] theorem suspend_io : (suspend s t).io = t.io := rfl

/-! ### countSrcPull -/

@[simp] theorem countSrcPull_bb : (countSrcPull s).bb = s.bb := rfl
@[simp] theorem countSrcPull_bs : (countSrcPull s).bs = s.bs := rfl
@[simp] theorem countSrcPull_ft : (countSrcPull s).ft = s.ft := rfl
@[simp] theorem countSrcPull_tb : (countSrcPull s).tb = s.tb := rfl
@[simp] theorem countSrcPull_err : (countSrcPull s).err = s.err := rfl
@[simp] theorem countSrcPull_res : (countSrcPull s).res = s.res := rfl
@[simp] theorem countSrcPull_esticky : (countSrcPull s).esticky = s.esticky := rfl
@[simp] theorem countSrcPull_ident : (countSrcPull s).ident = s.ident := rfl
@[simp] theorem countSrcPull_busy : (countSrcPull s).busy = s.busy := rfl
@[simp] theorem countSrcPull_params : (countSrcPull s).params = s.params := rfl
@[simp] theorem countSrcPull_io_port : (countSrcPull s).io.port = s.io.port := rfl
@[simp] theorem countSrcPull_io_src : (countSrcPull s).io.src = s.io.src.tail := rfl
@[simp] theorem countSrcPull_io_srcPulls : (countSrcPull s).io.srcPulls = s.io.srcPulls + 1 := rfl
@[simp] theorem countSrcPull_io_bsi : (countSrcPull s).io.bsi = s.io.bsi := rfl
@[simp] theorem countSrcPull_io_bsiPulls : (countSrcPull s).io.bsiPulls = s.io.bsiPulls := rfl
@[simp] theorem countSrcPull_io_bso : (countSrcPull s).io.bso = s.io.bso := rfl
@[simp] theorem countSrcPull_io_bsoPushes : (countSrcPull s).io.bsoPushes = s.io.bsoPushes := rfl
@[simp] theorem countSrcPull_io_outb : (countSrcPull s).io.outb = s.io.outb := rfl
@[simp] theorem countSrcPull_io_codeOut : (countSrcPull s).io.codeOut = s.io.codeOut := rfl
@[simp] theorem countSrcPull_io_renderOut : (countSrcPull s).io.renderOut = s.io.renderOut := rfl
@[simp] theorem countSrcPull_io_responses : (countSrcPull s).io.responses = s.io.responses := rfl

/-! ### countBsiPull -/

@[simp] theorem countBsiPull_bb : (countBsiPull s).bb = s.bb := rfl
@[simp] theorem countBsiPull_bs : (countBsiPull s).bs = s.bs := rfl
@[simp] theorem countBsiPull_ft : (countBsiPull s).ft = s.ft := rfl
@[simp] theorem countBsiPull_tb : (countBsiPull s).tb = s.tb := rfl
@[simp] theorem countBsiPull_err : (countBsiPull s).err = s.err := rfl
@[simp] theorem countBsiPull_res : (countBsiPull s).res = s.res := rfl
@[simp] theorem countBsiPull_esticky : (countBsiPull s).esticky = s.esticky := rfl
@[simp] theorem countBsiPull_ident : (countBsiPull s).ident = s.ident := rfl
@[simp] theorem countBsiPull_busy : (countBsiPull s).busy = s.busy := rfl
@[simp] theorem countBsiPull_params : (countBsiPull s).params = s.params := rfl
@[simp] theorem countBsiPull_io_port : (countBsiPull s).io.port = s.io.port := rfl
@[simp] theorem countBsiPull_io_src : (countBsiPull s).io.src = s.io.src := rfl
@[simp] theorem countBsiPull_io_srcPulls : (countBsiPull s).io.srcPulls = s.io.srcPulls := rfl
@[simp] theorem countBsiPull_io_bsi : (countBsiPull s).io.bsi = s.io.bsi.tail := rfl
@[simp] theorem countBsiPull_io_bsiPulls : (countBsiPull s).io.bsiPulls = s.io.bsiPulls + 1 := rfl
@[simp] theorem countBsiPull_io_bso : (countBsiPull s).io.bso = s.io.bso := rfl
@[simp] theorem countBsiPull_io_bsoPushes : (countBsiPull s).io.bsoPushes = s.io.bsoPushes := rfl
@[simp] theorem countBsiPull_io_outb : (countBsiPull s).io.outb = s.io.outb := rfl
@[simp] theorem countBsiPull_io_codeOut : (countBsiPull s).io.codeOut = s.io.codeOut := rfl
@[simp] theorem countBsiPull_io_renderOut : (countBsiPull s).io.renderOut = s.io.renderOut := rfl
@[simp] theorem countBsiPull_io_responses : (countBsiPull s).io.responses = s.io.responses := rfl

/-! ### countBsoPush -/

@[simp] theorem countBsoPush_bb : (countBsoPush s).bb = s.bb := rfl
@[simp] theorem countBsoPush_bs : (countBsoPush s).bs = s.bs := rfl
@[simp] theorem countBsoPush_ft : (countBsoPush s).ft = s.ft := rfl
@[simp] theorem countBsoPush_tb : (countBsoPush s).tb = s.tb := rfl
@[simp] theorem countBsoPush_err : (countBsoPush s).err = s.err := rfl
@[simp] theorem countBsoPush_res : (countBsoPush s).res = s.res := rfl
@[simp] theorem countBsoPush_esticky : (countBsoPush s).esticky = s.esticky := rfl
@[simp] theorem countBsoPush_ident : (countBsoPush s).ident = s.ident := rfl
@[simp] theorem countBsoPush_busy : (countBsoPush s).busy = s.busy := rfl
@[simp] theorem countBsoPush_params : (countBsoPush s).params = s.params := rfl
@[simp] theorem countBsoPush_io_port : (countBsoPush s).io.port = s.io.port := rfl
@[simp] theorem countBsoPush_io_src : (countBsoPush s).io.src = s.io.src := rfl
@[simp] theorem countBsoPush_io_srcPulls : (countBsoPush s).io.srcPulls = s.io.srcPulls := rfl
@[simp] theorem countBsoPush_io_bsi : (countBsoPush s).io.bsi = s.io.bsi := rfl
@[simp] theorem countBsoPush_io_bsiPulls : (countBsoPush s).io.bsiPulls = s.io.bsiPulls := rfl
@[simp] theorem countBsoPush_io_bso : (countBsoPush s).io.bso = s.io.bso.tail := rfl
@[simp] theorem countBsoPush_io_bsoPushes : (countBsoPush s).io.bsoPushes = s.io.bsoPushes + 1 := rfl
@[simp] theorem countBsoPush_io_outb : (countBsoPush s).io.outb = s.io.outb := rfl
@[simp] theorem countBsoPush_io_codeOut : (countBsoPush s).io.codeOut = s.io.codeOut := rfl
@[simp] theorem countBsoPush_io_renderOut : (countBsoPush s).io.renderOut = s.io.renderOut := rfl
@[simp] theorem countBsoPush_io_responses : (countBsoPush s).io.responses = s.io.responses := rfl

/-! ### deliver -/

@[simp] theorem deliver_bb (v : Byte) : (deliver v s).bb = s.bb := rfl
@[simp] theorem deliver_bs (v : Byte) : (deliver v s).bs = s.bs := rfl
@[simp] theorem deliver_ft (v : Byte) : (deliver v s).ft = s.ft := rfl
@[simp] theorem deliver_tb (v : Byte) : (deliver v s).tb = s.tb := rfl
@[simp] theorem deliver_err (v : Byte) : (deliver v s).err = s.err := rfl
@[simp] theorem deliver_res (v : Byte) : (deliver v s).res = s.res := rfl
@[simp] theorem deliver_esticky (v : Byte) : (deliver v s).esticky = s.esticky := rfl
@[simp] theorem deliver_ident (v : Byte) : (deliver v s).ident = s.ident := rfl
@[simp] theorem deliver_busy (v : Byte) : (deliver v s).busy = s.busy := rfl
@[simp] theorem deliver_params (v : Byte) : (deliver v s).params = s.params := rfl
@[simp] theorem deliver_io_port (v : Byte) : (deliver v s).io.port = s.io.port := rfl
@[simp] theorem deliver_io_src (v : Byte) : (deliver v s).io.src = s.io.src := rfl
@[simp] theorem deliver_io_srcPulls (v : Byte) : (deliver v s).io.srcPulls = s.io.srcPulls := rfl
@[simp] theorem deliver_io_bsi (v : Byte) : (deliver v s).io.bsi = s.io.bsi := rfl
@[simp] theorem deliver_io_bsiPulls (v : Byte) : (deliver v s).io.bsiPulls = s.io.bsiPulls := rfl
@[simp] theorem deliver_io_bso (v : Byte) : (deliver v s).io.bso = s.io.bso := rfl
@[simp] theorem deliver_io_bsoPushes (v : Byte) : (deliver v s).io.bsoPushes = s.io.bsoPushes := rfl
@[simp] theorem deliver_io_outb (v : Byte) : (deliver v s).io.outb = s.io.outb ++ [v] := rfl
@[simp] theorem deliver_io_codeOut (v : Byte) : (deliver v s).io.codeOut = s.io.codeOut := rfl
@[simp] theorem deliver_io_renderOut (v : Byte) : (deliver v s).io.renderOut = s.io.renderOut := rfl
@[simp] theorem deliver_io_responses (v : Byte) : (deliver v s).io.responses = s.io.responses := rfl

/-! ### emitCodes -/

@[simp] theorem emitCodes_bb (rs : List CodeRecord) : (emitCodes rs s).bb = s.bb := rfl
@[simp] theorem emitCodes_bs (rs : List CodeRecord) : (emitCodes rs s).bs = s.bs := rfl
@[simp] theorem emitCodes_ft (rs : List CodeRecord) : (emitCodes rs s).ft = s.ft := rfl
@[simp] theorem emitCodes_tb (rs : List CodeRecord) : (emitCodes rs s).tb = s.tb := rfl
@[simp] theorem emitCodes_err (rs : List CodeRecord) : (emitCodes rs s).err = s.err := rfl
@[simp] theorem emitCodes_res (rs : List CodeRecord) : (emitCodes rs s).res = s.res := rfl
@[simp] theorem emitCodes_esticky (rs : List CodeRecord) : (emitCodes rs s).esticky = s.esticky := rfl
@[simp] theorem emitCodes_ident (rs : List CodeRecord) : (emitCodes rs s).ident = s.ident := rfl
@[simp] theorem emitCodes_busy (rs : List CodeRecord) : (emitCodes rs s).busy = s.busy := rfl
@[simp] theorem emitCodes_params (rs : List CodeRecord) : (emitCodes rs s).params = s.params := rfl
@[simp] theorem emitCodes_io_port (rs : List CodeRecord) : (emitCodes rs s).io.port = s.io.port := rfl
@[simp] theorem emitCodes_io_src (rs : List CodeRecord) : (emitCodes rs s).io.src = s.io.src := rfl
@[simp] theorem emitCodes_io_srcPulls (rs : List CodeRecord) : (emitCodes rs s).io.srcPulls = s.io.srcPulls := rfl
@[simp] theorem emitCodes_io_bsi (rs : List CodeRecord) : (emitCodes rs s).io.bsi = s.io.bsi := rfl
@[simp] theorem emitCodes_io_bsiPulls (rs : List CodeRecord) : (emitCodes rs s).io.bsiPulls = s.io.bsiPulls := rfl
@[simp] theorem emitCodes_io_bso (rs : List CodeRecord) : (emitCodes rs s).io.bso = s.io.bso := rfl
@[simp] theorem emitCodes_io_bsoPushes (rs : List CodeRecord) : (emitCodes rs s).io.bsoPushes = s.io.bsoPushes := rfl
@[simp] theorem emitCodes_io_outb (rs : List CodeRecord) : (emitCodes rs s).io.outb = s.io.outb := rfl
@[simp] theorem emitCodes_io_codeOut (rs : List CodeRecord) : (emitCodes rs s).io.codeOut = s.io.codeOut ++ rs := rfl
@[simp] theorem emitCodes_io_renderOut (rs : List CodeRecord) : (emitCodes rs s).io.renderOut = s.io.renderOut := rfl
@[simp] theorem emitCodes_io_responses (rs : List CodeRecord) : (emitCodes rs s).io.responses = s.io.responses := rfl

/-! ### emitChars -/

@[simp] theorem emitChars_bb (cs : List Byte) : (emitChars cs s).bb = s.bb := rfl
@[simp] theorem emitChars_bs (cs : List Byte) : (emitChars cs s).bs = s.bs := rfl
@[simp] theorem emitChars_ft (cs : List Byte) : (emitChars cs s).ft = s.ft := rfl
@[simp] theorem emitChars_tb (cs : List Byte) : (emitChars cs s).tb = s.tb := rfl
@[simp] theorem emitChars_err (cs : List Byte) : (emitChars cs s).err = s.err := rfl
@[simp] theorem emitChars_res (cs : List Byte) : (emitChars cs s).res = s.res := rfl
@[simp] theorem emitChars_esticky (cs : List Byte) : (emitChars cs s).esticky = s.esticky := rfl
@[simp] theorem emitChars_ident (cs : List Byte) : (emitChars cs s).ident = s.ident := rfl
@[simp] theorem emitChars_busy (cs : List Byte) : (emitChars cs s).busy = s.busy := rfl
@[simp] theorem emitChars_params (cs : List Byte) : (emitChars cs s).params = s.params := rfl
@[simp] theorem emitChars_io_port (cs : List Byte) : (emitChars cs s).io.port = s.io.port := rfl
@[simp] theorem emitChars_io_src (cs : List Byte) : (emitChars cs s).io.src = s.io.src := rfl
@[simp] theorem emitChars_io_srcPulls (cs : List Byte) : (emitChars cs s).io.srcPulls = s.io.srcPulls := rfl
@[simp] theorem emitChars_io_bsi (cs : List Byte) : (emitChars cs s).io.bsi = s.io.bsi := rfl
@[simp] theorem emitChars_io_bsiPulls (cs : List Byte) : (emitChars cs s).io.bsiPulls = s.io.bsiPulls := rfl
@[simp] theorem emitChars_io_bso (cs : List Byte) : (emitChars cs s).io.bso = s.io.bso := rfl
@[simp] theorem emitChars_io_bsoPushes (cs : List Byte) : (emitChars cs s).io.bsoPushes = s.io.bsoPushes := rfl
@[simp] theorem emitChars_io_outb (cs : List Byte) : (emitChars cs s).io.outb = s.io.outb := rfl
@[simp] theorem emitChars_io_codeOut (cs : List Byte) : (emitChars cs s).io.codeOut = s.io.codeOut := rfl
@[simp] theorem emitChars_io_renderOut (cs : List Byte) : (emitChars cs s).io.renderOut = s.io.renderOut ++ cs := rfl
@[simp] theorem emitChars_io_responses (cs : List Byte) : (emitChars cs s).io.responses = s.io.responses := rfl

/-! ### applyReset, presentWord -/

@[simp] theorem applyReset_bb : (applyReset s).bb = { valid := false, len := 0, cap := 0, bits := [] } := rfl
@[simp] theorem applyReset_bs : (applyReset s).bs = { isOpen := false, mode := .read, eos := false, off := 0, byte := 0 } := rfl
@[simp] theorem applyReset_ft : (applyReset s).ft = { valid := false, asize := 0, counts := [] } := rfl
@[simp] theorem applyReset_tb : (applyReset s).tb = { rootValid := false, root := noneIdx, k := 0, nalloc := 0, nm := [], ws := [] } := rfl
@[simp] theorem applyReset_err : (applyReset s).err = 0 := rfl
@[simp] theorem applyReset_res : (applyReset s).res = 0 := rfl
@[simp] theorem applyReset_esticky : (applyReset s).esticky = 0 := rfl
@[simp] theorem applyReset_ident : (applyReset s).ident = Config.idValue := rfl
@[simp] theorem applyReset_busy : (applyReset s).busy = false := rfl
@[simp] theorem applyReset_params : (applyReset s).params = s.params := rfl
@[simp] theorem applyReset_io : (applyReset s).io = s.io := rfl
@[simp] theorem presentWord_bb (w : Word) : (presentWord w s).bb = s.bb := rfl
@[simp] theorem presentWord_bs (w : Word) : (presentWord w s).bs = s.bs := rfl
@[simp] theorem presentWord_ft (w : Word) : (presentWord w s).ft = s.ft := rfl
@[simp] theorem presentWord_tb (w : Word) : (presentWord w s).tb = s.tb := rfl
@[simp] theorem presentWord_err (w : Word) : (presentWord w s).err = s.err := rfl
@[simp] theorem presentWord_res (w : Word) : (presentWord w s).res = s.res := rfl
@[simp] theorem presentWord_esticky (w : Word) : (presentWord w s).esticky = s.esticky := rfl
@[simp] theorem presentWord_ident (w : Word) : (presentWord w s).ident = s.ident := rfl
@[simp] theorem presentWord_busy (w : Word) : (presentWord w s).busy = false := rfl
@[simp] theorem presentWord_params (w : Word) : (presentWord w s).params = s.params := rfl
@[simp] theorem presentWord_io_port (w : Word) : (presentWord w s).io.port = .command w :: s.io.port := rfl
@[simp] theorem presentWord_io_src (w : Word) : (presentWord w s).io.src = s.io.src := rfl
@[simp] theorem presentWord_io_srcPulls (w : Word) : (presentWord w s).io.srcPulls = s.io.srcPulls := rfl
@[simp] theorem presentWord_io_bsi (w : Word) : (presentWord w s).io.bsi = s.io.bsi := rfl
@[simp] theorem presentWord_io_bsiPulls (w : Word) : (presentWord w s).io.bsiPulls = s.io.bsiPulls := rfl
@[simp] theorem presentWord_io_bso (w : Word) : (presentWord w s).io.bso = s.io.bso := rfl
@[simp] theorem presentWord_io_bsoPushes (w : Word) : (presentWord w s).io.bsoPushes = s.io.bsoPushes := rfl
@[simp] theorem presentWord_io_outb (w : Word) : (presentWord w s).io.outb = s.io.outb := rfl
@[simp] theorem presentWord_io_codeOut (w : Word) : (presentWord w s).io.codeOut = s.io.codeOut := rfl
@[simp] theorem presentWord_io_renderOut (w : Word) : (presentWord w s).io.renderOut = s.io.renderOut := rfl
@[simp] theorem presentWord_io_responses (w : Word) : (presentWord w s).io.responses = s.io.responses := rfl

end Sys2Proof.Machine
end

