-- ==== Sys2Proof/Laws/BitBuffer.lean ====
section
/-! SUPPORT. The bit buffer: what a push and a pop can do, that they keep 10_state.md R24, and the slots as a list. -/

namespace Sys2Proof.Machine

/-! ### Push -/

/-- Each case of `bb_push` (40_bitbuffer.md R111): room, growth by 256, or no growth possible. -/
theorem bbPush_room {p : Params} {bit : Bit} {b : BitBuffer} (h : b.len ≠ b.cap) :
    bbPush p bit b = some (bbStore bit b) := by simp [bbPush, h]

theorem bbPush_grow {p : Params} {bit : Bit} {b : BitBuffer} (h : b.len = b.cap) (g : b.cap.toNat + 256 ≤ p.bbMax.val) :
    bbPush p bit b = some (bbStore bit { b with cap := b.cap + 256#11 }) := by
  have : ¬ b.cap.toNat + Config.bbGrow > p.bbMax.val := by simp only [Config.bbGrow]; omega
  rw [bbPush, if_pos h, if_neg this]; rfl

theorem bbPush_full {p : Params} {bit : Bit} {b : BitBuffer} (h : b.len = b.cap) (g : p.bbMax.val < b.cap.toNat + 256) :
    bbPush p bit b = none := by
  have : b.cap.toNat + Config.bbGrow > p.bbMax.val := g
  rw [bbPush, if_pos h, if_pos this]

@[simp] theorem bbStore_valid (bit : Bit) (b : BitBuffer) : (bbStore bit b).valid = b.valid := rfl
@[simp] theorem bbStore_len (bit : Bit) (b : BitBuffer) : (bbStore bit b).len = b.len + 1 := rfl
@[simp] theorem bbStore_cap (bit : Bit) (b : BitBuffer) : (bbStore bit b).cap = b.cap := rfl
theorem bitRead_bbStore (bit : Bit) (b : BitBuffer) (i : Nat) :
    bitRead (bbStore bit b).bits i = if i = b.len.toNat then bit else bitRead b.bits i := bitRead_bitWrite ..

/-- What a push that is made does, whatever the state was. -/
theorem bbPush_some {p : Params} {bit : Bit} {b c : BitBuffer} (h : bbPush p bit b = some c) :
    c.valid = b.valid ∧ c.len = b.len + 1 ∧ c.bits = bitWrite b.bits b.len.toNat bit ∧
      ((b.len ≠ b.cap ∧ c.cap = b.cap) ∨
        (b.len = b.cap ∧ c.cap.toNat = b.cap.toNat + 256 ∧ c.cap.toNat ≤ p.bbMax.val)) := by
  by_cases e : b.len = b.cap
  · by_cases g : b.cap.toNat + 256 ≤ p.bbMax.val
    · rw [bbPush_grow e g] at h
      cases h
      have := p.bbMax.isLt
      have hc : (b.cap + 256#11).toNat = b.cap.toNat + 256 := by
        rw [BitVec.toNat_add]; exact Nat.mod_eq_of_lt (by simp; omega)
      exact ⟨rfl, rfl, rfl, .inr ⟨e, by simp [bbStore, hc], by simp [bbStore, hc, g]⟩⟩
    · rw [bbPush_full e (by omega)] at h; cases h
  · rw [bbPush_room e] at h
    cases h
    exact ⟨rfl, rfl, rfl, .inl ⟨e, rfl⟩⟩

theorem bbPush_none {p : Params} {bit : Bit} {b : BitBuffer} (h : bbPush p bit b = none) :
    b.len = b.cap ∧ p.bbMax.val < b.cap.toNat + 256 := by
  by_cases e : b.len = b.cap
  · by_cases g : b.cap.toNat + 256 ≤ p.bbMax.val
    · rw [bbPush_grow e g] at h; cases h
    · exact ⟨e, by omega⟩
  · rw [bbPush_room e] at h; cases h

/-- A push within the capacity lengthens the buffer by one: the 11-bit length does not wrap. -/
theorem bbPush_len {p : Params} {bit : Bit} {b c : BitBuffer} (i : b.len.toNat ≤ b.cap.toNat)
    (h : bbPush p bit b = some c) : c.len.toNat = b.len.toNat + 1 ∧ c.len.toNat ≤ c.cap.toNat := by
  obtain ⟨-, cl, -, cc⟩ := bbPush_some h
  have hm := p.bbMax.isLt
  have hc := c.cap.isLt
  have hlt : b.len.toNat + 1 ≤ c.cap.toNat := by
    rcases cc with ⟨hne, e⟩ | ⟨e, g, g'⟩
    · have : b.len.toNat ≠ b.cap.toNat := fun h => hne (BitVec.eq_of_toNat_eq h)
      rw [e]; omega
    · omega
  have hlen : c.len.toNat = b.len.toNat + 1 := by
    rw [cl, BitVec.toNat_add]; exact Nat.mod_eq_of_lt (by simp; omega)
  exact ⟨hlen, by omega⟩

/-- The slots after a push. -/
theorem bbContents_push {p : Params} {bit : Bit} {b c : BitBuffer} (i : b.len.toNat ≤ b.cap.toNat)
    (h : bbPush p bit b = some c) : bbContents c = bbContents b ++ [bit] := by
  obtain ⟨hlen, -⟩ := bbPush_len i h
  obtain ⟨-, -, cb, -⟩ := bbPush_some h
  rw [bbContents, hlen, List.range_succ, List.map_append, bbContents, cb]
  congr 1
  · refine List.map_congr_left fun j hj => ?_
    rw [bitRead_bitWrite, if_neg (by have := List.mem_range.mp hj; omega)]
  · simp [bitRead_bitWrite]

/-- A push keeps 10_state.md R24. -/
theorem BitBuffer.Inv.push {p : Params} {bit : Bit} {b c : BitBuffer} (i : b.Inv p) (h : bbPush p bit b = some c) :
    c.Inv p := by
  obtain ⟨hlen, hle⟩ := bbPush_len i.1 h
  obtain ⟨-, -, cb, cc⟩ := bbPush_some h
  obtain ⟨hl, hc, hz⟩ := i
  refine ⟨hle, ?_, fun j hj => ?_⟩
  · rcases cc with ⟨-, e⟩ | ⟨-, -, g⟩
    · rw [e]; exact hc
    · exact g
  · rw [cb, bitRead_bitWrite, if_neg (by omega)]
    exact hz j (by omega)

theorem bitsWf_push {p : Params} {bit : Bit} {b c : BitBuffer} (w : bitsWf b.bits = true) (h : bbPush p bit b = some c) :
    bitsWf c.bits = true := by
  rw [(bbPush_some h).2.2.1]; exact bitsWf_bitWrite w _ _

/-! ### Pop -/

theorem bbPop_empty {b : BitBuffer} (h : b.len.toNat = 0) : bbPop b = b := by simp [bbPop, h]

/-- What a pop does (40_bitbuffer.md R111). -/
theorem bbPop_spec (b : BitBuffer) :
    (bbPop b).valid = b.valid ∧ (bbPop b).cap = b.cap ∧ (bbPop b).len.toNat = b.len.toNat - 1 ∧
      ∀ i, bitRead (bbPop b).bits i =
        if 0 < b.len.toNat ∧ i = b.len.toNat - 1 then false else bitRead b.bits i := by
  by_cases h : b.len.toNat = 0
  · rw [bbPop_empty h]; exact ⟨rfl, rfl, by omega, fun i => by rw [if_neg (by omega)]⟩
  · have hp : b.len.toNat > 0 := by omega
    have hl : (b.len - 1).toNat = b.len.toNat - 1 := by
      have := b.len.isLt
      rw [BitVec.toNat_sub]
      simp only [BitVec.ofNat_eq_ofNat, BitVec.toNat_ofNat]
      omega
    rw [bbPop, if_pos hp]
    refine ⟨rfl, rfl, hl, fun i => ?_⟩
    simp only [bitRead_bitWrite, hl, hp, true_and]

theorem BitBuffer.Inv.pop {p : Params} {b : BitBuffer} (i : b.Inv p) : (bbPop b).Inv p := by
  obtain ⟨-, hc, hl, hz⟩ := bbPop_spec b
  obtain ⟨il, ic, iz⟩ := i
  refine ⟨by rw [hc]; omega, by rw [hc]; omega, fun j hj => ?_⟩
  rw [hz]; split
  · rfl
  · exact iz j (by omega)

theorem bitsWf_pop {b : BitBuffer} (w : bitsWf b.bits = true) : bitsWf (bbPop b).bits = true := by
  unfold bbPop; split
  · simp only [bitsWf_bitWrite w]
  · exact w

/-- A pop takes back what the last push stored. -/
theorem bbContents_pop {b : BitBuffer} {l : List Bit} {bit : Bit} (h : bbContents b = l ++ [bit]) :
    bbContents (bbPop b) = l := by
  obtain ⟨-, -, hl, hz⟩ := bbPop_spec b
  have hlen : b.len.toNat = l.length + 1 := by
    have := congrArg List.length h; simpa [bbContents] using this
  rw [bbContents, hl, hlen, Nat.add_sub_cancel]
  rw [bbContents, hlen, List.range_succ, List.map_append] at h
  refine Eq.trans ?_ (List.append_inj' h rfl).1
  refine List.map_congr_left fun j hj => ?_
  rw [hz, if_neg (by have := List.mem_range.mp hj; omega)]

@[simp] theorem length_bbContents (b : BitBuffer) : (bbContents b).length = b.len.toNat := by simp [bbContents]

/-! ### Create and the emptied buffer -/

theorem bitRead_zeroSlots (p : Params) (m : Entries Bit) (i : Nat) :
    bitRead (zeroSlots p m) i = if i < p.bbMax.val then false else bitRead m i := bitRead_memClearBelow ..

theorem capOperand_some {p : Params} {cap : BitVec 32} (h : cap.toNat ≤ p.bbMax.val) :
    ∃ c, capOperand p cap = some c ∧ c.toNat = cap.toNat := by
  have := p.bbMax.isLt
  refine ⟨cap.setWidth 11, by rw [capOperand, if_neg (by omega)], ?_⟩
  rw [BitVec.toNat_setWidth]; exact Nat.mod_eq_of_lt (by omega)

theorem capOperand_none {p : Params} {cap : BitVec 32} (h : p.bbMax.val < cap.toNat) : capOperand p cap = none := by
  rw [capOperand, if_pos h]

theorem capOperand_le {p : Params} {cap : BitVec 32} {c : BitVec 11} (h : capOperand p cap = some c) :
    c.toNat = cap.toNat ∧ cap.toNat ≤ p.bbMax.val := by
  by_cases g : cap.toNat ≤ p.bbMax.val
  · obtain ⟨d, hd, e⟩ := capOperand_some g
    rw [hd] at h; cases h; exact ⟨e, g⟩
  · rw [capOperand_none (by omega)] at h; cases h

theorem BitBuffer.Inv.zeroed {p : Params} {b : BitBuffer} (i : b.Inv p) (j : Nat) :
    bitRead (zeroSlots p b.bits) j = false := by
  rw [bitRead_zeroSlots]; split
  · rfl
  · exact i.2.2 j (by have := i.1; have := i.2.1; omega)

theorem BitBuffer.Inv.emptied {p : Params} {b : BitBuffer} (i : b.Inv p) : (emptied p b).Inv p :=
  ⟨by simp [Machine.emptied], i.2.1, fun j _ => i.zeroed j⟩

/-! ### A buffer that has only grown -/

/-- What pushes and pops make of a buffer: the capacity has risen by steps of 256 within `BB_MAX` (40_bitbuffer.md
R116), the length is within it, and what held of the slots holds. -/
structure Grown (p : Params) (b c : BitBuffer) : Prop where
  valid : c.valid = b.valid
  le : c.len.toNat ≤ c.cap.toNat
  cap : ∃ g, c.cap.toNat = b.cap.toNat + 256 * g ∧ (0 < g → c.cap.toNat ≤ p.bbMax.val)
  inv : b.Inv p → c.Inv p
  zero : (∀ i, b.len.toNat ≤ i → i < p.bbMax.val → bitRead b.bits i = false) →
    ∀ i, c.len.toNat ≤ i → i < p.bbMax.val → bitRead c.bits i = false
  wf : bitsWf b.bits = true → bitsWf c.bits = true

theorem Grown.refl {p : Params} {b : BitBuffer} (h : b.len.toNat ≤ b.cap.toNat) : Grown p b b :=
  ⟨rfl, h, ⟨0, by simp⟩, id, id, id⟩

theorem Grown.trans {p : Params} {a b c : BitBuffer} (h : Grown p a b) (k : Grown p b c) : Grown p a c := by
  obtain ⟨g, e, m⟩ := h.cap
  obtain ⟨g', e', m'⟩ := k.cap
  refine ⟨k.valid.trans h.valid, k.le, ⟨g + g', by omega, fun _ => ?_⟩, k.inv ∘ h.inv, k.zero ∘ h.zero, k.wf ∘ h.wf⟩
  by_cases hg : 0 < g'
  · exact m' hg
  · have := m (by omega); omega

theorem grown_push {p : Params} {bit : Bit} {b c : BitBuffer} (i : b.len.toNat ≤ b.cap.toNat)
    (h : bbPush p bit b = some c) : Grown p b c := by
  obtain ⟨cv, -, cb, cc⟩ := bbPush_some h
  obtain ⟨hlen, hle⟩ := bbPush_len i h
  refine ⟨cv, hle, ?_, fun j => j.push h, fun z j hj hm => ?_, fun w => bitsWf_push w h⟩
  rotate_left
  · rw [cb, bitRead_bitWrite, if_neg (by omega)]; exact z j (by omega) hm
  rcases cc with ⟨-, e⟩ | ⟨-, e, g⟩
  · exact ⟨0, by simp [e]⟩
  · exact ⟨1, by omega, fun _ => g⟩

theorem grown_pop {p : Params} {b : BitBuffer} (i : b.len.toNat ≤ b.cap.toNat) : Grown p b (bbPop b) := by
  obtain ⟨pv, pc, pl, pz⟩ := bbPop_spec b
  refine ⟨pv, by rw [pc, pl]; omega, ⟨0, by simp [pc]⟩, fun j => j.pop, fun z j hj hm => ?_, fun w => bitsWf_pop w⟩
  rw [pz]; split
  · rfl
  · exact z j (by omega) hm

/-! ### Operands and the size of a render -/

theorem bitOperand_ofBit (b : Bit) : bitOperand (if b then 1 else 0) = some b := by cases b <;> decide
@[simp] theorem bitOperand_ofBit' (b : Bit) : bitOperand (if b then 1#32 else 0#32) = some b := by cases b <;> decide

theorem bitOperand_none {b : BitVec 32} (h : 1 < b.toNat) : bitOperand b = none := by
  rw [bitOperand, if_pos h]

theorem bitOperand_some {b : BitVec 32} (h : b.toNat ≤ 1) : bitOperand b = some (b.toNat == 1) := by
  rw [bitOperand, if_neg (by omega)]

theorem toNat_renderNeed (b : BitBuffer) : (renderNeed b).toNat = b.len.toNat + 1 := by
  have := b.len.isLt
  rw [renderNeed, BitVec.toNat_add, BitVec.toNat_setWidth]
  simp only [BitVec.ofNat_eq_ofNat, BitVec.toNat_ofNat]
  omega

theorem renderNeed_result (b : BitBuffer) : (renderNeed b).setWidth 64 = BitVec.ofNat 64 (b.len.toNat + 1) := by
  apply BitVec.eq_of_toNat_eq
  rw [BitVec.toNat_setWidth, toNat_renderNeed, BitVec.toNat_ofNat]

theorem bitChar_eq (b : Bit) : bitChar b = if b then 0x31 else 0x30 := by cases b <;> decide

theorem renderText_eq (b : BitBuffer) :
    renderText b = ((List.range b.len.toNat).map fun i => if bitRead b.bits i then 0x31 else 0x30) ++ [0x00] := by
  simp only [renderText, bbContents, List.map_map]
  congr 1
  exact List.map_congr_left fun i _ => bitChar_eq _

end Sys2Proof.Machine
end

