-- ==== Sys2Proof/Laws/Channels.lean ====
section
/-! SUPPORT. What a pull, a push and the write primitive can do, each said once. -/

namespace Sys2Proof.Machine

/-- A pull on BSI consumes one answer whatever it is (20_memory.md R80). -/
theorem pullBsi_answer {s t : State} {r : Option Byte} (h : pullBsi s = .answer r t) : t = countBsiPull s := by
  unfold pullBsi at h
  split at h <;> cases h <;> rfl

theorem pullBsi_waits {s t : State} (h : pullBsi s = .waits t) :
    t = countBsiPull s ∧ ∃ rest, s.io.bsi = .never :: rest := by
  unfold pullBsi at h
  split at h <;> cases h
  exact ⟨rfl, _, by assumption⟩

/-- What a push can do: one answer is consumed, and only a taken byte is appended to `OUTB` (20_memory.md R72). -/
theorem pushBso_cases (v : Byte) (s : State) :
    pushBso v s = .ok (deliver v (countBsoPush s)) ∨ pushBso v s = .fail (countBsoPush s) ∨
      (pushBso v s = .waits (countBsoPush s) ∧ ∃ rest, s.io.bso = .never :: rest) := by
  unfold pushBso
  split
  · split
    · exact .inl rfl
    · exact .inr (.inl rfl)
  · exact .inl rfl
  · exact .inr (.inl rfl)
  · exact .inr (.inr ⟨rfl, _, by assumption⟩)

/-- A push that was taken had the answer ok, held or free; one that fails, fail, held or free. -/
theorem pushBso_ok {v : Byte} {s t : State} (h : pushBso v s = .ok t) :
    t = deliver v (countBsoPush s) ∧ (s.io.bso = [] ∨ ∃ rest, s.io.bso = .ok :: rest) := by
  unfold pushBso at h
  split at h
  · split at h <;> cases h
    exact ⟨rfl, .inl (by assumption)⟩
  · cases h; exact ⟨rfl, .inr ⟨_, by assumption⟩⟩
  · cases h
  · cases h

theorem pushBso_waits {v : Byte} {s t : State} (h : pushBso v s = .waits t) :
    t = countBsoPush s ∧ ∃ rest, s.io.bso = .never :: rest := by
  unfold pushBso at h
  split at h
  · split at h <;> cases h
  · cases h
  · cases h
  · cases h; exact ⟨rfl, _, by assumption⟩

/-- The stream after one bit is put below offset 7. -/
def putStream (bit : Bit) (b : BitStream) : BitStream :=
  { b with byte := putBit b.byte (streamBit b.off) bit, off := b.off + 1 }

/-- The stream after the eighth bit of a byte is put. -/
def fullStream (bit : Bit) (b : BitStream) : BitStream :=
  { b with byte := putBit b.byte (streamBit b.off) bit, off := 0 }

theorem bsPut_below {bit : Bit} {s : State} (h : s.bs.off.toNat < 7) :
    bsPut bit s = .ok (s.withBs (putStream bit s.bs)) := by
  simp only [bsPut, h, if_true]; rfl

theorem bsPut_full {bit : Bit} {s : State} (h : s.bs.off.toNat = 7) :
    bsPut bit s = pushBso (fullStream bit s.bs).byte (s.withBs (fullStream bit s.bs)) := by
  simp only [bsPut, h, Nat.lt_irrefl, if_false]; rfl

theorem off_lt_or_eq (o : BitVec 3) : o.toNat < 7 ∨ o.toNat = 7 := by
  have := o.isLt; omega

theorem bsPut_waits {bit : Bit} {s t : State} (h : bsPut bit s = .waits t) :
    (∃ rest, s.io.bso = .never :: rest ∧ t.io.bso = rest) ∧ t.io.bsoPushes = s.io.bsoPushes + 1 := by
  rcases off_lt_or_eq s.bs.off with ho | ho
  · rw [bsPut_below ho] at h; cases h
  · rw [bsPut_full ho] at h
    obtain ⟨rfl, rest, e⟩ := pushBso_waits h
    exact ⟨⟨rest, e, by simp [show s.io.bso = .never :: rest from e]⟩, rfl⟩

/-- A put that is done has left BSO alone, or has been taken. -/
theorem bsPut_ok {bit : Bit} {s t : State} (h : bsPut bit s = .ok t) :
    (t.io.bso = s.io.bso ∧ t.io.bsoPushes = s.io.bsoPushes) ∨
    ((s.io.bso = [] ∧ t.io.bso = [] ∨ ∃ rest, s.io.bso = .ok :: rest ∧ t.io.bso = rest) ∧
      t.io.bsoPushes = s.io.bsoPushes + 1) := by
  rcases off_lt_or_eq s.bs.off with ho | ho
  · rw [bsPut_below ho] at h; cases h; exact .inl ⟨rfl, rfl⟩
  · rw [bsPut_full ho] at h
    obtain ⟨rfl, e | ⟨rest, e⟩⟩ := pushBso_ok h
    · exact .inr ⟨.inl ⟨e, by simp [show s.io.bso = [] from e]⟩, rfl⟩
    · exact .inr ⟨.inr ⟨rest, e, by simp [show s.io.bso = .ok :: rest from e]⟩, rfl⟩

/-- Where a put ends, whatever the answer (41_bitstream.md R131): below offset 7 nothing is pushed, at 7 one byte is. -/
theorem bsPut_cases (bit : Bit) (s : State) :
    (s.bs.off.toNat < 7 ∧ bsPut bit s = .ok (s.withBs (putStream bit s.bs))) ∨
    (s.bs.off.toNat = 7 ∧
      (bsPut bit s = .ok (deliver (fullStream bit s.bs).byte (countBsoPush (s.withBs (fullStream bit s.bs)))) ∨
       bsPut bit s = .fail (countBsoPush (s.withBs (fullStream bit s.bs))) ∨
       (bsPut bit s = .waits (countBsoPush (s.withBs (fullStream bit s.bs))) ∧
         ∃ rest, s.io.bso = .never :: rest))) := by
  rcases off_lt_or_eq s.bs.off with h | h
  · exact .inl ⟨h, bsPut_below h⟩
  · right
    refine ⟨h, ?_⟩
    rw [bsPut_full h]
    exact pushBso_cases _ _

end Sys2Proof.Machine
end

