-- ==== Sys2Proof/Laws/Exec.lean ====
section
/-! SUPPORT. What a command can do, said once: `exec_shape`. A command that gives a next state has run a body that
touches only what `BodyFrame` allows it, and then either completed or waits for ever. -/

namespace Sys2Proof.Machine

/-- The commands that write BB (10_state.md R23). -/
def writesBb : Instr → Bool
  | .bbCreate _ | .bbAppend _ | .bbPop | .tbExtract => true
  | _ => false

/-- The commands that write BS (10_state.md R25). -/
def writesBs : Instr → Bool
  | .bsOpenR | .bsOpenW | .bsReadBit | .bsWriteBit _ | .bsWriteBuf | .bsClose => true
  | _ => false

/-- The commands that write FT (10_state.md R27). -/
def writesFt : Instr → Bool
  | .ftCreate _ | .ftScan | .ftInc _ | .ftSet _ _ => true
  | _ => false

/-- The command that writes TB, NM and WS (10_state.md R29). -/
def writesTb : Instr → Bool
  | .tbBuild => true
  | _ => false

/-- The commands that pull BSI. -/
def pullsBsi : Instr → Bool
  | .bsOpenR | .bsReadBit => true
  | _ => false

/-- The commands that push BSO. -/
def pushesBso : Instr → Bool
  | .bsWriteBit _ | .bsWriteBuf => true
  | _ => false

/-- What the body of a command leaves as it was. -/
structure BodyFrame (i : Instr) (s u : State) : Prop where
  err : u.err = s.err
  res : u.res = s.res
  esticky : u.esticky = s.esticky
  ident : u.ident = s.ident
  busy : u.busy = s.busy
  params : u.params = s.params
  port : u.io.port = s.io.port
  responses : u.io.responses = s.io.responses
  bb : writesBb i = false → u.bb = s.bb
  bs : writesBs i = false → u.bs = s.bs
  ft : writesFt i = false → u.ft = s.ft
  tb : writesTb i = false → u.tb = s.tb
  src : i ≠ .ftScan → SameSrc s u
  bsi : pullsBsi i = false → SameBsi s u
  bso : pushesBso i = false → SameBso s u
  codeOut : i ≠ .tbExtract → u.io.codeOut = s.io.codeOut
  renderOut : (∀ st n, i ≠ .bbRender st n) → u.io.renderOut = s.io.renderOut
  outbGrows : s.io.outb <+: u.io.outb
  codeOutGrows : s.io.codeOut <+: u.io.codeOut
  renderOutGrows : s.io.renderOut <+: u.io.renderOut

theorem BodyFrame.refl (i : Instr) (s : State) : BodyFrame i s s := by
  constructor <;> simp [SameSrc, SameBsi, SameBso]

theorem BodyFrame.trans {i : Instr} {s u v : State} (h : BodyFrame i s u) (g : BodyFrame i u v) :
    BodyFrame i s v where
  err := g.err.trans h.err
  res := g.res.trans h.res
  esticky := g.esticky.trans h.esticky
  ident := g.ident.trans h.ident
  busy := g.busy.trans h.busy
  params := g.params.trans h.params
  port := g.port.trans h.port
  responses := g.responses.trans h.responses
  bb w := (g.bb w).trans (h.bb w)
  bs w := (g.bs w).trans (h.bs w)
  ft w := (g.ft w).trans (h.ft w)
  tb w := (g.tb w).trans (h.tb w)
  src w := ⟨(g.src w).1.trans (h.src w).1, (g.src w).2.trans (h.src w).2⟩
  bsi w := ⟨(g.bsi w).1.trans (h.bsi w).1, (g.bsi w).2.trans (h.bsi w).2⟩
  bso w := ⟨(g.bso w).1.trans (h.bso w).1, (g.bso w).2.1.trans (h.bso w).2.1, (g.bso w).2.2.trans (h.bso w).2.2⟩
  codeOut w := (g.codeOut w).trans (h.codeOut w)
  renderOut w := (g.renderOut w).trans (h.renderOut w)
  outbGrows := h.outbGrows.trans g.outbGrows
  codeOutGrows := h.codeOutGrows.trans g.codeOutGrows
  renderOutGrows := h.renderOutGrows.trans g.renderOutGrows

/-- The shape of a next state of a command. -/
def ExecShape (i : Instr) (s t : State) : Prop :=
  ∃ u, BodyFrame i s u ∧
    ((∃ e r, t = complete e r u ∧ (i.wellFormed = true → e ∈ mayEndWith i)) ∨ (t = suspend s u ∧ WaitsOn i s u))

/-! ### Bodies -/

theorem bodyFrame_withBb {i : Instr} (s : State) (x : BitBuffer) (w : writesBb i = true) :
    BodyFrame i s (s.withBb x) := by
  constructor <;> simp [SameSrc, SameBsi, SameBso, w]

theorem bodyFrame_withBs {i : Instr} (s : State) (x : BitStream) (w : writesBs i = true) :
    BodyFrame i s (s.withBs x) := by
  constructor <;> simp [SameSrc, SameBsi, SameBso, w]

theorem bodyFrame_withFt {i : Instr} (s : State) (x : FreqTable) (w : writesFt i = true) :
    BodyFrame i s (s.withFt x) := by
  constructor <;> simp [SameSrc, SameBsi, SameBso, w]

theorem bodyFrame_withTb {i : Instr} (s : State) (x : TreeBuilder) (w : writesTb i = true) :
    BodyFrame i s (s.withTb x) := by
  constructor <;> simp [SameSrc, SameBsi, SameBso, w]

theorem bodyFrame_countBsiPull {i : Instr} (s : State) (w : pullsBsi i = true) :
    BodyFrame i s (countBsiPull s) := by
  constructor <;> simp [SameSrc, SameBsi, SameBso, w]

theorem bodyFrame_countBsoPush {i : Instr} (s : State) (w : pushesBso i = true) :
    BodyFrame i s (countBsoPush s) := by
  constructor <;> simp [SameSrc, SameBsi, SameBso, w]

theorem bodyFrame_deliver {i : Instr} (v : Byte) (s : State) (w : pushesBso i = true) :
    BodyFrame i s (deliver v s) := by
  constructor <;> simp [SameSrc, SameBsi, SameBso, w]

theorem bodyFrame_countSrcPull (s : State) : BodyFrame .ftScan s (countSrcPull s) := by
  constructor <;> simp [SameSrc, SameBsi, SameBso]

theorem bodyFrame_emitCodes (rs : List CodeRecord) (s : State) : BodyFrame .tbExtract s (emitCodes rs s) := by
  constructor <;> simp [SameSrc, SameBsi, SameBso]

theorem bodyFrame_emitChars {st : BitVec 24} {n : BitVec 32} (cs : List Byte) (s : State) :
    BodyFrame (.bbRender st n) s (emitChars cs s) := by
  constructor <;> simp [SameSrc, SameBsi, SameBso]

/-- A put touches the stream and BSO only. -/
theorem bodyFrame_bsPut {i : Instr} (bit : Bit) (s : State) (w : writesBs i = true) (p : pushesBso i = true) {t : State}
    (h : bsPut bit s = .ok t ∨ bsPut bit s = .fail t ∨ bsPut bit s = .waits t) : BodyFrame i s t := by
  have full := (bodyFrame_withBs s (fullStream bit s.bs) w).trans (bodyFrame_countBsoPush _ p)
  rcases bsPut_cases bit s with ⟨_, e⟩ | ⟨_, e | e | ⟨e, _⟩⟩ <;> rw [e] at h <;> simp at h <;> subst h
  · exact bodyFrame_withBs _ _ w
  · exact full.trans (bodyFrame_deliver _ _ p)
  · exact full
  · exact full

/-! ### Ends of a command -/

theorem shape_raise {i : Instr} {s u t : State} {e : ErrCode} {r : Word} (f : BodyFrame i s u) (h : raise e r u = .next t)
    (m : i.wellFormed = true → e ∈ mayEndWith i) : ExecShape i s t := by
  cases h; exact ⟨u, f, .inl ⟨e, r, rfl, m⟩⟩

theorem shape_done {i : Instr} {s u t : State} {r : Word} (f : BodyFrame i s u) (h : done r u = .next t)
    (m : .ok ∈ mayEndWith i) : ExecShape i s t := by
  cases h; exact ⟨u, f, .inl ⟨.ok, r, rfl, fun _ => m⟩⟩

theorem shape_suspend {i : Instr} {s u t : State} (f : BodyFrame i s u) (w : WaitsOn i s u)
    (h : Host.Outcome.next (suspend s u) = (.next t : Result)) : ExecShape i s t := by
  cases h; exact ⟨u, f, .inr ⟨rfl, w⟩⟩

/-- A command that completes a body ends so. -/
theorem ends_complete {i : Instr} {s u : State} {e : ErrCode} {r : Word} (h : exec i s = .next (complete e r u))
    (f : BodyFrame i s u) : Ends i s e r (complete e r u) :=
  ⟨h, rfl, rfl, by simp [f.esticky], by simp [f.responses], f.busy, f.ident, f.params, f.port⟩

/-- A command that raises at once changes nothing else. -/
theorem failsClean_raise {i : Instr} {s : State} {e : ErrCode} (h : exec i s = raise e 0 s) : FailsClean i s e :=
  ⟨complete e 0 s, ends_complete h (.refl i s), ⟨rfl, rfl, rfl, rfl⟩, ⟨rfl, rfl⟩, ⟨rfl, rfl⟩, ⟨rfl, rfl, rfl⟩,
    rfl, rfl⟩

/-- A command that waits for ever. -/
theorem hangs_suspend {i : Instr} {s u : State} (h : exec i s = .next (suspend s u)) (f : BodyFrame i s u)
    (w : WaitsOn i s u) : Hangs i s (suspend s u) :=
  ⟨h, rfl, f.responses, f.port, w⟩

/-- A wait on BSI. -/
theorem waitsOn_bsi {i : Instr} {s u : State} (hi : i = .bsOpenR ∨ i = .bsReadBit) {rest : List PullAnswer}
    (h : s.io.bsi = .never :: rest) (hu : u.io.bsi = s.io.bsi.tail) (hn : u.io.bsiPulls = s.io.bsiPulls + 1) :
    WaitsOn i s u :=
  .inr (.inl ⟨hi, rest, h, by rw [hu, h]; rfl, hn⟩)

/-- A wait of one written bit on BSO. -/
theorem waitsOn_put {b : Bit} {bit : BitVec 32} {s u : State} (h : bsPut b s = .waits u) :
    WaitsOn (.bsWriteBit bit) s u := by
  obtain ⟨⟨rest, h1, h2⟩, h3⟩ := bsPut_waits h
  exact .inr (.inr (.inl ⟨⟨bit, rfl⟩, rest, h1, h2, h3⟩))

/-! ### The loops over a channel -/

/-- Every end of a loop satisfies `P`, every code it raises is in `es`, and a wait satisfies `W`. -/
def EndingOk (P W : State → Prop) (es : List ErrCode) : Ending → Prop
  | .done _ t => P t
  | .raise e _ t => P t ∧ e ∈ es
  | .waits t => P t ∧ W t
  | .unreadable _ => True

theorem shape_conclude {i : Instr} {s t : State} {x : Ending} (es : List ErrCode)
    (hx : EndingOk (BodyFrame i s) (WaitsOn i s) es x) (m0 : .ok ∈ mayEndWith i) (m : ∀ e ∈ es, e ∈ mayEndWith i)
    (h : conclude s x = .next t) : ExecShape i s t := by
  cases x with
  | done r u => exact shape_done hx h m0
  | raise e r u => exact shape_raise hx.1 h fun _ => m e hx.2
  | waits u => exact shape_suspend hx.1 hx.2 h
  | unreadable f => cases h

/-- How far a loop of writes has come when it waits: it has been given ok `k` times, or has run past the held
answers. -/
def BsoGiven (s u : State) : Prop :=
  u.io.bso = [] ∨ ∃ k, s.io.bso = List.replicate k .ok ++ u.io.bso ∧ u.io.bsoPushes = s.io.bsoPushes + k

theorem BsoGiven.put {s u v : State} {b : Bit} (g : BsoGiven s u) (h : bsPut b u = .ok v) : BsoGiven s v := by
  rcases bsPut_ok h with ⟨h1, h2⟩ | ⟨⟨h0, h1⟩ | ⟨rest, h0, h1⟩, h2⟩
  · unfold BsoGiven; rw [h1, h2]; exact g
  · exact .inl h1
  · rcases g with g | ⟨k, g1, g2⟩
    · rw [g] at h0; cases h0
    · refine .inr ⟨k + 1, ?_, by rw [h2, g2]; omega⟩
      rw [g1, h0, h1, List.replicate_succ', List.append_assoc]; rfl

theorem BsoGiven.waits {s u v : State} {b : Bit} (g : BsoGiven s u) (h : bsPut b u = .waits v) :
    WaitsOn .bsWriteBuf s v := by
  obtain ⟨⟨rest, h1, h2⟩, h3⟩ := bsPut_waits h
  rcases g with g | ⟨k, g1, g2⟩
  · rw [g] at h1; cases h1
  · exact .inr (.inr (.inr ⟨rfl, k, rest, by rw [g1, h1], h2, by rw [h3, g2]⟩))

theorem writeBits_ok (bits : List Bit) : ∀ (n : Nat) (s u : State), BodyFrame .bsWriteBuf s u → BsoGiven s u →
    EndingOk (BodyFrame .bsWriteBuf s) (WaitsOn .bsWriteBuf s) [.writeError] (writeBits bits n u) := by
  induction bits with
  | nil => intro n s u f _; exact f
  | cons b rest ih =>
    intro n s u f g
    simp only [writeBits]
    split <;> rename_i v e
    · exact ih _ _ _ (f.trans (bodyFrame_bsPut b u rfl rfl (.inl e))) (g.put e)
    · exact ⟨f.trans (bodyFrame_bsPut b u rfl rfl (.inr (.inl e))), by simp⟩
    · exact ⟨f.trans (bodyFrame_bsPut b u rfl rfl (.inr (.inr e))), g.waits e⟩

theorem scanRest_ok (bytes : List Byte) : ∀ (n : Nat) (s u : State), BodyFrame .ftScan s u →
    EndingOk (BodyFrame .ftScan s) (WaitsOn .ftScan s) [.overflow] (scanRest bytes n u) := by
  induction bytes with
  | nil => intro n s u f; exact f.trans (bodyFrame_countSrcPull u)
  | cons v rest ih =>
    intro n s u f
    have f' := f.trans (bodyFrame_countSrcPull u)
    simp only [scanRest]
    split
    · exact ih _ _ _ (f'.trans (bodyFrame_withFt _ _ rfl))
    · exact ⟨f', by simp⟩
    · trivial

/-- The scan in `u` has taken `bytes` of what SRC answers in `s`. -/
def SrcGiven (bytes : List Byte) (s u : State) : Prop :=
  s.io.src = List.map .data bytes ++ u.io.src ∧ u.io.srcPulls = s.io.srcPulls + bytes.length

theorem scanHeld_ok (answers : List PullAnswer) : ∀ (n : Nat) (bytes : List Byte) (s u : State), BodyFrame .ftScan s u →
    SrcGiven bytes s u → u.io.src = answers →
    EndingOk (BodyFrame .ftScan s) (WaitsOn .ftScan s) [.overflow] (scanHeld answers n u) := by
  induction answers with
  | nil => intro n bytes s u f _ _; exact scanRest_ok _ _ _ _ f
  | cons a rest ih =>
    intro n bytes s u f g hu
    have f' := f.trans (bodyFrame_countSrcPull u)
    have ht : u.io.src.tail = rest := by rw [hu]; rfl
    cases a with
    | noMore => exact f'
    | never =>
      exact ⟨f', .inl ⟨rfl, bytes, rest, by rw [g.1, hu], ht, by show u.io.srcPulls + 1 = _; rw [g.2]⟩⟩
    | data v =>
      simp only [scanHeld]
      split
      · refine ih _ (bytes ++ [v]) _ _ (f'.trans (bodyFrame_withFt _ _ rfl)) ⟨?_, ?_⟩ ht
        · show _ = _ ++ u.io.src.tail
          rw [g.1, ht, hu, List.map_append, List.append_assoc]; rfl
        · show u.io.srcPulls + 1 = _
          rw [g.2, List.length_append]; rfl
      · exact ⟨f', by simp⟩
      · trivial

/-! ### Each command -/

theorem execBbCreate_shape {cap : BitVec 32} {s t : State} (h : execBbCreate cap s = .next t) :
    ExecShape (.bbCreate cap) s t := by
  unfold execBbCreate at h
  split at h
  · exact shape_raise (.refl _ _) h (by simp [mayEndWith])
  · exact shape_done (bodyFrame_withBb _ _ rfl) h (by simp [mayEndWith])

theorem execBbAppend_shape {bit : BitVec 32} {s t : State} (h : execBbAppend bit s = .next t) :
    ExecShape (.bbAppend bit) s t := by
  unfold execBbAppend at h
  split at h
  · exact shape_raise (.refl _ _) h (by simp [mayEndWith])
  split at h
  · exact shape_raise (.refl _ _) h (by simp [mayEndWith])
  split at h
  · exact shape_raise (.refl _ _) h (by simp [mayEndWith])
  · exact shape_done (bodyFrame_withBb _ _ rfl) h (by simp [mayEndWith])

theorem execBbPop_shape {s t : State} (h : execBbPop s = .next t) : ExecShape .bbPop s t := by
  unfold execBbPop at h
  split at h
  · exact shape_raise (.refl _ _) h (by simp [mayEndWith])
  · exact shape_done (bodyFrame_withBb _ _ rfl) h (by simp [mayEndWith])

theorem execBbRender_shape {st : BitVec 24} {n : BitVec 32} {s t : State} (h : execBbRender st n s = .next t) :
    ExecShape (.bbRender st n) s t := by
  unfold execBbRender at h
  split at h
  · rename_i w
    exact shape_raise (.refl _ _) h (by simp [Instr.wellFormed, w])
  split at h
  · exact shape_raise (.refl _ _) h (by simp [mayEndWith])
  split at h
  · exact shape_done (.refl _ _) h (by simp [mayEndWith])
  split at h
  · exact shape_raise (.refl _ _) h (by simp [mayEndWith])
  · exact shape_done (bodyFrame_emitChars _ _) h (by simp [mayEndWith])

theorem execBsOpenR_shape {s t : State} (h : execBsOpenR s = .next t) : ExecShape .bsOpenR s t := by
  unfold execBsOpenR at h
  split at h
  · exact shape_raise (.refl _ _) h (by simp [mayEndWith])
  split at h <;> rename_i e
  · cases pullBsi_answer e
    exact shape_done (((bodyFrame_withBs _ _ rfl).trans (bodyFrame_countBsiPull _ rfl)).trans
      (bodyFrame_withBs _ _ rfl)) h (by simp [mayEndWith])
  · obtain ⟨hu, rest, hb⟩ := pullBsi_waits e
    cases hu
    exact shape_suspend ((bodyFrame_withBs _ _ rfl).trans (bodyFrame_countBsiPull _ rfl))
      (waitsOn_bsi (.inl rfl) hb rfl rfl) h

theorem execBsOpenW_shape {s t : State} (h : execBsOpenW s = .next t) : ExecShape .bsOpenW s t := by
  unfold execBsOpenW at h
  split at h
  · exact shape_raise (.refl _ _) h (by simp [mayEndWith])
  · exact shape_done (bodyFrame_withBs _ _ rfl) h (by simp [mayEndWith])

theorem execBsReadBit_shape {s t : State} (h : execBsReadBit s = .next t) : ExecShape .bsReadBit s t := by
  unfold execBsReadBit at h
  split at h
  · exact shape_raise (.refl _ _) h (by simp [mayEndWith])
  split at h
  · exact shape_raise (.refl _ _) h (by simp [mayEndWith])
  simp only at h
  split at h
  · exact shape_done (bodyFrame_withBs _ _ rfl) h (by simp [mayEndWith])
  split at h <;> rename_i e
  · cases pullBsi_answer e
    exact shape_done (((bodyFrame_withBs _ _ rfl).trans (bodyFrame_countBsiPull _ rfl)).trans
      (bodyFrame_withBs _ _ rfl)) h (by simp [mayEndWith])
  · obtain ⟨hu, rest, hb⟩ := pullBsi_waits e
    cases hu
    exact shape_suspend ((bodyFrame_withBs _ _ rfl).trans (bodyFrame_countBsiPull _ rfl))
      (waitsOn_bsi (.inr rfl) hb rfl rfl) h

theorem execBsWriteBit_shape {bit : BitVec 32} {s t : State} (h : execBsWriteBit bit s = .next t) :
    ExecShape (.bsWriteBit bit) s t := by
  unfold execBsWriteBit at h
  split at h
  · exact shape_raise (.refl _ _) h (by simp [mayEndWith])
  split at h
  · exact shape_raise (.refl _ _) h (by simp [mayEndWith])
  split at h <;> rename_i e
  · exact shape_done (bodyFrame_bsPut _ _ rfl rfl (.inl e)) h (by simp [mayEndWith])
  · exact shape_raise (bodyFrame_bsPut _ _ rfl rfl (.inr (.inl e))) h (by simp [mayEndWith])
  · exact shape_suspend (bodyFrame_bsPut _ _ rfl rfl (.inr (.inr e))) (waitsOn_put e) h

theorem execBsWriteBuf_shape {s t : State} (h : execBsWriteBuf s = .next t) : ExecShape .bsWriteBuf s t := by
  unfold execBsWriteBuf at h
  split at h
  · exact shape_raise (.refl _ _) h (by simp [mayEndWith])
  split at h
  · exact shape_raise (.refl _ _) h (by simp [mayEndWith])
  · exact shape_conclude _ (writeBits_ok _ _ _ _ (.refl _ _) (.inr ⟨0, rfl, rfl⟩)) (by simp [mayEndWith]) (by simp [mayEndWith]) h

theorem execBsAtEnd_shape {s t : State} (h : execBsAtEnd s = .next t) : ExecShape .bsAtEnd s t := by
  unfold execBsAtEnd at h
  split at h
  · exact shape_raise (.refl _ _) h (by simp [mayEndWith])
  · exact shape_done (.refl _ _) h (by simp [mayEndWith])

theorem execBsClose_shape {s t : State} (h : execBsClose s = .next t) : ExecShape .bsClose s t := by
  unfold execBsClose at h
  split at h
  · exact shape_done (bodyFrame_withBs _ _ rfl) h (by simp [mayEndWith])
  · exact shape_done (.refl _ _) h (by simp [mayEndWith])

theorem execFtCreate_shape {size : BitVec 24} {s t : State} (h : execFtCreate size s = .next t) :
    ExecShape (.ftCreate size) s t := by
  unfold execFtCreate at h
  split at h
  · exact shape_raise (.refl _ _) h (by simp [mayEndWith])
  · exact shape_done (bodyFrame_withFt _ _ rfl) h (by simp [mayEndWith])

theorem execFtScan_shape {s t : State} (h : execFtScan s = .next t) : ExecShape .ftScan s t := by
  unfold execFtScan at h
  split at h
  · exact shape_raise (.refl _ _) h (by simp [mayEndWith])
  · exact shape_conclude _ (scanHeld_ok _ _ [] _ _ (.refl _ _) ⟨rfl, rfl⟩ rfl) (by simp [mayEndWith]) (by simp [mayEndWith]) h

theorem execFtInc_shape {sym : BitVec 24} {s t : State} (h : execFtInc sym s = .next t) : ExecShape (.ftInc sym) s t := by
  unfold execFtInc at h
  split at h
  · exact shape_raise (.refl _ _) h (by simp [mayEndWith])
  split at h
  · exact shape_raise (.refl _ _) h (by simp [mayEndWith])
  split at h
  · exact shape_done (bodyFrame_withFt _ _ rfl) h (by simp [mayEndWith])
  · exact shape_raise (.refl _ _) h (by simp [mayEndWith])
  · cases h

theorem execFtSet_shape {sym : BitVec 24} {c : BitVec 32} {s t : State} (h : execFtSet sym c s = .next t) :
    ExecShape (.ftSet sym c) s t := by
  unfold execFtSet at h
  split at h
  · exact shape_raise (.refl _ _) h (by simp [mayEndWith])
  split at h
  · exact shape_raise (.refl _ _) h (by simp [mayEndWith])
  · exact shape_done (bodyFrame_withFt _ _ rfl) h (by simp [mayEndWith])

theorem execFtGet_shape {sym : BitVec 24} {s t : State} (h : execFtGet sym s = .next t) : ExecShape (.ftGet sym) s t := by
  unfold execFtGet at h
  split at h
  · exact shape_raise (.refl _ _) h (by simp [mayEndWith])
  split at h
  · exact shape_raise (.refl _ _) h (by simp [mayEndWith])
  split at h
  · exact shape_done (.refl _ _) h (by simp [mayEndWith])
  · cases h

theorem execTbBuild_shape {s t : State} (h : execTbBuild s = .next t) : ExecShape .tbBuild s t := by
  unfold execTbBuild at h
  split at h
  · exact shape_raise (.refl _ _) h (by simp [mayEndWith])
  split at h
  · cases h
  · exact shape_raise (bodyFrame_withTb _ _ rfl) h (by simp [mayEndWith])
  split at h
  · exact shape_done (bodyFrame_withTb _ _ rfl) h (by simp [mayEndWith])
  split at h
  · cases h
  · exact shape_raise (bodyFrame_withTb _ _ rfl) h (by simp [mayEndWith])
  · exact shape_done (bodyFrame_withTb _ _ rfl) h (by simp [mayEndWith])

theorem execTbExtract_shape {s t : State} (h : execTbExtract s = .next t) : ExecShape .tbExtract s t := by
  unfold execTbExtract at h
  split at h
  · exact shape_raise (.refl _ _) h (by simp [mayEndWith])
  split at h
  · exact shape_done (bodyFrame_withBb _ _ rfl) h (by simp [mayEndWith])
  split at h
  · cases h
  · exact shape_raise ((bodyFrame_withBb _ _ rfl).trans (bodyFrame_emitCodes _ _)) h (by simp [mayEndWith])
  · exact shape_done ((bodyFrame_withBb _ _ rfl).trans (bodyFrame_emitCodes _ _)) h (by simp [mayEndWith])

theorem execTbNode_shape {idx : BitVec 24} {fsel : BitVec 32} {s t : State} (h : execTbNode idx fsel s = .next t) :
    ExecShape (.tbNode idx fsel) s t := by
  unfold execTbNode at h
  split at h
  · rename_i w
    exact shape_raise (.refl _ _) h (by simp [Instr.wellFormed, w])
  split at h
  · exact shape_raise (.refl _ _) h (by simp [mayEndWith])
  split at h
  · exact shape_done (.refl _ _) h (by simp [mayEndWith])
  · cases h

/-- What a command can do: a next state is the completion of a body within its frame, with a code of its row of
60_exceptions.md R233, or the state before it with a channel that never answers. -/
theorem exec_shape {i : Instr} {s t : State} (h : exec i s = .next t) : ExecShape i s t := by
  cases i with
  | bbCreate cap => exact execBbCreate_shape h
  | bbAppend bit => exact execBbAppend_shape h
  | bbPop => exact execBbPop_shape h
  | bbRender st n => exact execBbRender_shape h
  | bsOpenR => exact execBsOpenR_shape h
  | bsOpenW => exact execBsOpenW_shape h
  | bsReadBit => exact execBsReadBit_shape h
  | bsWriteBit bit => exact execBsWriteBit_shape h
  | bsWriteBuf => exact execBsWriteBuf_shape h
  | bsAtEnd => exact execBsAtEnd_shape h
  | bsClose => exact execBsClose_shape h
  | ftCreate size => exact execFtCreate_shape h
  | ftScan => exact execFtScan_shape h
  | ftInc sym => exact execFtInc_shape h
  | ftSet sym c => exact execFtSet_shape h
  | ftGet sym => exact execFtGet_shape h
  | tbBuild => exact execTbBuild_shape h
  | tbExtract => exact execTbExtract_shape h
  | tbNode idx fsel => exact execTbNode_shape h

end Sys2Proof.Machine
end

