-- ==== Sys2Proof/Laws/BitStream.lean ====
section
/-! SUPPORT. The bit stream as bits: the partial byte of a write stream, the bits a read stream has still to give, and
what a run of writes or reads makes of them (41_bitstream.md R131, R134, R137, R140). -/

namespace Sys2Proof.Machine

/-! ### One position of a byte -/

theorem getLsbD_putBit (v : Byte) {i : Nat} (hi : i < 8) (bit : Bit) {j : Nat} (hj : j < 8) :
    (putBit v i bit).getLsbD j = if j = i then bit else v.getLsbD j := by
  unfold putBit
  have h1 : (1#8 <<< i).getLsbD j = decide (j = i) := by
    rw [BitVec.getLsbD_shiftLeft, BitVec.getLsbD_one]
    simp only [hj, decide_true, Bool.true_and]
    by_cases h : j = i
    · subst h; simp
    · by_cases h' : j < i
      · simp [h, h']
      · have : j - i ≠ 0 := by omega
        simp [h, this]
  cases bit
  · simp only [Bool.false_eq_true, if_false, BitVec.getLsbD_and, BitVec.getLsbD_not, hj, decide_true, h1, Bool.true_and]
    by_cases h : j = i <;> simp [h]
  · simp only [if_true, BitVec.getLsbD_or, h1]
    by_cases h : j = i <;> simp [h]

theorem streamBit_lt (o : BitVec 3) : streamBit o < 8 := by unfold streamBit; omega

/-! ### Bits and bytes (20_memory.md R68) -/

/-- The bits of a byte, most significant bit first. -/
def bitsOfByte (v : Byte) : List Bit := (List.range 8).map fun o => v.getLsbD (7 - o)

theorem bitsOfByte_eq (v : Byte) : bitsOfByte v = [v.getLsbD 7, v.getLsbD 6, v.getLsbD 5, v.getLsbD 4, v.getLsbD 3,
    v.getLsbD 2, v.getLsbD 1, v.getLsbD 0] := rfl

@[simp] theorem length_bitsOfByte (v : Byte) : (bitsOfByte v).length = 8 := rfl

theorem bitsOfByte_ofBits (b0 b1 b2 b3 b4 b5 b6 b7 : Bit) :
    bitsOfByte (BitVec.ofBoolListBE [b0, b1, b2, b3, b4, b5, b6, b7]) = [b0, b1, b2, b3, b4, b5, b6, b7] := by
  revert b0 b1 b2 b3 b4 b5 b6 b7; decide

theorem bitsOfByte_inj {v w : Byte} (h : bitsOfByte v = bitsOfByte w) : v = w := by
  simp only [bitsOfByte_eq, List.cons.injEq, and_true] at h
  apply BitVec.eq_of_getLsbD_eq
  intro i hi
  obtain ⟨h7, h6, h5, h4, h3, h2, h1, h0⟩ := h
  interval_cases i <;> assumption

theorem packBytes_short {l : List Bit} (h : l.length < 8) : packBytes l = [] := by
  match l with
  | [] | [_] | [_, _] | [_, _, _] | [_, _, _, _] | [_, _, _, _, _] | [_, _, _, _, _, _]
  | [_, _, _, _, _, _, _] => rfl
  | _ :: _ :: _ :: _ :: _ :: _ :: _ :: _ :: _ => simp at h; omega

/-- Eight bits are a byte. -/
theorem packBytes_byte (v : Byte) (rest : List Bit) : packBytes (bitsOfByte v ++ rest) = v :: packBytes rest := by
  rw [bitsOfByte_eq]
  simp only [List.cons_append, List.nil_append, packBytes]
  congr 1
  apply bitsOfByte_inj
  rw [bitsOfByte_ofBits, bitsOfByte_eq]

theorem exists_byte {l : List Bit} (h : l.length = 8) : ∃ v, bitsOfByte v = l := by
  match l, h with
  | [b0, b1, b2, b3, b4, b5, b6, b7], _ => exact ⟨_, bitsOfByte_ofBits b0 b1 b2 b3 b4 b5 b6 b7⟩

theorem length_packBytes : ∀ (n : Nat) (l : List Bit), l.length ≤ n → (packBytes l).length = l.length / 8
  | 0, l, h => by rw [packBytes_short (by omega)]; simp; omega
  | n + 1, l, h => by
    by_cases h8 : l.length < 8
    · rw [packBytes_short h8]; simp; omega
    · obtain ⟨v, hv⟩ := exists_byte (l := l.take 8) (by simp; omega)
      have hl : l = bitsOfByte v ++ l.drop 8 := by rw [hv, List.take_append_drop]
      rw [hl, packBytes_byte, List.length_cons, length_packBytes n (l.drop 8) (by simp; omega)]
      simp only [List.length_append, length_bitsOfByte, List.length_drop]
      omega

/-- The bits of the packed bytes are the bits of the whole bytes. -/
theorem bits_packBytes : ∀ (n : Nat) (l : List Bit), l.length ≤ n →
    (packBytes l).flatMap bitsOfByte = l.take (8 * (l.length / 8))
  | 0, l, h => by rw [packBytes_short (by omega), show l.length / 8 = 0 by omega]; simp
  | n + 1, l, h => by
    by_cases h8 : l.length < 8
    · rw [packBytes_short h8, show l.length / 8 = 0 by omega]; simp
    · obtain ⟨v, hv⟩ := exists_byte (l := l.take 8) (by simp; omega)
      have hl : l = bitsOfByte v ++ l.drop 8 := by rw [hv, List.take_append_drop]
      rw [hl, packBytes_byte, List.flatMap_cons, bits_packBytes n (l.drop 8) (by simp; omega)]
      have hn : (bitsOfByte v ++ l.drop 8).length / 8 = (l.drop 8).length / 8 + 1 := by
        simp only [List.length_append, length_bitsOfByte]; omega
      rw [hn, show 8 * ((l.drop 8).length / 8 + 1) = (bitsOfByte v).length + 8 * ((l.drop 8).length / 8) by
        rw [length_bitsOfByte]; omega, List.take_length_add_append]

/-- The bits after the last whole byte are not packed. -/
theorem packBytes_whole : ∀ (n : Nat) (l : List Bit), l.length ≤ n → packBytes (l.take (8 * (l.length / 8))) = packBytes l
  | 0, l, h => by rw [show l.length / 8 = 0 by omega, packBytes_short (l := l) (by omega)]; rfl
  | n + 1, l, h => by
    by_cases h8 : l.length < 8
    · rw [packBytes_short h8, show l.length / 8 = 0 by omega]; rfl
    · obtain ⟨v, hv⟩ := exists_byte (l := l.take 8) (by simp; omega)
      have hl : l = bitsOfByte v ++ l.drop 8 := by rw [hv, List.take_append_drop]
      have hn : 8 * ((bitsOfByte v ++ l.drop 8).length / 8) =
          (bitsOfByte v).length + 8 * ((l.drop 8).length / 8) := by
        simp only [List.length_append, length_bitsOfByte]; omega
      rw [hl, hn, List.take_length_add_append, packBytes_byte, packBytes_byte,
        packBytes_whole n (l.drop 8) (by simp; omega)]

/-! ### Writing -/

@[simp] theorem length_partialBits (b : BitStream) : (partialBits b).length = b.off.toNat := by simp [partialBits]

@[simp] theorem length_bitsToWrite (s : State) : (bitsToWrite s).length = s.bs.off.toNat + s.bb.len.toNat := by
  simp [bitsToWrite]

theorem partialBits_put {b : BitStream} (h : b.off.toNat < 7) (bit : Bit) :
    partialBits (putStream bit b) = partialBits b ++ [bit] := by
  have ho : (b.off + 1).toNat = b.off.toNat + 1 := by
    rw [BitVec.toNat_add]; exact Nat.mod_eq_of_lt (by simp; omega)
  show ((List.range (b.off + 1).toNat).map fun o => (putBit b.byte (streamBit b.off) bit).getLsbD (7 - o)) = _
  rw [ho, List.range_succ, List.map_append]
  congr 1
  · refine List.map_congr_left fun o ho => ?_
    have := List.mem_range.mp ho
    rw [getLsbD_putBit _ (streamBit_lt _) _ (by omega), if_neg (by unfold streamBit; omega)]
  · simp only [List.map_cons, List.map_nil]
    rw [getLsbD_putBit _ (streamBit_lt _) _ (by omega), streamBit, if_pos rfl]

theorem bitsOfByte_full {b : BitStream} (h : b.off.toNat = 7) (bit : Bit) :
    bitsOfByte (fullStream bit b).byte = partialBits b ++ [bit] := by
  show ((List.range 8).map fun o => (putBit b.byte (streamBit b.off) bit).getLsbD (7 - o)) = _
  have h8 : List.range 8 = List.range b.off.toNat ++ [b.off.toNat] := by rw [h]; rfl
  rw [h8, List.map_append]
  congr 1
  · refine List.map_congr_left fun o ho => ?_
    have := List.mem_range.mp ho
    rw [getLsbD_putBit _ (streamBit_lt _) _ (by omega), if_neg (by unfold streamBit; omega)]
  · simp only [List.map_cons, List.map_nil]
    rw [getLsbD_putBit _ (streamBit_lt _) _ (by omega), streamBit, if_pos rfl]

/-- What writes that are all taken change of a state: the stream and BSO. -/
structure Wrote (bits : List Bit) (pushes : Nat) (s t : State) : Prop where
  outb : t.io.outb = s.io.outb ++ packBytes (partialBits s.bs ++ bits)
  partialBits : partialBits t.bs =
    (partialBits s.bs ++ bits).drop (8 * ((partialBits s.bs ++ bits).length / 8))
  isOpen : t.bs.isOpen = s.bs.isOpen
  mode : t.bs.mode = s.bs.mode
  eos : t.bs.eos = s.bs.eos
  bso : t.io.bso = s.io.bso.drop pushes
  pushed : t.io.bsoPushes = s.io.bsoPushes + pushes

theorem Wrote.refl (s : State) : Wrote [] 0 s s := by
  have h : s.bs.off.toNat < 8 := s.bs.off.isLt
  constructor <;> simp [packBytes_short, h]
  rw [show s.bs.off.toNat / 8 = 0 by omega]; simp

/-- One bit below offset 7, then the others. -/
theorem Wrote.cons_put {bit : Bit} {bits : List Bit} {n : Nat} {s u : State} (h : s.bs.off.toNat < 7)
    (w : Wrote bits n (s.withBs (putStream bit s.bs)) u) : Wrote (bit :: bits) n s u := by
  have e : Machine.partialBits (s.withBs (putStream bit s.bs)).bs ++ bits =
      Machine.partialBits s.bs ++ bit :: bits := by
    rw [withBs_bs, partialBits_put h, List.append_assoc]; rfl
  obtain ⟨w1, w2, w3, w4, w5, w6, w7⟩ := w
  rw [e] at w1 w2
  exact ⟨w1, w2, w3, w4, w5, w6, w7⟩

/-- The eighth bit of a byte that BSO takes, then the others. -/
theorem Wrote.cons_full {bit : Bit} {bits : List Bit} {n : Nat} {s u : State} (h : s.bs.off.toNat = 7)
    (w : Wrote bits n (deliver (fullStream bit s.bs).byte (countBsoPush (s.withBs (fullStream bit s.bs)))) u) :
    Wrote (bit :: bits) (n + 1) s u := by
  have e : Machine.partialBits s.bs ++ bit :: bits = bitsOfByte (fullStream bit s.bs).byte ++ bits := by
    rw [bitsOfByte_full h, List.append_assoc]; rfl
  have e0 : Machine.partialBits
      (deliver (fullStream bit s.bs).byte (countBsoPush (s.withBs (fullStream bit s.bs)))).bs = [] := rfl
  obtain ⟨w1, w2, w3, w4, w5, w6, w7⟩ := w
  rw [e0, List.nil_append] at w1 w2
  refine ⟨?_, ?_, w3, w4, w5, ?_, ?_⟩
  · rw [e, packBytes_byte, w1]; simp
  · rw [w2, e, show (bitsOfByte (fullStream bit s.bs).byte ++ bits).length = bits.length + 8 by
      simp [Nat.add_comm]]
    rw [show 8 * ((bits.length + 8) / 8) = (bitsOfByte (fullStream bit s.bs).byte).length + 8 * (bits.length / 8) by
      rw [length_bitsOfByte]; omega, ← List.drop_drop, List.drop_left]
  · rw [w6]; simp
  · rw [w7]; simp; omega

/-- One bit put at offset 7 with a held answer. -/
theorem bsPut_full_ok {bit : Bit} {s : State} {rest : List PushAnswer} (h : s.bs.off.toNat = 7)
    (ha : s.io.bso = .ok :: rest) :
    bsPut bit s = .ok (deliver (fullStream bit s.bs).byte (countBsoPush (s.withBs (fullStream bit s.bs)))) := by
  rw [bsPut_full h]; simp [pushBso, ha]

theorem bsPut_full_fail {bit : Bit} {s : State} {rest : List PushAnswer} (h : s.bs.off.toNat = 7)
    (ha : s.io.bso = .fail :: rest) :
    bsPut bit s = .fail (countBsoPush (s.withBs (fullStream bit s.bs))) := by
  rw [bsPut_full h]; simp [pushBso, ha]

theorem bsPut_full_never {bit : Bit} {s : State} {rest : List PushAnswer} (h : s.bs.off.toNat = 7)
    (ha : s.io.bso = .never :: rest) :
    bsPut bit s = .waits (countBsoPush (s.withBs (fullStream bit s.bs))) := by
  rw [bsPut_full h]; simp [pushBso, ha]

/-- What a run of puts changes at most: stream and BSO. -/
theorem bodyFrame_put {i : Instr} (w : writesBs i = true) (p : pushesBso i = true) {bit : Bit} {s t : State}
    (h : bsPut bit s = .ok t) : BodyFrame i s t := bodyFrame_bsPut bit s w p (.inl h)

/-- A loop of writes whose pushes are taken (41_bitstream.md R137), then the rest of the bits. -/
theorem writeBits_taken (more : List Bit) (rest : List PushAnswer) : ∀ (bits : List Bit) (i k : Nat) (s : State),
    k = (s.bs.off.toNat + bits.length) / 8 → s.io.bso = List.replicate k .ok ++ rest →
    ∃ u, writeBits (bits ++ more) i s = writeBits more (i + bits.length) u ∧ Wrote bits k s u ∧
      BodyFrame .bsWriteBuf s u
  | [], i, k, s, hk, hb => by
    have := s.bs.off.isLt
    rw [List.length_nil] at hk
    have hk : k = 0 := by omega
    subst hk
    exact ⟨s, rfl, .refl s, .refl _ s⟩
  | b :: bits, i, k, s, hk, hb => by
    rw [List.length_cons] at hk
    rcases off_lt_or_eq s.bs.off with h | h
    · have hp := bsPut_below (bit := b) h
      have ho : (putStream b s.bs).off.toNat = s.bs.off.toNat + 1 := by
        rw [← length_partialBits, partialBits_put h]; simp
      obtain ⟨u, e, w, f⟩ := writeBits_taken more rest bits (i + 1) k (s.withBs (putStream b s.bs))
        (by rw [hk, withBs_bs, ho]; congr 1; omega) hb
      refine ⟨u, ?_, w.cons_put h, (bodyFrame_put rfl rfl hp).trans f⟩
      rw [List.cons_append, writeBits, hp, List.length_cons]
      simp only
      rw [e, Nat.add_assoc, Nat.add_comm 1]
    · obtain ⟨k', rfl⟩ : ∃ k', k = k' + 1 := ⟨k - 1, by omega⟩
      rw [List.replicate_succ, List.cons_append] at hb
      have hp := bsPut_full_ok (bit := b) h hb
      obtain ⟨u, e, w, f⟩ := writeBits_taken more rest bits (i + 1) k'
        (deliver (fullStream b s.bs).byte (countBsoPush (s.withBs (fullStream b s.bs))))
        (by show k' = (0 + bits.length) / 8; omega) (by simp [hb])
      refine ⟨u, ?_, w.cons_full h, (bodyFrame_put rfl rfl hp).trans f⟩
      rw [List.cons_append, writeBits, hp, List.length_cons]
      simp only
      rw [e, Nat.add_assoc, Nat.add_comm 1]

/-- The loop of writes up to the bit that completes byte number `j`, the pushes before it taken. -/
theorem writeBits_toByte {bits : List Bit} {j : Nat} {s : State} {rest : List PushAnswer}
    (h : 8 * (j + 1) ≤ s.bs.off.toNat + bits.length) (hb : s.io.bso = List.replicate j .ok ++ rest) :
    ∃ pre b post u, bits = pre ++ b :: post ∧ s.bs.off.toNat + pre.length = 8 * j + 7 ∧
      writeBits bits 0 s = writeBits (b :: post) pre.length u ∧ Wrote pre j s u ∧ BodyFrame .bsWriteBuf s u ∧
      u.io.bso = rest := by
  have ho := s.bs.off.isLt
  obtain ⟨b, post, hd⟩ : ∃ b post, bits.drop (8 * j + 7 - s.bs.off.toNat) = b :: post := by
    cases hx : bits.drop (8 * j + 7 - s.bs.off.toNat) with
    | nil => have := congrArg List.length hx; simp at this; omega
    | cons b post => exact ⟨b, post, rfl⟩
  have hl : (bits.take (8 * j + 7 - s.bs.off.toNat)).length = 8 * j + 7 - s.bs.off.toNat := by
    rw [List.length_take]; omega
  obtain ⟨u, e, w, f⟩ := writeBits_taken (b :: post) rest (bits.take (8 * j + 7 - s.bs.off.toNat)) 0 j s
    (by rw [hl]; omega) hb
  have hs : bits = bits.take (8 * j + 7 - s.bs.off.toNat) ++ b :: post := by rw [← hd, List.take_append_drop]
  refine ⟨_, b, post, u, hs, by rw [hl]; omega, ?_, w, f, by rw [w.bso, hb]; simp⟩
  rw [← hs, Nat.zero_add] at e
  exact e

/-- Seven bits over whole bytes: the offset is 7, and the next bit completes the byte. -/
theorem Wrote.completes {pre post : List Bit} {b : Bit} {j k : Nat} {s u : State} (w : Wrote pre k s u)
    (h : s.bs.off.toNat + pre.length = 8 * j + 7) :
    u.bs.off.toNat = 7 ∧
      u.io.outb = s.io.outb ++ packBytes ((Machine.partialBits s.bs ++ (pre ++ b :: post)).take (8 * j)) ∧
      [(fullStream b u.bs).byte] =
        packBytes (((Machine.partialBits s.bs ++ (pre ++ b :: post)).drop (8 * j)).take 8) := by
  have hl : (Machine.partialBits s.bs ++ pre).length = 8 * j + 7 := by simp [h]
  have hd : (Machine.partialBits s.bs ++ pre).length / 8 = j := by omega
  have h7 : u.bs.off.toNat = 7 := by rw [← length_partialBits, w.partialBits, hd, List.length_drop, hl]; omega
  have hall : Machine.partialBits s.bs ++ (pre ++ b :: post) = (Machine.partialBits s.bs ++ pre) ++ b :: post := by simp
  refine ⟨h7, ?_, ?_⟩
  · rw [w.outb, hall, List.take_append_of_le_length (by omega)]
    congr 1
    have := packBytes_whole _ (Machine.partialBits s.bs ++ pre) (Nat.le_refl _)
    rw [hd] at this
    exact this.symm
  · rw [hall, List.drop_append_of_le_length (by omega), ← hd, ← w.partialBits,
      show Machine.partialBits u.bs ++ b :: post = (Machine.partialBits u.bs ++ [b]) ++ post by simp, ← bitsOfByte_full h7,
      List.take_append_of_le_length (by simp), List.take_of_length_le (by simp)]
    have := packBytes_byte (fullStream b u.bs).byte []
    rw [List.append_nil] at this
    rw [this]; rfl

/-- The loop of writes past `k` held answers that take their pushes, whatever the free ones after them are: all bits
are written, or the first push that fails ends it (41_bitstream.md R137). -/
theorem writeBits_free : ∀ (bits : List Bit) (i k : Nat) (s : State), s.io.bso = List.replicate k .ok →
    k ≤ (s.bs.off.toNat + bits.length) / 8 →
    (∃ u, writeBits bits i s = .done (u.bb.len.setWidth 64) u ∧ Wrote bits ((s.bs.off.toNat + bits.length) / 8) s u ∧
      BodyFrame .bsWriteBuf s u) ∨
    ∃ pre b post u, bits = pre ++ b :: post ∧ u.bs.off.toNat = 7 ∧ k ≤ (s.bs.off.toNat + pre.length) / 8 ∧
      Wrote pre ((s.bs.off.toNat + pre.length) / 8) s u ∧ BodyFrame .bsWriteBuf s u ∧
      writeBits bits i s =
        .raise .writeError (BitVec.ofNat 64 (i + pre.length)) (countBsoPush (u.withBs (fullStream b u.bs)))
  | [], i, k, s, hb, _ => by
    have := s.bs.off.isLt
    refine .inl ⟨s, rfl, ?_, .refl _ s⟩
    rw [List.length_nil, show (s.bs.off.toNat + 0) / 8 = 0 by omega]
    exact .refl s
  | b :: bits, i, k, s, hb, hk => by
    rw [List.length_cons] at hk
    have full : s.bs.off.toNat = 7 →
        bsPut b s = .ok (deliver (fullStream b s.bs).byte (countBsoPush (s.withBs (fullStream b s.bs)))) →
        (∃ u, writeBits (b :: bits) i s = .done (u.bb.len.setWidth 64) u ∧
          Wrote (b :: bits) ((s.bs.off.toNat + (b :: bits).length) / 8) s u ∧ BodyFrame .bsWriteBuf s u) ∨
        ∃ pre c post u, b :: bits = pre ++ c :: post ∧ u.bs.off.toNat = 7 ∧
          k ≤ (s.bs.off.toNat + pre.length) / 8 ∧
          Wrote pre ((s.bs.off.toNat + pre.length) / 8) s u ∧ BodyFrame .bsWriteBuf s u ∧
          writeBits (b :: bits) i s =
            .raise .writeError (BitVec.ofNat 64 (i + pre.length)) (countBsoPush (u.withBs (fullStream c u.bs))) := by
      intro h hp
      have hoff : (deliver (fullStream b s.bs).byte (countBsoPush (s.withBs (fullStream b s.bs)))).bs.off.toNat = 0 := rfl
      have hn : ∀ n, (0 + n) / 8 + 1 = (s.bs.off.toNat + (n + 1)) / 8 := by intro n; omega
      rw [writeBits, hp]
      rcases writeBits_free bits (i + 1) (k - 1)
          (deliver (fullStream b s.bs).byte (countBsoPush (s.withBs (fullStream b s.bs))))
          (by cases k <;> simp [hb, List.replicate_succ]) (by rw [hoff]; omega) with
        ⟨u, e, w, f⟩ | ⟨pre, c, post, u, rfl, h7, hk', w, f, e⟩
      · have w := w.cons_full h
        rw [hoff, hn] at w
        exact .inl ⟨u, e, w, (bodyFrame_put rfl rfl hp).trans f⟩
      · have w := w.cons_full h
        rw [hoff] at hk'
        rw [hoff, hn] at w
        refine .inr ⟨b :: pre, c, post, u, rfl, h7, ?_, w, (bodyFrame_put rfl rfl hp).trans f, ?_⟩
        · rw [List.length_cons, ← hn]; omega
        · simp only
          rw [e, List.length_cons, Nat.add_assoc, Nat.add_comm 1]
    rcases bsPut_cases b s with ⟨h, hp⟩ | ⟨h, hp⟩
    · have ho : (putStream b s.bs).off.toNat = s.bs.off.toNat + 1 := by
        rw [← length_partialBits, partialBits_put h]; simp
      have hn : ∀ n, ((putStream b s.bs).off.toNat + n) / 8 = (s.bs.off.toNat + (n + 1)) / 8 := by
        intro n; rw [ho]; congr 1; omega
      rw [writeBits, hp]
      rcases writeBits_free bits (i + 1) k (s.withBs (putStream b s.bs)) hb (by rw [withBs_bs, hn]; exact hk) with
        ⟨u, e, w, f⟩ | ⟨pre, c, post, u, rfl, h7, hk', w, f, e⟩
      · rw [withBs_bs, hn] at w
        exact .inl ⟨u, e, w.cons_put h, (bodyFrame_put rfl rfl hp).trans f⟩
      · rw [withBs_bs, hn] at w hk'
        refine .inr ⟨b :: pre, c, post, u, rfl, h7, hk', w.cons_put h, (bodyFrame_put rfl rfl hp).trans f, ?_⟩
        simp only
        rw [e, List.length_cons, Nat.add_assoc, Nat.add_comm 1]
    · cases k with
      | succ k => exact full h (bsPut_full_ok h (by rw [hb]; rfl))
      | zero =>
        rcases hp with hp | hp | ⟨-, rest, hn⟩
        · exact full h hp
        · refine .inr ⟨[], b, bits, s, rfl, h, Nat.zero_le _, ?_, .refl _ s, ?_⟩
          · rw [List.length_nil, h]; exact .refl s
          · rw [writeBits, hp]; rfl
        · rw [hb] at hn; cases hn

@[simp] theorem bitOperand_write (b : Bit) : writeBitOf b = .bsWriteBit (if b then 1 else 0) := rfl

theorem writable_iff (b : BitStream) : b.writable = true ↔ b.isOpen = true ∧ b.mode = .write := by
  simp [BitStream.writable]

theorem readable_iff (b : BitStream) : b.readable = true ↔ b.isOpen = true ∧ b.mode = .read := by
  simp [BitStream.readable]

/-- Bits written by commands whose pushes are taken. -/
theorem execAll_writes (cmds : List Instr) (rest : List PushAnswer) : ∀ (bits : List Bit) (k : Nat) (s : State),
    s.bs.isOpen = true → s.bs.mode = .write → k = (s.bs.off.toNat + bits.length) / 8 →
    s.io.bso = List.replicate k .ok ++ rest →
    ∃ u, execAll (bits.map writeBitOf ++ cmds) s = execAll cmds u ∧ Wrote bits k s u
  | [], k, s, _, _, hk, hb => by
    have := s.bs.off.isLt
    rw [List.length_nil] at hk
    have hk : k = 0 := by omega
    subst hk
    exact ⟨s, rfl, .refl s⟩
  | b :: bits, k, s, hopen, hmode, hk, hb => by
    rw [List.length_cons] at hk
    have hw : s.bs.writable = true := (writable_iff _).mpr ⟨hopen, hmode⟩
    have hex : ∀ t, bsPut b s = .ok t → exec (writeBitOf b) s = .next (complete .ok 0 t) := by
      intro t ht
      show execBsWriteBit (if b then 1 else 0) s = _
      rw [execBsWriteBit, if_neg (by simp [hw]), bitOperand_ofBit]
      simp only [ht]; rfl
    have step : ∀ {t u : State} {n : Nat}, Wrote bits n (complete .ok 0 t) u → Wrote bits n t u :=
      fun w => ⟨w.outb, w.partialBits, w.isOpen, w.mode, w.eos, w.bso, w.pushed⟩
    rcases off_lt_or_eq s.bs.off with h | h
    · have hp := bsPut_below (bit := b) h
      have ho : (putStream b s.bs).off.toNat = s.bs.off.toNat + 1 := by
        rw [← length_partialBits, partialBits_put h]; simp
      obtain ⟨u, e, w⟩ := execAll_writes cmds rest bits k (complete .ok 0 (s.withBs (putStream b s.bs))) hopen hmode
        (by rw [hk]; show _ = ((putStream b s.bs).off.toNat + _) / 8; rw [ho]; congr 1; omega) hb
      refine ⟨u, ?_, (step w).cons_put h⟩
      rw [List.map_cons, List.cons_append, execAll, hex _ hp]; exact e
    · obtain ⟨k', rfl⟩ : ∃ k', k = k' + 1 := ⟨k - 1, by omega⟩
      rw [List.replicate_succ, List.cons_append] at hb
      have hp := bsPut_full_ok (bit := b) h hb
      obtain ⟨u, e, w⟩ := execAll_writes cmds rest bits k'
        (complete .ok 0 (deliver (fullStream b s.bs).byte (countBsoPush (s.withBs (fullStream b s.bs))))) hopen hmode
        (by show k' = (0 + bits.length) / 8; omega) (by simp [hb])
      refine ⟨u, ?_, (step w).cons_full h⟩
      rw [List.map_cons, List.cons_append, execAll, hex _ hp]; exact e

/-! ### Reading -/

/-- The bits a read stream has still to give, over the bytes that BSI will answer. -/
def unreadBits (b : BitStream) (bytes : List Byte) : List Bit :=
  (bitsOfByte b.byte).drop b.off.toNat ++ bytes.flatMap bitsOfByte

/-- The answer of `BS_READ_BIT` as the spec writes it. -/
theorem readBit_word (b : Bit) : (BitVec.ofBool b).setWidth 64 = if b then 1#64 else 0#64 := by cases b <;> rfl

/-- One read with the byte not used up. -/
theorem execBsReadBit_below {s : State} (ho : s.bs.isOpen = true) (hm : s.bs.mode = .read) (he : s.bs.eos = false)
    (h : s.bs.off.toNat < 7) : execBsReadBit s =
      done (if s.bs.byte.getLsbD (7 - s.bs.off.toNat) then 1 else 0) (s.withBs { s.bs with off := s.bs.off + 1 }) := by
  have hr : s.bs.readable = true := (readable_iff _).mpr ⟨ho, hm⟩
  rw [execBsReadBit, if_neg (by simp [hr]), if_neg (by simp [he])]
  simp only [h, if_true, readBit_word, readStreamBit, streamBit]
  rfl

/-- The read of the last bit of a byte, with the answer of BSI. -/
theorem execBsReadBit_last {s : State} (ho : s.bs.isOpen = true) (hm : s.bs.mode = .read) (he : s.bs.eos = false)
    (h : s.bs.off.toNat = 7) : execBsReadBit s =
      match pullBsi (s.withBs { s.bs with off := 0 }) with
      | .answer r t => done (if s.bs.byte.getLsbD 0 then 1 else 0) (t.withBs (nextByte r t.bs))
      | .waits t => .next (suspend s t) := by
  have hr : s.bs.readable = true := (readable_iff _).mpr ⟨ho, hm⟩
  rw [execBsReadBit, if_neg (by simp [hr]), if_neg (by simp [he])]
  simp only [h, Nat.lt_irrefl, if_false, readBit_word, readStreamBit, streamBit, Nat.sub_self]
  rfl

/-- Reads to the end of the stream give its bits in order, and the last one finds the end (41_bitstream.md R134,
R140). -/
theorem execAll_reads (rest : List PullAnswer) : ∀ (m : Nat) (bytes : List Byte) (s : State), s.bs.isOpen = true →
    s.bs.mode = .read → s.bs.eos = false → s.io.bsi = bytes.map .data ++ .noMore :: rest →
    (unreadBits s.bs bytes).length = m →
    ∃ u, execAll (List.replicate m .bsReadBit) s = .next u ∧ u.bs.eos = true ∧
      u.io.responses = s.io.responses ++ (unreadBits s.bs bytes).map (fun b => (0, if b then 1 else 0)) ∧
      u.io.bsiPulls = s.io.bsiPulls + bytes.length + 1
  | 0, bytes, s, _, _, _, _, hm => by
    have := s.bs.off.isLt
    simp [unreadBits] at hm; omega
  | m + 1, bytes, s, hopen, hmode, heos, hb, hm => by
    have hlt := s.bs.off.isLt
    have hdrop : (bitsOfByte s.bs.byte).drop s.bs.off.toNat =
        s.bs.byte.getLsbD (7 - s.bs.off.toNat) :: (bitsOfByte s.bs.byte).drop (s.bs.off.toNat + 1) := by
      rw [List.drop_eq_getElem_cons (by simp; omega)]
      simp [bitsOfByte]
    rcases off_lt_or_eq s.bs.off with h | h
    · have ho : (s.bs.off + 1).toNat = s.bs.off.toNat + 1 := by
        rw [BitVec.toNat_add]; exact Nat.mod_eq_of_lt (by simp; omega)
      have hun : unreadBits s.bs bytes = s.bs.byte.getLsbD (7 - s.bs.off.toNat) ::
          unreadBits { s.bs with off := s.bs.off + 1 } bytes := by
        simp only [unreadBits, ho]; rw [hdrop]; rfl
      obtain ⟨u, e, u1, u2, u3⟩ := execAll_reads rest m bytes
        (complete .ok (if s.bs.byte.getLsbD (7 - s.bs.off.toNat) then 1 else 0)
          (s.withBs { s.bs with off := s.bs.off + 1 })) hopen hmode heos hb (by
          rw [hun] at hm; simpa using hm)
      refine ⟨u, ?_, u1, ?_, u3⟩
      · rw [List.replicate_succ, execAll]
        show (match execBsReadBit s with | .next t => _ | .fault f => _ | .refused r => _) = _
        rw [execBsReadBit_below hopen hmode heos h]; exact e
      · rw [u2, hun]; simp [ErrCode.code]
    · have hun : unreadBits s.bs bytes = s.bs.byte.getLsbD 0 :: bytes.flatMap bitsOfByte := by
        unfold unreadBits; rw [hdrop, h]; simp
      cases bytes with
      | nil =>
        have hm0 : m = 0 := by rw [hun] at hm; simpa using hm.symm
        subst hm0
        refine ⟨complete .ok (if s.bs.byte.getLsbD 0 then 1 else 0)
          ((countBsiPull (s.withBs { s.bs with off := 0 })).withBs (nextByte none { s.bs with off := 0 })),
          ?_, ?_, ?_, ?_⟩
        · show (match execBsReadBit s with | .next t => _ | .fault f => _ | .refused r => _) = _
          rw [execBsReadBit_last hopen hmode heos h]
          simp [pullBsi, hb, done, execAll]
        · simp [nextByte]
        · rw [hun]; simp [ErrCode.code]
        · simp
      | cons v bytes =>
        obtain ⟨u, e, u1, u2, u3⟩ := execAll_reads rest m bytes
          (complete .ok (if s.bs.byte.getLsbD 0 then 1 else 0)
            ((countBsiPull (s.withBs { s.bs with off := 0 })).withBs (nextByte (some v) { s.bs with off := 0 })))
          hopen hmode (by simp [nextByte, heos]) (by simp [hb]) (by
            rw [hun] at hm
            simp only [List.flatMap_cons, List.length_cons] at hm
            simp only [complete_bs, withBs_bs, nextByte, unreadBits]
            simpa using hm)
        refine ⟨u, ?_, u1, ?_, ?_⟩
        · rw [List.replicate_succ, execAll]
          show (match execBsReadBit s with | .next t => _ | .fault f => _ | .refused r => _) = _
          rw [execBsReadBit_last hopen hmode heos h]
          simp only [pullBsi, withBs_io, hb, List.map_cons, List.cons_append, done]
          exact e
        · rw [u2, hun]
          simp [ErrCode.code, unreadBits, nextByte]
        · rw [u3]; simp; omega

end Sys2Proof.Machine
end

