-- ==== Sys2Proof/Laws/Encoding.lean ====
section
/-! SUPPORT. The command word and its fields (30_encoding.md R90), and the masks of R91 as words of fields. -/

namespace Sys2Proof

theorem getLsbD_mkWord (op : BitVec 8) (a : BitVec 24) (b : BitVec 32) (i : Nat) :
    (mkWord op a b).getLsbD i =
      if i < 32 then b.getLsbD i else if i - 32 < 24 then a.getLsbD (i - 32) else op.getLsbD (i - 32 - 24) := by
  rw [mkWord]
  exact (BitVec.getLsbD_append (x := op ++ a) (y := b)).trans (by rw [BitVec.getLsbD_append])

@[simp] theorem opField_mkWord (op : BitVec 8) (a : BitVec 24) (b : BitVec 32) : opField (mkWord op a b) = op := by
  ext i hi
  rw [opField, BitVec.getElem_extractLsb', getLsbD_mkWord, if_neg (by omega), if_neg (by omega)]
  have : 56 + i - 32 - 24 = i := by omega
  rw [this]; exact BitVec.getLsbD_eq_getElem hi

@[simp] theorem aField_mkWord (op : BitVec 8) (a : BitVec 24) (b : BitVec 32) : aField (mkWord op a b) = a := by
  ext i hi
  rw [aField, BitVec.getElem_extractLsb', getLsbD_mkWord, if_neg (by omega), if_pos (by omega)]
  have : 32 + i - 32 = i := by omega
  rw [this]; exact BitVec.getLsbD_eq_getElem hi

@[simp] theorem bField_mkWord (op : BitVec 8) (a : BitVec 24) (b : BitVec 32) : bField (mkWord op a b) = b := by
  ext i hi
  rw [bField, BitVec.getElem_extractLsb', getLsbD_mkWord, if_pos (by omega), Nat.zero_add]
  exact BitVec.getLsbD_eq_getElem hi

/-- A word is the word of its fields: no bit is left over. -/
theorem mkWord_fields (w : Word) : mkWord (opField w) (aField w) (bField w) = w := by
  apply BitVec.eq_of_getLsbD_eq
  intro i hi
  rw [getLsbD_mkWord, opField, aField, bField]
  simp only [BitVec.getLsbD_extractLsb']
  split
  · simp [*]
  split
  · have : 32 + (i - 32) = i := by omega
    simp [*]
  · have : 56 + (i - 32 - 24) = i := by omega
    have h8 : i - 32 - 24 < 8 := by omega
    simp [*]

theorem mkWord_and (o p : BitVec 8) (a c : BitVec 24) (b d : BitVec 32) :
    mkWord o a b &&& mkWord p c d = mkWord (o &&& p) (a &&& c) (b &&& d) := by
  apply BitVec.eq_of_getLsbD_eq
  intro i hi
  rw [BitVec.getLsbD_and]
  simp only [getLsbD_mkWord]
  split
  · simp
  split <;> simp

theorem mkWord_inj {o p : BitVec 8} {a c : BitVec 24} {b d : BitVec 32} :
    mkWord o a b = mkWord p c d ↔ o = p ∧ a = c ∧ b = d := by
  constructor
  · intro h
    exact ⟨by simpa using congrArg opField h, by simpa using congrArg aField h, by simpa using congrArg bField h⟩
  · rintro ⟨rfl, rfl, rfl⟩; rfl

theorem maskZ_eq : maskZ = mkWord 0xFF 0xFFFFFF 0xFFFFFFFF := by decide
theorem maskA_eq : maskA = mkWord 0xFF 0 0xFFFFFFFF := by decide
theorem maskB_eq : maskB = mkWord 0xFF 0xFFFFFF 0 := by decide
theorem maskAB_eq : maskAB = mkWord 0xFF 0 0 := by decide
theorem maskR_eq : maskR = mkWord 0xFF 0xFFFFFE 0 := by decide
theorem maskN_eq : maskN = mkWord 0xFF 0 0xFFFFFFFC := by decide

/-- The match word of a row is its opcode with zero operands (30_encoding.md R94). -/
theorem matchBits_eq : ∀ r ∈ opcodeMap, r.matchBits = mkWord r.op 0 0 := by
  simp only [opcodeMap, List.forall_mem_cons]
  decide

/-- The reserved bits of `st` are zero just when it is 0 or 1 (30_encoding.md R91 format R). -/
theorem stOk_iff (st : BitVec 24) : stOk st = true ↔ st &&& 0xFFFFFE#24 = 0 := by
  rw [stOk, decide_eq_true_iff, ← BitVec.toNat_inj, BitVec.toNat_and]
  have h : st.toNat &&& 16777214 = st.toNat / 2 * 2 := by
    have hlt := st.isLt
    have e : st.toNat / 2 * 2 = (st.toNat >>> 1) <<< 1 := by
      rw [Nat.shiftRight_eq_div_pow, Nat.shiftLeft_eq]
    rw [e]
    apply Nat.eq_of_testBit_eq
    intro i
    rw [Nat.testBit_and, Nat.testBit_shiftLeft, Nat.testBit_shiftRight]
    by_cases hi : i < 24
    · interval_cases i <;> simp [Nat.testBit, Nat.shiftRight_eq_div_pow]
    · have : st.toNat.testBit i = false :=
        Nat.testBit_lt_two_pow (lt_of_lt_of_le hlt (Nat.pow_le_pow_right (by omega) (by omega)))
      have i1 : 1 + (i - 1) = i := by omega
      simp [this, i1]
  constructor
  · intro hst
    show st.toNat &&& 16777214 = 0
    rw [h]; omega
  · intro hz
    have hz : st.toNat &&& 16777214 = 0 := hz
    rw [h] at hz; omega

/-- The reserved bits of `fsel` are zero just when it is 0 to 3 (30_encoding.md R91 format N). -/
theorem fselOk_iff (fsel : BitVec 32) : fselOk fsel = true ↔ fsel &&& 0xFFFFFFFC#32 = 0 := by
  rw [fselOk, decide_eq_true_iff, ← BitVec.toNat_inj, BitVec.toNat_and]
  have h : fsel.toNat &&& 4294967292 = fsel.toNat / 4 * 4 := by
    have hlt := fsel.isLt
    have e : fsel.toNat / 4 * 4 = (fsel.toNat >>> 2) <<< 2 := by
      rw [Nat.shiftRight_eq_div_pow, Nat.shiftLeft_eq]
    rw [e]
    apply Nat.eq_of_testBit_eq
    intro i
    rw [Nat.testBit_and, Nat.testBit_shiftLeft, Nat.testBit_shiftRight]
    by_cases hi : i < 32
    · interval_cases i <;> simp [Nat.testBit, Nat.shiftRight_eq_div_pow]
    · have : fsel.toNat.testBit i = false :=
        Nat.testBit_lt_two_pow (lt_of_lt_of_le hlt (Nat.pow_le_pow_right (by omega) (by omega)))
      have i1 : 2 + (i - 2) = i := by omega
      simp [this, i1]
  constructor
  · intro hst
    show fsel.toNat &&& 4294967292 = 0
    rw [h]; omega
  · intro hz
    have hz : fsel.toNat &&& 4294967292 = 0 := hz
    rw [h] at hz; omega

@[simp] theorem and_ones24 (a : BitVec 24) : a &&& 0xFFFFFF#24 = a := by
  rw [show (0xFFFFFF#24) = BitVec.allOnes 24 from rfl, BitVec.and_allOnes]

@[simp] theorem and_ones32 (b : BitVec 32) : b &&& 0xFFFFFFFF#32 = b := by
  rw [show (0xFFFFFFFF#32) = BitVec.allOnes 32 from rfl, BitVec.and_allOnes]

/-- The row an opcode selects is a row of the map with that opcode (30_encoding.md R100, first step). -/
theorem rowOf_mem {op : BitVec 8} {r : OpRow} (h : rowOf op = some r) : r ∈ opcodeMap ∧ r.op = op := by
  unfold rowOf at h
  exact ⟨List.mem_of_find?_eq_some h, by simpa using List.find?_some h⟩

/-- Every opcode appears in one row (30_encoding.md R100). -/
theorem rowOf_op : ∀ r ∈ opcodeMap, rowOf r.op = some r := by
  simp [opcodeMap, rowOf, List.find?]

/-- Every mask contains the opcode bits (30_encoding.md R100): a word that matches a row has its opcode. -/
theorem opField_of_match {w : Word} {r : OpRow} (hr : r ∈ opcodeMap) (h : w &&& r.mask = r.matchBits) :
    opField w = r.op := by
  have key : ∀ q ∈ opcodeMap, ∃ a b, q.mask = mkWord 0xFF a b := by
    simp only [opcodeMap, List.forall_mem_cons, maskZ_eq, maskA_eq, maskB_eq, maskAB_eq, maskR_eq, maskN_eq]
    refine ⟨?_, ?_, ?_, ?_, ?_, ?_, ?_, ?_, ?_, ?_, ?_, ?_, ?_, ?_, ?_, ?_, ?_, ?_, ?_, by simp⟩ <;> exact ⟨_, _, rfl⟩
  obtain ⟨a, b, hm⟩ := key r hr
  rw [← mkWord_fields w, matchBits_eq r hr, hm, mkWord_and, mkWord_inj] at h
  rw [← h.1, show (0xFF : BitVec 8) = BitVec.allOnes 8 from rfl, BitVec.and_allOnes]

end Sys2Proof
end

