-- ==== Sys2Proof/Laws/Extractor.lean ====
section
/-! SUPPORT. The walk of TB_EXTRACT: what it makes of the bit buffer on any arena, and the records it emits on the tree
that stands in the arena (44_extractor.md R211). -/

namespace Sys2Proof.Machine

/-- What a walk makes of the bit buffer it started with: on success the same bits and length, on `alloc_fail` a full
buffer that cannot grow, and its recursion bound is not what stops it. -/
def WalkKeeps (p : Params) (b : BitBuffer) : Walked → Prop
  | .ok w => Grown p b w.bb ∧ bbContents w.bb = bbContents b
  | .allocFail w => Grown p b w.bb ∧ w.bb.len = w.bb.cap ∧ p.bbMax.val < w.bb.cap.toNat + 256
  | .unreadable f => f ≠ .walkTooDeep

/-- A walk that stops inside a subtree stops so in the tree. -/
theorem walkKeeps_stop {p : Params} {a b : BitBuffer} {x : Walked} (h : Grown p a b) (k : WalkKeeps p b x)
    (stop : ∀ w, x = .ok w → False) : WalkKeeps p a x := by
  cases x with
  | ok w => exact (stop w rfl).elim
  | allocFail w => exact ⟨h.trans k.1, k.2⟩
  | unreadable f => exact k

theorem nodeAt_error {tb : TreeBuilder} {i : Idx} {f : Fault} (h : nodeAt tb i = .error f) : f = .noNode i.toNat := by
  unfold nodeAt at h
  split at h
  · split at h
    · cases h
    · cases h; rfl
  · cases h; rfl

/-- Each descent needs a slot, so a bound of 2048 less the length is never used up. -/
theorem walk_keeps (p : Params) (tb : TreeBuilder) : ∀ (d : Nat) (n : Idx) (w : Walk),
    2048 ≤ d + w.bb.len.toNat → w.bb.len.toNat ≤ w.bb.cap.toNat → WalkKeeps p w.bb (walk p tb d n w)
  | 0, n, w, hd, hle => by have := w.bb.len.isLt; omega
  | d + 1, n, w, hd, hle => by
    unfold walk
    split
    · rename_i f hf; simp [WalkKeeps, nodeAt_error hf]
    split
    · exact ⟨.refl hle, rfl⟩
    split
    · rename_i hn; exact ⟨.refl hle, bbPush_none hn⟩
    rename_i x hx _ _ b0 h0
    have hl0 := bbPush_len hle h0
    have c0 := bbContents_push hle h0
    have g0 := grown_push hle h0
    have k0 := walk_keeps p tb d x.left { w with bb := b0 } (by simp only; omega) hl0.2
    split
    · rename_i w1 hw
      rw [hw] at k0
      obtain ⟨g1, c1⟩ := k0
      have c1 : bbContents w1.bb = bbContents w.bb ++ [false] := c1.trans c0
      have g1 := (g0.trans g1).trans (grown_pop g1.le)
      have c1' := bbContents_pop c1
      split
      · rename_i hn; exact ⟨g1, bbPush_none hn⟩
      rename_i b1 h1
      have hlen : (bbPop w1.bb).len.toNat = w.bb.len.toNat := by
        rw [← length_bbContents, c1', length_bbContents]
      have hl1 := bbPush_len g1.le h1
      have k1 := walk_keeps p tb d x.right { w1 with bb := b1 } (by simp only; omega) hl1.2
      have c2 := bbContents_push g1.le h1
      rw [c1'] at c2
      split
      · rename_i w2 hw2
        rw [hw2] at k1
        obtain ⟨g2, c3⟩ := k1
        exact ⟨((g1.trans (grown_push g1.le h1)).trans g2).trans (grown_pop g2.le), bbContents_pop (c3.trans c2)⟩
      · rename_i stop
        exact walkKeeps_stop (g1.trans (grown_push g1.le h1)) k1 stop
    · rename_i stop
      exact walkKeeps_stop g0 k0 stop

theorem emptied_len (p : Params) (b : BitBuffer) : (emptied p b).len.toNat = 0 := rfl

theorem bbContents_emptied (p : Params) (b : BitBuffer) : bbContents (emptied p b) = [] := rfl

theorem bitsWf_emptied {p : Params} {b : BitBuffer} (w : bitsWf b.bits = true) : bitsWf (emptied p b).bits = true :=
  bitsWf_memClearBelow w _

/-- The walk of a command, from the emptied buffer. -/
theorem walk_start (p : Params) (tb : TreeBuilder) (n : Idx) (b : BitBuffer) :
    WalkKeeps p (emptied p b) (walk p tb walkBound n { bb := emptied p b, records := [] }) :=
  walk_keeps p tb walkBound n _ (by simp [walkBound]) (Nat.zero_le _)

/-- The buffer after an extraction is one that only grew from the emptied one. -/
theorem execTbExtract_bb {s t : State} (h : execTbExtract s = .next t) :
    t.bb = s.bb ∨ Grown s.params (emptied s.params s.bb) t.bb := by
  unfold execTbExtract at h
  split at h
  · cases h; exact .inl rfl
  split at h
  · cases h; exact .inr (.refl (Nat.zero_le _))
  have k := walk_start s.params s.tb s.tb.root s.bb
  split at h <;> rename_i hw
  · cases h
  · rw [hw] at k; cases h; exact .inr k.1
  · rw [hw] at k; cases h; exact .inr k.1

/-! ### The tree of an arena -/

theorem HTree.leaves_pos : ∀ h : HTree, 0 < h.leaves.length
  | .leaf _ _ => Nat.one_pos
  | .node l r => by have := l.leaves_pos; simp only [HTree.leaves, List.length_append]; omega

theorem HTree.length_codes : ∀ (h : HTree) (path : List Bit), (h.codes path).length = h.leaves.length
  | .leaf _ _, _ => rfl
  | .node l r, path => by
    simp only [HTree.codes, HTree.leaves, List.length_append, l.length_codes, r.length_codes]

theorem leafRecord_eq {n : Node} {b : BitBuffer} {sym : Nat} {path : List Bit} (hs : n.sym = BitVec.ofNat 9 sym)
    (hp : bbContents b = path) : leafRecord n b = codeRecord (sym, path) := by
  have hl : b.len.toNat = path.length := by rw [← length_bbContents, hp]
  simp only [leafRecord, codeRecord, hp, hs, CodeRecord.mk.injEq, and_true]
  constructor
  · apply BitVec.eq_of_toNat_eq; simp
  · apply BitVec.eq_of_toNat_eq; simp [hl]

/-- Every code of a tree continues the path to the tree, by at most the depth of the tree. -/
theorem HTree.codes_path : ∀ (h : HTree) (path : List Bit), ∀ c ∈ h.codes path,
    ∃ q, c.2 = path ++ q ∧ q.length ≤ h.depth
  | .leaf _ _, path, c, hc => by
    simp only [HTree.codes, List.mem_singleton] at hc
    subst hc; exact ⟨[], by simp, Nat.zero_le _⟩
  | .node l r, path, c, hc => by
    simp only [HTree.codes, List.mem_append] at hc
    rcases hc with hc | hc
    · obtain ⟨q, e, hq⟩ := l.codes_path _ c hc
      exact ⟨false :: q, by rw [e, List.append_assoc]; rfl, by simp only [List.length_cons, HTree.depth]; omega⟩
    · obtain ⟨q, e, hq⟩ := r.codes_path _ c hc
      exact ⟨true :: q, by rw [e, List.append_assoc]; rfl, by simp only [List.length_cons, HTree.depth]; omega⟩

theorem le_capacityFor (c d : Nat) : d ≤ capacityFor c d := by
  unfold capacityFor; split <;> omega

/-- Where a walk of the tree `h` from a path stops (44_extractor.md R212): at the first leaf deeper than the last
capacity, after the records of the leaves before it, with the path to the node that leaf hangs under. -/
def WalkStops (h : HTree) (w v : Walk) : Prop :=
  ∃ pre c post, h.codes (bbContents w.bb) = pre ++ c :: post ∧ v.records = w.records ++ pre.map codeRecord ∧
    (∀ x ∈ pre, x.2.length ≤ v.bb.cap.toNat) ∧ v.bb.cap.toNat < c.2.length ∧ bbContents v.bb <+: c.2

/-- What a walk of the tree `h` from a path emits and leaves: all its records when the deepest path fits, the first
ones and `alloc_fail` when it does not. -/
def WalkEmits (p : Params) (h : HTree) (w : Walk) (x : Walked) : Prop :=
  (PathFits p w.bb.cap.toNat (w.bb.len.toNat + h.depth) ∧
    ∃ v, x = .ok v ∧ v.records = w.records ++ (h.codes (bbContents w.bb)).map codeRecord ∧
      v.bb.cap.toNat = capacityFor w.bb.cap.toNat (w.bb.len.toNat + h.depth)) ∨
  (¬ PathFits p w.bb.cap.toNat (w.bb.len.toNat + h.depth) ∧
    ∃ v, x = .allocFail v ∧ WalkStops h w v)

/-- The capacity after a push at the tail (44_extractor.md R217). -/
theorem bbPush_cap {p : Params} {bit : Bit} {b : BitBuffer} (i : b.len.toNat ≤ b.cap.toNat) :
    (∃ c, bbPush p bit b = some c ∧ c.cap.toNat = capacityFor b.cap.toNat (b.len.toNat + 1) ∧
      PathFits p b.cap.toNat (b.len.toNat + 1)) ∨
    (bbPush p bit b = none ∧ ¬ PathFits p b.cap.toNat (b.len.toNat + 1)) := by
  cases h : bbPush p bit b with
  | some c =>
    refine .inl ⟨c, rfl, ?_⟩
    obtain ⟨-, -, -, cc⟩ := bbPush_some h
    obtain ⟨hl, hle⟩ := bbPush_len i h
    unfold PathFits capacityFor
    rcases cc with ⟨hne, e⟩ | ⟨e, g, g'⟩
    · rw [e] at hle ⊢
      rw [if_pos (by omega)]; exact ⟨rfl, by omega⟩
    · have e' := congrArg BitVec.toNat e
      rw [if_neg (by omega)]; omega
  | none =>
    refine .inr ⟨rfl, ?_⟩
    obtain ⟨e, g⟩ := bbPush_none h
    have e' := congrArg BitVec.toNat e
    unfold PathFits capacityFor
    rw [if_neg (by omega)]; omega

theorem capacityFor_capacityFor (c d e : Nat) : capacityFor (capacityFor c d) e = capacityFor c (max d e) := by
  unfold capacityFor
  rcases Nat.le_total d e with h | h
  · rw [Nat.max_eq_right h]; split_ifs <;> omega
  · rw [Nat.max_eq_left h]; split_ifs <;> omega

theorem pathFits_max {p : Params} {c d e : Nat} (hc : PathFits p c d) :
    PathFits p (capacityFor c d) e ↔ PathFits p c (max d e) := by
  unfold PathFits at *
  rw [capacityFor_capacityFor]
  unfold capacityFor at *
  rcases Nat.le_total d e with h | h
  · rw [Nat.max_eq_right h]; split_ifs at * <;> omega
  · rw [Nat.max_eq_left h]; split_ifs at * <;> omega

theorem pathFits_mono {p : Params} {c d e : Nat} (h : d ≤ e) (hc : PathFits p c e) : PathFits p c d := by
  unfold PathFits capacityFor at *
  split at hc <;> split <;> omega

theorem walk_emits (p : Params) (tb : TreeBuilder) : ∀ (h : HTree) (d : Nat) (n : Idx) (w : Walk), TreeAt tb h n →
    2048 ≤ d + w.bb.len.toNat → w.bb.len.toNat ≤ w.bb.cap.toNat → WalkEmits p h w (walk p tb d n w)
  | _, 0, _, w, _, hd, _ => by have := w.bb.len.isLt; omega
  | .leaf sym wt, d + 1, n, w, ht, hd, hle => by
    obtain ⟨x, hx, hleaf, hsym, he, -⟩ := ht
    refine .inl ⟨.inl (by simpa [HTree.depth] using hle), { w with records := w.records ++ [leafRecord x w.bb] }, by simp [walk, hx, hleaf], ?_, ?_⟩
    · rw [leafRecord_eq he rfl]; rfl
    · simp [HTree.depth, capacityFor, hle]
  | .node l r, d + 1, n, w, ht, hd, hle => by
    obtain ⟨x, hx, hnl, hl, hr⟩ := ht
    have hfits : ∀ q, PathFits p w.bb.cap.toNat (w.bb.len.toNat + (HTree.node l r).depth) →
        q ≤ (HTree.node l r).depth → PathFits p w.bb.cap.toNat (w.bb.len.toNat + q) :=
      fun q hf hq => pathFits_mono (by omega) hf
    have hdl : l.depth + 1 ≤ (HTree.node l r).depth := by simp [HTree.depth]
    have hdr : r.depth + 1 ≤ (HTree.node l r).depth := by simp [HTree.depth]
    have hpos := l.leaves_pos
    rcases bbPush_cap (bit := false) (p := p) hle with ⟨b0, h0, hc0, f0⟩ | ⟨h0, f0⟩
    · have hl0 := bbPush_len hle h0
      have c0 := bbContents_push hle h0
      have e0 := walk_emits p tb l d x.left { w with bb := b0 } hl (by simp only; omega) hl0.2
      have k0 := walk_keeps p tb d x.left { w with bb := b0 } (by simp only; omega) hl0.2
      have hmax : PathFits p b0.cap.toNat (b0.len.toNat + l.depth) ↔
          PathFits p w.bb.cap.toNat (w.bb.len.toNat + (l.depth + 1)) := by
        rw [hc0, hl0.1, pathFits_max f0]
        have : max (w.bb.len.toNat + 1) (w.bb.len.toNat + 1 + l.depth) = w.bb.len.toNat + (l.depth + 1) := by omega
        rw [this]
      unfold WalkEmits at e0
      simp only [hmax] at e0
      rcases e0 with ⟨fl, w1, hw1, hr1, hcap1⟩ | ⟨fl, w1, hw1, pre, c, post, hc, hr1, hpre, hlt, hpath⟩
      · rw [hw1] at k0
        obtain ⟨g1, c1⟩ := k0
        have c1 : bbContents w1.bb = bbContents w.bb ++ [false] := c1.trans c0
        have c1' := bbContents_pop c1
        have gp := grown_pop (p := p) g1.le
        have hpc : (bbPop w1.bb).cap = w1.bb.cap := (bbPop_spec w1.bb).2.1
        have hplen : (bbPop w1.bb).len.toNat = w.bb.len.toNat := by
          rw [← length_bbContents, c1', length_bbContents]
        have hcap1 : (bbPop w1.bb).cap.toNat = capacityFor w.bb.cap.toNat (w.bb.len.toNat + (l.depth + 1)) := by
          rw [hpc, hcap1, hc0, hl0.1, capacityFor_capacityFor]
          congr 1; omega
        rcases bbPush_cap (bit := true) (p := p) gp.le with ⟨b1, h1, hcb1, f1⟩ | ⟨h1, f1⟩
        · have hl1 := bbPush_len gp.le h1
          have c2 := bbContents_push gp.le h1
          rw [c1'] at c2
          have e1 := walk_emits p tb r d x.right { w1 with bb := b1 } hr (by simp only; omega) hl1.2
          have hmax1 : PathFits p b1.cap.toNat (b1.len.toNat + r.depth) ↔
              PathFits p w.bb.cap.toNat (w.bb.len.toNat + (HTree.node l r).depth) := by
            rw [hcb1, hl1.1, pathFits_max f1, hcap1, pathFits_max fl, hplen]
            have : max (w.bb.len.toNat + (l.depth + 1)) (max (w.bb.len.toNat + 1) (w.bb.len.toNat + 1 + r.depth)) =
                w.bb.len.toNat + (HTree.node l r).depth := by simp only [HTree.depth]; omega
            rw [this]
          unfold WalkEmits at e1
          simp only [hmax1] at e1
          rcases e1 with ⟨fr, w2, hw2, hr2, hcap2⟩ | ⟨fr, w2, hw2, pre, c, post, hc, hr2, hpre, hlt, hpath⟩
          · refine .inl ⟨fr, { w2 with bb := bbPop w2.bb }, by simp [walk, hx, hnl, h0, hw1, h1, hw2], ?_, ?_⟩
            · simp [hr2, hr1, c0, c2, HTree.codes]
            · simp only [(bbPop_spec w2.bb).2.1]
              rw [hcap2, hcb1, hcap1, hplen, hl1.1, hplen, capacityFor_capacityFor, capacityFor_capacityFor]
              congr 1; simp only [HTree.depth]; omega
          · have k1 := walk_keeps p tb d x.right { w1 with bb := b1 } (by simp only; omega) hl1.2
            rw [hw2] at k1
            obtain ⟨g, hg, -⟩ := ((grown_push gp.le h1).trans k1.1).cap
            have hle2 := le_capacityFor w.bb.cap.toNat (w.bb.len.toNat + (l.depth + 1))
            rw [← hcap1] at hle2
            simp only [c2] at hc
            refine .inr ⟨fr, w2, by simp [walk, hx, hnl, h0, hw1, h1, hw2],
              l.codes (bbContents w.bb ++ [false]) ++ pre, c, post, ?_, ?_, fun y hy => ?_, hlt, hpath⟩
            · simp only [HTree.codes, hc, List.append_assoc]
            · simp [hr2, hr1, c0]
            · rcases List.mem_append.mp hy with hy | hy
              · obtain ⟨q, e, hq⟩ := l.codes_path _ y hy
                rw [e]; simp; omega
              · exact hpre y hy
        · refine absurd ?_ f1
          rw [hcap1, hplen, pathFits_max fl]
          have : max (w.bb.len.toNat + (l.depth + 1)) (w.bb.len.toNat + 1) = w.bb.len.toNat + (l.depth + 1) := by omega
          rw [this]; exact fl
      · simp only [c0] at hc
        refine .inr ⟨fun hf => fl (hfits _ hf hdl), w1, by simp [walk, hx, hnl, h0, hw1], pre, c,
          post ++ r.codes (bbContents w.bb ++ [true]), ?_, hr1, hpre, hlt, hpath⟩
        simp [HTree.codes, hc]
    · obtain ⟨c, post, hc⟩ : ∃ c post, l.codes (bbContents w.bb ++ [false]) = c :: post := by
        cases hcs : l.codes (bbContents w.bb ++ [false]) with
        | nil => have := l.length_codes (bbContents w.bb ++ [false]); rw [hcs, List.length_nil] at this; omega
        | cons c post => exact ⟨c, post, rfl⟩
      obtain ⟨q, e, -⟩ := l.codes_path _ c (by rw [hc]; simp)
      have hfull := congrArg BitVec.toNat (bbPush_none h0).1
      refine .inr ⟨fun hf => f0 (hfits 1 hf (by omega)), w, by simp [walk, hx, hnl, h0], [], c,
        post ++ r.codes (bbContents w.bb ++ [true]), by simp [HTree.codes, hc], by simp, by simp, ?_, ?_⟩
      · rw [e]; simp; omega
      · rw [e, List.append_assoc]; exact List.prefix_append _ _

end Sys2Proof.Machine
end

