-- ==== Sys2Proof/Laws/FreqTable.lean ====
section
/-! SUPPORT. The frequency table: what a bump and a scan can do (42_freqtable.md R161, R163). -/

namespace Sys2Proof.Machine

/-! ### Entries -/

@[simp] theorem ftWrite_valid (ft : FreqTable) (i : Nat) (c : Count) : (ftWrite ft i c).valid = ft.valid := rfl
@[simp] theorem ftWrite_asize (ft : FreqTable) (i : Nat) (c : Count) : (ftWrite ft i c).asize = ft.asize := rfl

theorem memRead_ftWrite (ft : FreqTable) (i : Nat) (c : Count) (j : Nat) :
    memRead (ftWrite ft i c).counts j = if j = i then some c else memRead ft.counts j := memRead_memWrite ..

theorem countOf_ftWrite (ft : FreqTable) (i : Nat) (c : Count) (j : Nat) :
    countOf (ftWrite ft i c) j = if j = i then c else countOf ft j := by
  simp only [countOf, memRead_ftWrite]; split <;> rfl

theorem FreqTable.Inv.write {ft : FreqTable} (h : ft.Inv) (i : Nat) (c : Count) : (ftWrite ft i c).Inv := by
  intro j hj
  rw [memRead_ftWrite]
  split
  · rfl
  · exact h j hj

theorem ftRead_some {ft : FreqTable} {i : Nat} {c : Count} (hi : i < ft.asize.val) (h : memRead ft.counts i = some c) :
    ftRead ft i = .ok c := by simp [ftRead, hi, h]

theorem ftRead_entry {ft : FreqTable} (inv : ft.Inv) {i : Nat} (h : i < ft.asize.val) : ftRead ft i = .ok (countOf ft i) := by
  obtain ⟨c, hc⟩ := Option.isSome_iff_exists.mp (inv i h)
  rw [ftRead_some h hc, countOf, hc]; rfl

theorem symbolOperand_some {ft : FreqTable} {sym : BitVec 24} (h : sym.toNat < ft.asize.val) :
    symbolOperand ft sym = some sym.toNat := by rw [symbolOperand, if_neg (by omega)]

theorem symbolOperand_none {ft : FreqTable} {sym : BitVec 24} (h : ft.asize.val ≤ sym.toNat) :
    symbolOperand ft sym = none := by rw [symbolOperand, if_pos h]

theorem symbolOperand_lt {ft : FreqTable} {sym : BitVec 24} {i : Nat} (h : symbolOperand ft sym = some i) :
    i = sym.toNat ∧ i < ft.asize.val := by
  unfold symbolOperand at h
  split at h <;> cases h
  exact ⟨rfl, by omega⟩

theorem sizeOperand_some {size : BitVec 24} (h : size.toNat ≤ 256) :
    ∃ n, sizeOperand size = some n ∧ n.val = size.toNat := ⟨⟨size.toNat, by omega⟩, by rw [sizeOperand, dif_pos], rfl⟩

theorem sizeOperand_none {size : BitVec 24} (h : 256 < size.toNat) : sizeOperand size = none := by
  rw [sizeOperand, dif_neg (by omega)]

/-- A fresh table has a value at every entry. -/
theorem ftInv_fill (m : Entries Count) (n : Fin 257) (v : Bool) :
    FreqTable.Inv { valid := v, asize := n, counts := memFill m n.val 0 } := by
  intro i hi
  rw [memRead_memFill, if_pos hi]; rfl

/-! ### Bumps -/

/-- What a bump can do: the count below 2^32 - 1 rises by exactly 1, the count at it stays, or there is no count. -/
theorem ftBump_cases (ft : FreqTable) (i : Nat) :
    (∃ c, ftRead ft i = .ok c ∧ c ≠ cntMax ∧ ftBump ft i = .counted (c + 1) (ftWrite ft i (c + 1))) ∨
    (ftRead ft i = .ok cntMax ∧ ftBump ft i = .overflow) ∨
    (∃ f, ftRead ft i = .error f ∧ ftBump ft i = .unreadable f) := by
  unfold ftBump
  cases h : ftRead ft i with
  | error f => exact .inr (.inr ⟨f, rfl, rfl⟩)
  | ok c =>
    by_cases hc : c = cntMax
    · exact .inr (.inl ⟨by rw [hc], by simp [hc]⟩)
    · exact .inl ⟨c, rfl, hc, by simp [hc]⟩

theorem toNat_count_succ {c : Count} (h : c ≠ cntMax) : (c + 1).toNat = c.toNat + 1 := by
  have h1 : c.toNat ≠ 4294967295 := fun e => h (BitVec.eq_of_toNat_eq e)
  have := c.isLt
  rw [BitVec.toNat_add]
  exact Nat.mod_eq_of_lt (by simp; omega)

/-- What a scanned byte can do to the table. -/
theorem scanByte_counted {ft u : FreqTable} {v : Byte} {c : Count} (h : scanByte ft v = .counted c u) :
    u = ft ∨ ∃ d, u = ftWrite ft v.toNat d := by
  unfold scanByte at h
  split at h
  · rcases ftBump_cases ft v.toNat with ⟨d, -, -, e⟩ | ⟨-, e⟩ | ⟨f, -, e⟩ <;> rw [e] at h <;> cases h
    exact .inr ⟨_, rfl⟩
  · cases h; exact .inl rfl

theorem scanByte_readable {ft : FreqTable} (inv : ft.Inv) (v : Byte) (f : Fault) : scanByte ft v ≠ .unreadable f := by
  unfold scanByte
  split
  · rename_i hv
    rcases ftBump_cases ft v.toNat with ⟨d, -, -, e⟩ | ⟨-, e⟩ | ⟨g, e, -⟩
    · rw [e]; simp
    · rw [e]; simp
    · rw [ftRead_entry inv hv] at e; cases e
  · simp

/-! ### Counted bytes -/

theorem Counted.refl (ft : FreqTable) : Counted [] ft ft := ⟨rfl, rfl, fun _ _ => rfl, fun _ _ => rfl⟩

theorem Counted.trans {a b : List Byte} {x y z : FreqTable} (h : Counted a x y) (g : Counted b y z) :
    Counted (a ++ b) x z := by
  obtain ⟨h1, h2, h3, h4⟩ := h
  obtain ⟨g1, g2, g3, g4⟩ := g
  rw [h2] at g3 g4
  refine ⟨g1.trans h1, g2.trans h2, fun i hi => ?_, fun i hi => ?_⟩
  · rw [g3 i hi, h3 i hi, List.countP_append, Nat.add_assoc]
  · rw [List.countP_append] at hi
    rw [g4 i (by omega), h4 i (by omega)]

/-- What a scanned byte can do to a table with a value at every entry: it is counted, or its count is the largest. -/
theorem scanByte_cases {ft : FreqTable} (inv : ft.Inv) (v : Byte) :
    (∃ c u, scanByte ft v = .counted c u ∧ u.Inv ∧ Counted [v] ft u) ∨
    (scanByte ft v = .overflow ∧ v.toNat < ft.asize.val ∧ countOf ft v.toNat = cntMax) := by
  unfold scanByte
  split
  · rename_i hv
    have hr := ftRead_entry inv hv
    rcases ftBump_cases ft v.toNat with ⟨d, hd, hne, e⟩ | ⟨h, e⟩ | ⟨g, h, -⟩
    · rw [hr] at hd
      cases hd
      refine .inl ⟨_, _, e, inv.write _ _, rfl, rfl, fun i hi => ?_, fun i hi => ?_⟩
      · rw [countOf_ftWrite, List.countP_singleton]
        by_cases hvi : v.toNat = i
        · subst hvi; rw [if_pos rfl, toNat_count_succ hne, if_pos (by simp)]
        · simp [hvi, Ne.symm hvi]
      · rw [memRead_ftWrite, if_neg]
        rintro rfl
        simp at hi; omega
    · rw [hr] at h
      exact .inr ⟨e, hv, by simpa using h⟩
    · rw [hr] at h; cases h
  · rename_i hv
    refine .inl ⟨0, ft, rfl, inv, rfl, rfl, fun i hi => ?_, fun i _ => rfl⟩
    have : v.toNat ≠ i := by omega
    simp [this]

/-! ### Scans -/

/-- A property of the table that every write of an entry keeps holds after a scan, and a readable table ends no scan
unreadable. -/
def ScanKeeps (P : FreqTable → Prop) : Ending → Prop
  | .done _ t => P t.ft
  | .raise _ _ t => P t.ft
  | .waits t => P t.ft
  | .unreadable _ => True

theorem scanRest_keeps {P : FreqTable → Prop} (hw : ∀ ft i c, P ft → P (ftWrite ft i c)) :
    ∀ (bytes : List Byte) (n : Nat) (s : State), P s.ft → ScanKeeps P (scanRest bytes n s)
  | [], _, _, h => h
  | v :: rest, n, s, h => by
    unfold scanRest
    split
    · rename_i u e
      refine scanRest_keeps hw rest _ _ ?_
      rcases scanByte_counted e with rfl | ⟨d, rfl⟩
      · exact h
      · exact hw _ _ _ h
    · exact h
    · trivial

theorem scanHeld_keeps {P : FreqTable → Prop} (hw : ∀ ft i c, P ft → P (ftWrite ft i c)) :
    ∀ (as : List PullAnswer) (n : Nat) (s : State), P s.ft → ScanKeeps P (scanHeld as n s)
  | [], _, _, h => scanRest_keeps hw _ _ _ h
  | .noMore :: _, _, _, h => h
  | .never :: _, _, _, h => h
  | .data v :: rest, n, s, h => by
    unfold scanHeld
    split
    · rename_i u e
      refine scanHeld_keeps hw rest _ _ ?_
      rcases scanByte_counted e with rfl | ⟨d, rfl⟩
      · exact h
      · exact hw _ _ _ h
    · exact h
    · trivial

theorem scanRest_readable : ∀ (bytes : List Byte) (n : Nat) (s : State) (f : Fault), s.ft.Inv →
    scanRest bytes n s ≠ .unreadable f
  | [], _, _, _, _ => by simp [scanRest]
  | v :: rest, n, s, f, h => by
    unfold scanRest
    split
    · rename_i u e
      refine scanRest_readable rest _ _ f ?_
      rcases scanByte_counted e with rfl | ⟨d, rfl⟩
      · exact h
      · exact h.write _ _
    · simp
    · rename_i g e; exact absurd e (scanByte_readable h v g)

theorem scanHeld_readable : ∀ (as : List PullAnswer) (n : Nat) (s : State) (f : Fault), s.ft.Inv →
    scanHeld as n s ≠ .unreadable f
  | [], _, _, f, h => scanRest_readable _ _ _ f h
  | .noMore :: _, _, _, _, _ => by simp [scanHeld]
  | .never :: _, _, _, _, _ => by simp [scanHeld]
  | .data v :: rest, n, s, f, h => by
    unfold scanHeld
    split
    · rename_i u e
      refine scanHeld_readable rest _ _ f ?_
      rcases scanByte_counted e with rfl | ⟨d, rfl⟩
      · exact h
      · exact h.write _ _
    · simp
    · rename_i g e; exact absurd e (scanByte_readable h v g)

/-- The state after a scan has taken bytes and made a table of them. -/
def scanned (k : Nat) (u : FreqTable) (s : State) : State :=
  (s.withIo { s.io with src := s.io.src.drop k, srcPulls := s.io.srcPulls + k }).withFt u

theorem bodyFrame_scanned (k : Nat) (u : FreqTable) (s : State) : BodyFrame .ftScan s (scanned k u s) := by
  constructor
  all_goals first
    | rfl
    | exact fun _ => rfl
    | exact fun h => absurd rfl h
    | exact fun _ => ⟨rfl, rfl⟩
    | exact fun _ => ⟨rfl, rfl, rfl⟩
    | exact fun h => nomatch h

theorem scanned_step (v : Byte) (bytes : List Byte) (u w : FreqTable) (s : State) :
    scanned bytes.length u ((countSrcPull s).withFt w) = scanned (v :: bytes).length u s := by
  simp only [scanned, countSrcPull, State.withIo, State.withFt, List.drop_tail, State.mk.injEq, Ports.mk.injEq,
    true_and, and_true, List.length_cons]
  omega

/-- A scan over held bytes that no count overflows on (42_freqtable.md R163). -/
theorem scanHeld_data (rest : List PullAnswer) : ∀ (bytes : List Byte) (n : Nat) (s : State), s.ft.Inv →
    (∀ i, i < s.ft.asize.val → (countOf s.ft i).toNat + bytes.countP (fun v => v.toNat == i) ≤ 4294967295) →
    ∃ u, scanHeld (bytes.map .data ++ rest) n s = scanHeld rest (n + bytes.length) (scanned bytes.length u s) ∧
      u.Inv ∧ Counted bytes s.ft u
  | [], n, s, inv, _ => ⟨s.ft, rfl, inv, .refl _⟩
  | v :: bytes, n, s, inv, h => by
    rcases scanByte_cases inv v with ⟨c, w, e, wi, wc⟩ | ⟨-, hv, hm⟩
    · obtain ⟨u, eu, ui, uc⟩ := scanHeld_data rest bytes (n + 1) ((countSrcPull s).withFt w) wi (by
        intro i hi
        have hi : i < s.ft.asize.val := by rw [← wc.2.1]; exact hi
        have h1 := h i hi
        have h2 := wc.2.2.1 i hi
        show (countOf w i).toNat + _ ≤ _
        rw [show v :: bytes = [v] ++ bytes from rfl, List.countP_append] at h1
        omega)
      refine ⟨u, ?_, ui, wc.trans uc⟩
      rw [List.map_cons, List.cons_append, scanHeld, e]
      simp only
      rw [eu, scanned_step v, List.length_cons, Nat.add_assoc, Nat.add_comm 1]
    · have := h _ hv
      rw [hm, List.countP_cons_of_pos (by simp)] at this
      simp [cntMax] at this

/-- A scan past the held answers, whatever the free bytes are: all are counted, or the scan stops at the first one
whose count is the largest (42_freqtable.md R163). -/
theorem scanRest_cases : ∀ (bytes : List Byte) (n : Nat) (s : State), s.ft.Inv →
    (∃ u, Counted bytes s.ft u ∧
      scanRest bytes n s = .done (BitVec.ofNat 64 (n + bytes.length)) (countSrcPull (scanned bytes.length u s))) ∨
    ∃ (pre : List Byte) (v : Byte) (u : FreqTable), Counted pre s.ft u ∧ v.toNat < s.ft.asize.val ∧ countOf u v.toNat = cntMax ∧
      scanRest bytes n s =
        .raise .overflow (BitVec.ofNat 64 (n + pre.length + 1)) (countSrcPull (scanned pre.length u s))
  | [], n, s, inv => .inl ⟨s.ft, .refl _, rfl⟩
  | v :: bytes, n, s, inv => by
    rcases scanByte_cases inv v with ⟨c, w, e, wi, wc⟩ | ⟨e, hv, hm⟩
    · rcases scanRest_cases bytes (n + 1) ((countSrcPull s).withFt w) wi with ⟨u, uc, eu⟩ | ⟨pre, x, u, uc, hx, hm, eu⟩
      · refine .inl ⟨u, wc.trans uc, ?_⟩
        rw [scanRest, e]
        simp only
        rw [eu, scanned_step v, List.length_cons, Nat.add_assoc, Nat.add_comm 1]
      · refine .inr ⟨v :: pre, x, u, wc.trans uc, wc.2.1 ▸ hx, hm, ?_⟩
        rw [scanRest, e]
        simp only
        rw [eu, scanned_step v, List.length_cons, Nat.add_assoc n, Nat.add_comm 1]
    · refine .inr ⟨[], v, s.ft, .refl _, hv, hm, ?_⟩
      rw [scanRest, e]; rfl

/-- What a scan that is executed leaves of the table. -/
theorem execFtScan_ft {P : FreqTable → Prop} (hw : ∀ ft i c, P ft → P (ftWrite ft i c)) {s t : State} (h : P s.ft)
    (e : execFtScan s = .next t) : P t.ft := by
  unfold execFtScan at e
  split at e
  · cases e; exact h
  · have k := scanHeld_keeps hw s.io.src 0 s h
    revert k e
    cases scanHeld s.io.src 0 s <;> intro e k <;> cases e
    · exact k
    · exact k
    · exact h

end Sys2Proof.Machine
end

