-- ==== Sys2Proof/Laws/PerInstr.lean ====
section
/-! SUPPORT. The family `OpcodeRow`: every command stands in the opcode map under its own mnemonic, its word is a word
of that row, and the row's operands are the command's (30_encoding.md R94, R98). One lemma per constructor. -/

namespace Sys2Proof.Laws.OpcodeRow

/-- The word of the command `i` matches the row of its mnemonic, just when the command is well-formed, and the row
rebuilds the command from the word's fields. -/
def Statement (i : Instr) : Prop :=
  ∃ r ∈ opcodeMap, r.mnemonic = i.mnemonic ∧ opField (encode i) = r.op ∧
    (encode i &&& r.mask = r.matchBits ↔ i.wellFormed = true) ∧ r.build (aField (encode i)) (bField (encode i)) = i

/-- A row of the map gives a command its statement. -/
theorem of_row {i : Instr} {op : BitVec 8} {a : BitVec 24} {b : BitVec 32} (r : OpRow) (hr : r ∈ opcodeMap)
    (e : encode i = mkWord op a b) (hop : op = r.op) (hm : r.mnemonic = i.mnemonic)
    (hf : mkWord op a b &&& r.mask = mkWord r.op 0 0 ↔ i.wellFormed = true) (hb : r.build a b = i) : Statement i := by
  refine ⟨r, hr, hm, ?_, ?_, ?_⟩
  · rw [e, opField_mkWord, hop]
  · rw [matchBits_eq r hr, e]; exact hf
  · rw [e, aField_mkWord, bField_mkWord, hb]

theorem bbCreate (cap : BitVec 32) : Statement (.bbCreate cap) :=
  of_row (opcodeMap[0]) (List.getElem_mem _) rfl rfl rfl
    (by simp [opcodeMap, maskB_eq, mkWord_and, Instr.wellFormed]) rfl

theorem bbAppend (bit : BitVec 32) : Statement (.bbAppend bit) :=
  of_row (opcodeMap[1]) (List.getElem_mem _) rfl rfl rfl
    (by simp [opcodeMap, maskB_eq, mkWord_and, Instr.wellFormed]) rfl

theorem bbPop : Statement .bbPop :=
  of_row (opcodeMap[2]) (List.getElem_mem _) rfl rfl rfl
    (by simp [opcodeMap, maskZ_eq, mkWord_and, Instr.wellFormed]) rfl

theorem bbRender (st : BitVec 24) (bufsize : BitVec 32) : Statement (.bbRender st bufsize) :=
  of_row (opcodeMap[3]) (List.getElem_mem _) rfl rfl rfl
    (by simp [opcodeMap, maskR_eq, mkWord_and, mkWord_inj, Instr.wellFormed, stOk_iff]) rfl

theorem bsOpenR : Statement .bsOpenR :=
  of_row (opcodeMap[4]) (List.getElem_mem _) rfl rfl rfl
    (by simp [opcodeMap, maskZ_eq, mkWord_and, Instr.wellFormed]) rfl

theorem bsOpenW : Statement .bsOpenW :=
  of_row (opcodeMap[5]) (List.getElem_mem _) rfl rfl rfl
    (by simp [opcodeMap, maskZ_eq, mkWord_and, Instr.wellFormed]) rfl

theorem bsReadBit : Statement .bsReadBit :=
  of_row (opcodeMap[6]) (List.getElem_mem _) rfl rfl rfl
    (by simp [opcodeMap, maskZ_eq, mkWord_and, Instr.wellFormed]) rfl

theorem bsWriteBit (bit : BitVec 32) : Statement (.bsWriteBit bit) :=
  of_row (opcodeMap[7]) (List.getElem_mem _) rfl rfl rfl
    (by simp [opcodeMap, maskB_eq, mkWord_and, Instr.wellFormed]) rfl

theorem bsWriteBuf : Statement .bsWriteBuf :=
  of_row (opcodeMap[8]) (List.getElem_mem _) rfl rfl rfl
    (by simp [opcodeMap, maskZ_eq, mkWord_and, Instr.wellFormed]) rfl

theorem bsAtEnd : Statement .bsAtEnd :=
  of_row (opcodeMap[9]) (List.getElem_mem _) rfl rfl rfl
    (by simp [opcodeMap, maskZ_eq, mkWord_and, Instr.wellFormed]) rfl

theorem bsClose : Statement .bsClose :=
  of_row (opcodeMap[10]) (List.getElem_mem _) rfl rfl rfl
    (by simp [opcodeMap, maskZ_eq, mkWord_and, Instr.wellFormed]) rfl

theorem ftCreate (size : BitVec 24) : Statement (.ftCreate size) :=
  of_row (opcodeMap[11]) (List.getElem_mem _) rfl rfl rfl
    (by simp [opcodeMap, maskA_eq, mkWord_and, Instr.wellFormed]) rfl

theorem ftScan : Statement .ftScan :=
  of_row (opcodeMap[12]) (List.getElem_mem _) rfl rfl rfl
    (by simp [opcodeMap, maskZ_eq, mkWord_and, Instr.wellFormed]) rfl

theorem ftInc (sym : BitVec 24) : Statement (.ftInc sym) :=
  of_row (opcodeMap[13]) (List.getElem_mem _) rfl rfl rfl
    (by simp [opcodeMap, maskA_eq, mkWord_and, Instr.wellFormed]) rfl

theorem ftSet (sym : BitVec 24) (count : BitVec 32) : Statement (.ftSet sym count) :=
  of_row (opcodeMap[14]) (List.getElem_mem _) rfl rfl rfl
    (by simp [opcodeMap, maskAB_eq, mkWord_and, Instr.wellFormed]) rfl

theorem ftGet (sym : BitVec 24) : Statement (.ftGet sym) :=
  of_row (opcodeMap[15]) (List.getElem_mem _) rfl rfl rfl
    (by simp [opcodeMap, maskA_eq, mkWord_and, Instr.wellFormed]) rfl

theorem tbBuild : Statement .tbBuild :=
  of_row (opcodeMap[16]) (List.getElem_mem _) rfl rfl rfl
    (by simp [opcodeMap, maskZ_eq, mkWord_and, Instr.wellFormed]) rfl

theorem tbExtract : Statement .tbExtract :=
  of_row (opcodeMap[17]) (List.getElem_mem _) rfl rfl rfl
    (by simp [opcodeMap, maskZ_eq, mkWord_and, Instr.wellFormed]) rfl

theorem tbNode (idx : BitVec 24) (fsel : BitVec 32) : Statement (.tbNode idx fsel) :=
  of_row (opcodeMap[18]) (List.getElem_mem _) rfl rfl rfl
    (by simp [opcodeMap, maskN_eq, mkWord_and, mkWord_inj, Instr.wellFormed, fselOk_iff]) rfl

end Sys2Proof.Laws.OpcodeRow
end

