-- ==== Sys2Proof/Laws/Sort.lean ====
section
/-! SUPPORT. The comparator as a comparison of keys, and what the bubble passes make of a window (43_treebuilder.md
R182 to R185). A window is listed from its tail to index 0. -/

namespace Sys2Proof.Machine

/-! ### The comparator -/

/-- The rank of a symbol field in the tie-break: the sentinel above every symbol. -/
def tieRank (n : Node) : Int := if n.sym = sentinel then 1000 else n.sym.toInt

/-- A number that is larger for a node that sorts before. -/
def sortKey (sense : Bool) (n : Node) : Int :=
  (n.wt.toNat : Int) * 8192 + if sense then tieRank n else - tieRank n

theorem tieRank_bounds (n : Node) : -256 ≤ tieRank n ∧ tieRank n ≤ 1000 := by
  unfold tieRank
  split
  · omega
  · have h1 := BitVec.toInt_lt (x := n.sym)
    have h2 := BitVec.le_toInt n.sym
    simp at h1 h2
    omega

theorem tieRank_inj {x y : Node} : tieRank x = tieRank y ↔ x.sym = y.sym := by
  have h1 := BitVec.toInt_lt (x := x.sym)
  have h2 := BitVec.toInt_lt (x := y.sym)
  simp at h1 h2
  unfold tieRank
  constructor
  · intro h
    split at h <;> split at h
    · simp [*]
    · omega
    · omega
    · exact BitVec.eq_of_toInt_eq h
  · intro h; rw [h]

theorem tieBefore_iff (x y : Node) : tieBefore x y = true ↔ tieRank y < tieRank x := by
  have h1 := BitVec.toInt_lt (x := x.sym)
  have h2 := BitVec.toInt_lt (x := y.sym)
  simp at h1 h2
  unfold tieBefore tieRank Node.isInternal
  by_cases hx : x.sym = sentinel <;> by_cases hy : y.sym = sentinel
  · rw [hx, hy]; simp [BitVec.slt]
  · simp [hx, hy]; omega
  · simp [hx, hy]; omega
  · simp [hx, hy, BitVec.slt]

/-- The tie-break in the spec's words (43_treebuilder.md R182). -/
theorem tieBefore_iff_tieFirst (x y : Node) : tieBefore x y = true ↔ TieFirst x y := by
  unfold tieBefore TieFirst Node.isInternal sentinel
  by_cases hx : x.sym = 0x1FF#9 <;> by_cases hy : y.sym = 0x1FF#9 <;> simp [hx, hy, BitVec.slt]

/-- The comparator in the spec's words (43_treebuilder.md R182): heavier first, then the tie-break. -/
theorem before_iff_weight (sense : Bool) (x y : Node) : before sense x y = true ↔
    y.wt.toNat < x.wt.toNat ∨ (x.wt.toNat = y.wt.toNat ∧ if sense then TieFirst x y else TieFirst y x) := by
  unfold before
  by_cases hw : x.wt = y.wt
  · cases sense <;> simp [hw, tieBefore_iff_tieFirst]
  · have hw' : x.wt.toNat ≠ y.wt.toNat := fun h => hw (BitVec.eq_of_toNat_eq h)
    simp [hw, hw', BitVec.ult]

/-- The comparator compares keys. -/
theorem before_iff (sense : Bool) (x y : Node) : before sense x y = true ↔ sortKey sense y < sortKey sense x := by
  have bx := tieRank_bounds x
  have by' := tieRank_bounds y
  unfold before sortKey
  by_cases hw : x.wt = y.wt
  · cases sense <;> simp only [hw, ne_eq, not_true_eq_false, Bool.false_eq_true, if_false, if_true, tieBefore_iff] <;> omega
  · have hw' : x.wt.toNat ≠ y.wt.toNat := fun h => hw (BitVec.eq_of_toNat_eq h)
    simp only [hw, ne_eq, not_false_eq_true, if_true, BitVec.ult, decide_eq_true_iff]
    cases sense <;> simp only [Bool.false_eq_true, if_false, if_true] <;> omega

theorem before_eq_false (sense : Bool) (x y : Node) : before sense x y = false ↔ sortKey sense x ≤ sortKey sense y := by
  rw [← Bool.not_eq_true, before_iff]; omega

theorem sortKey_inj {sense : Bool} {x y : Node} : sortKey sense x = sortKey sense y ↔ x.wt = y.wt ∧ x.sym = y.sym := by
  have bx := tieRank_bounds x
  have by' := tieRank_bounds y
  rw [← tieRank_inj]
  unfold sortKey
  constructor
  · intro h
    cases sense <;> simp only [Bool.false_eq_true, if_false, if_true] at h
    all_goals
      have hw : x.wt.toNat = y.wt.toNat := by omega
      exact ⟨BitVec.eq_of_toNat_eq hw, by omega⟩
  · rintro ⟨h, h'⟩; rw [h, h']

/-- Two nodes the comparator does not order have the same key. -/
theorem unordered_iff (sense : Bool) (x y : Node) :
    (!before sense x y && !before sense y x) = decide (sortKey sense x = sortKey sense y) := by
  rw [Bool.eq_iff_iff]
  simp only [Bool.and_eq_true, Bool.not_eq_true', before_eq_false, decide_eq_true_iff]
  omega

/-! ### A pass -/

/-- The key of an entry. -/
def entryKey (sense : Bool) (e : Entry) : Int := sortKey sense e.node

theorem bubble_perm (sense : Bool) (x : Entry) (l : List Entry) : (bubble sense x l).Perm (x :: l) := by
  induction l generalizing x with
  | nil => exact .refl _
  | cons y l ih =>
    simp only [bubble]
    split
    · exact ((ih x).cons y).trans (.swap x y l)
    · exact (ih y).cons x

theorem sortPass_perm (sense : Bool) (w : List Entry) : (sortPass sense w).Perm w := by
  cases w with
  | nil => exact .refl _
  | cons x l => exact bubble_perm sense x l

theorem sortPasses_perm (sense : Bool) (n : Nat) (w : List Entry) : (sortPasses sense n w).Perm w := by
  induction n generalizing w with
  | zero => exact .refl _
  | succ n ih => exact (ih _).trans (sortPass_perm sense w)

theorem sortWindow_perm (sense : Bool) (w : List Entry) : (sortWindow sense w).Perm w := sortPasses_perm sense _ w

@[simp] theorem length_sortWindow (sense : Bool) (w : List Entry) : (sortWindow sense w).length = w.length :=
  (sortWindow_perm sense w).length_eq

/-- A pass carries the first of the largest keys to index 0. -/
theorem bubble_max (sense : Bool) (x : Entry) (l : List Entry) :
    ∃ c m, bubble sense x l = c ++ [m] ∧ c.length = l.length ∧ ∀ e ∈ x :: l, entryKey sense e ≤ entryKey sense m := by
  induction l generalizing x with
  | nil => exact ⟨[], x, rfl, rfl, by simp⟩
  | cons y l ih =>
    simp only [bubble]
    split <;> rename_i hb
    · obtain ⟨c, m, e, hl, hm⟩ := ih x
      refine ⟨y :: c, m, by rw [e]; rfl, by simp [hl], fun z hz => ?_⟩
      have hk := (before_iff sense x.node y.node).mp hb
      have hx := hm x List.mem_cons_self
      simp only [List.mem_cons] at hz hm
      rcases hz with rfl | rfl | hz
      · exact hx
      · exact (le_of_lt hk).trans hx
      · exact hm z (.inr hz)
    · obtain ⟨c, m, e, hl, hm⟩ := ih y
      refine ⟨x :: c, m, by rw [e]; rfl, by simp [hl], fun z hz => ?_⟩
      have hk := (before_eq_false sense x.node y.node).mp (by simpa using hb)
      have hy := hm y List.mem_cons_self
      simp only [List.mem_cons] at hz hm
      rcases hz with rfl | rfl | hz
      · exact hk.trans hy
      · exact hy
      · exact hm z (.inr hz)

/-- A sorted end whose keys are the largest is left as it is. -/
theorem bubble_append (sense : Bool) (x : Entry) (a b : List Entry)
    (hs : b.Pairwise fun u v => entryKey sense u ≤ entryKey sense v)
    (h : ∀ e ∈ x :: a, ∀ z ∈ b, entryKey sense e ≤ entryKey sense z) :
    bubble sense x (a ++ b) = bubble sense x a ++ b := by
  induction a generalizing x with
  | nil =>
    simp only [List.nil_append, bubble, List.singleton_append]
    induction b generalizing x with
    | nil => rfl
    | cons y b ih =>
      have hk : ¬ before sense x.node y.node = true := by
        rw [before_iff]
        exact not_lt.mpr (h x List.mem_cons_self y List.mem_cons_self)
      rw [bubble, if_neg hk, ih (List.Pairwise.of_cons hs)]
      intro e he z hz
      simp only [List.mem_cons, List.not_mem_nil, or_false] at he
      subst he
      exact List.rel_of_pairwise_cons hs hz
  | cons y a ih =>
    simp only [List.cons_append, bubble]
    split
    · rw [ih x]
      · rfl
      · intro e he z hz
        refine h e ?_ z hz
        simp only [List.mem_cons] at he ⊢
        rcases he with he | he
        · exact .inl he
        · exact .inr (.inr he)
    · rw [ih y]
      · rfl
      · intro e he z hz
        exact h e (List.mem_cons_of_mem _ he) z hz

/-- A pass keeps the entries of one key in their order. -/
theorem bubble_filter (sense : Bool) (k : Int) (x : Entry) (l : List Entry) :
    (bubble sense x l).filter (fun e => decide (entryKey sense e = k)) =
      (x :: l).filter (fun e => decide (entryKey sense e = k)) := by
  induction l generalizing x with
  | nil => rfl
  | cons y l ih =>
    simp only [bubble]
    split <;> rename_i hb
    · rw [List.filter_cons, ih x]
      have hk : entryKey sense y < entryKey sense x := (before_iff sense x.node y.node).mp hb
      simp only [List.filter_cons, decide_eq_true_eq]
      split <;> split <;> first | rfl | omega
    · rw [List.filter_cons, ih y, List.filter_cons (x := x)]

/-! ### All passes -/

/-- After `n` passes the last `n` entries (indices 0 to `n - 1`) are sorted and have the largest keys. -/
theorem sortPasses_sorted (sense : Bool) : ∀ (n : Nat) (a b : List Entry), a.length = n →
    (b.Pairwise fun u v => entryKey sense u ≤ entryKey sense v) →
    (∀ e ∈ a, ∀ z ∈ b, entryKey sense e ≤ entryKey sense z) →
    (sortPasses sense n (a ++ b)).Pairwise fun u v => entryKey sense u ≤ entryKey sense v
  | 0, a, b, hn, hs, _ => by
    rw [List.length_eq_zero_iff] at hn; subst hn; exact hs
  | n + 1, [], b, hn, _, _ => by simp at hn
  | n + 1, x :: a, b, hn, hs, h => by
    obtain ⟨c, m, e, hl, hm⟩ := bubble_max sense x a
    have e' : sortPass sense (x :: a ++ b) = c ++ m :: b := by
      show bubble sense x (a ++ b) = _
      rw [bubble_append sense x a b hs h, e, List.append_assoc]; rfl
    have hp : ∀ z, z ∈ c ++ [m] → z ∈ x :: a := fun z hz => (bubble_perm sense x a).mem_iff.mp (e ▸ hz)
    rw [sortPasses, e']
    refine sortPasses_sorted sense n c (m :: b) (by simp at hn; omega) ?_ ?_
    · refine List.pairwise_cons.mpr ⟨fun z hz => ?_, hs⟩
      exact h m (hp m (by simp)) z hz
    · intro u hu z hz
      have hu' := hp u (by simp [hu])
      rcases List.mem_cons.mp hz with rfl | hz
      · exact hm u hu'
      · exact h u hu' z hz

theorem sortPasses_filter (sense : Bool) (k : Int) : ∀ (n : Nat) (w : List Entry),
    (sortPasses sense n w).filter (fun e => decide (entryKey sense e = k)) =
      w.filter (fun e => decide (entryKey sense e = k))
  | 0, _ => rfl
  | n + 1, [] => by rw [sortPasses]; exact sortPasses_filter sense k n []
  | n + 1, x :: l => by rw [sortPasses, sortPasses_filter sense k n]; exact bubble_filter sense k x l

/-- The sorted window: no entry nearer the tail sorts before one nearer index 0. -/
theorem sortWindow_sorted (sense : Bool) (w : List Entry) :
    (sortWindow sense w).Pairwise fun u v => entryKey sense u ≤ entryKey sense v := by
  have := sortPasses_sorted sense w.length w [] rfl (by simp) (by simp)
  rw [List.append_nil] at this
  exact this

/-- Entries the comparator does not order stand by age, the younger one nearer the tail. -/
def InOrder (sense : Bool) (w : List Entry) : Prop :=
  w.Pairwise fun a c => entryKey sense a = entryKey sense c → c.idx.toNat < a.idx.toNat

theorem inOrder_iff (sense : Bool) (w : List Entry) : InOrder sense w ↔
    ∀ k, (w.filter fun e => decide (entryKey sense e = k)).Pairwise fun a c => c.idx.toNat < a.idx.toNat := by
  constructor
  · intro h k
    refine (List.Pairwise.filter _ h).imp_of_mem fun ha hc r => r ?_
    rw [of_decide_eq_true (List.mem_filter.mp ha).2, of_decide_eq_true (List.mem_filter.mp hc).2]
  · unfold InOrder
    induction w with
    | nil => exact fun _ => .nil
    | cons a l ih =>
      refine fun h => List.pairwise_cons.mpr ⟨fun c hc e => ?_, ih fun k => ?_⟩
      · have := h (entryKey sense a)
        rw [List.filter_cons_of_pos (by simp)] at this
        exact List.rel_of_pairwise_cons this (List.mem_filter.mpr ⟨hc, by simp [e]⟩)
      · exact (h k).sublist ((List.sublist_cons_self a l).filter _)

/-- The sort keeps that order. -/
theorem InOrder.sortWindow {sense : Bool} {w : List Entry} (h : InOrder sense w) :
    InOrder sense (sortWindow sense w) := by
  rw [inOrder_iff] at h ⊢
  intro k
  rw [Machine.sortWindow, sortPasses_filter]
  exact h k

end Sys2Proof.Machine
end

