-- ==== Sys2Proof/Laws/TreeBuilder.lean ====
section
/-! SUPPORT. A build: the forest that stands in the arena between its steps, and what the seed and the merge make of
it (43_treebuilder.md R186 to R194). -/

namespace Sys2Proof.Machine

/-! ### Small facts -/

theorem toNat_succ9 {x : BitVec 9} (h : x.toNat + 1 < 512) : (x + 1).toNat = x.toNat + 1 := by
  rw [BitVec.toNat_add]; exact Nat.mod_eq_of_lt (by simpa using h)

theorem alloc_some {p : Params} {tb u : TreeBuilder} {i : Idx} (h : alloc p tb = some (i, u)) :
    i = tb.nalloc ∧ u = { tb with nalloc := tb.nalloc + 1 } ∧ tb.nalloc.toNat ≠ p.nodeCap.val := by
  unfold alloc at h
  split at h
  · cases h
  · cases h; exact ⟨rfl, rfl, by assumption⟩

theorem alloc_none {p : Params} {tb : TreeBuilder} (h : alloc p tb = none) : tb.nalloc.toNat = p.nodeCap.val := by
  unfold alloc at h
  split at h
  · assumption
  · cases h

theorem ftRead_ok {ft : FreqTable} {i : Nat} {c : Count} (h : ftRead ft i = .ok c) :
    i < ft.asize.val ∧ memRead ft.counts i = some c ∧ countOf ft i = c := by
  unfold ftRead at h
  split at h
  · split at h
    · rename_i hi _ _ hm; cases h; exact ⟨hi, hm, by simp [countOf, hm]⟩
    · cases h
  · cases h

theorem nodeAt_ok {tb : TreeBuilder} {i : Idx} {n : Node} :
    nodeAt tb i = .ok n ↔ i.toNat < tb.nalloc.toNat ∧ memRead tb.nm i.toNat = some n := by
  unfold nodeAt
  split
  · split <;> simp_all
  · simp [*]

/-- What stands in WS after a window is written: the entry with `n` entries nearer index 0 is at index `n`. -/
theorem memRead_storeWindow : ∀ (w : List Entry) (ws : Entries Idx) (j : Nat),
    memRead (storeWindow w ws) j = if j < w.length then (w.reverse[j]?).map (·.idx) else memRead ws j
  | [], _, _ => rfl
  | e :: rest, ws, j => by
    rw [storeWindow, memRead_memWrite, memRead_storeWindow rest]
    by_cases h : j = rest.length
    · subst h; simp
    · by_cases h' : j < rest.length
      · rw [if_neg h, if_pos h', if_pos (by simp; omega), List.reverse_cons,
          List.getElem?_append_left (by simpa using h')]
      · rw [if_neg h, if_neg h', if_neg (by simp; omega)]

theorem memWf_storeWindow {ws : Entries Idx} (h : memWf ws = true) : ∀ w : List Entry, memWf (storeWindow w ws) = true
  | [] => h
  | _ :: rest => memWf_memWrite (memWf_storeWindow h rest) _ _

theorem nodeOk_of_lt {tb : TreeBuilder} {i : Nat} {n : Node} (h : i < tb.k.toNat)
    (ok : n.isLeaf = true ∧ n.isInternal = false ∧ n.sym.toNat < 256) : NodeOk tb i n := by
  rw [NodeOk, if_pos h]; exact ok

/-! ### The candidates of a merge -/

theorem Candidate.congr {tb u : TreeBuilder} (hk : u.k = tb.k) {j : Nat}
    (hm : ∀ i, i < j → memRead u.nm i = memRead tb.nm i) {i : Nat} (h : Candidate tb j i) : Candidate u j i :=
  ⟨h.1, fun m n h1 h2 h3 => h.2 m n (hk ▸ h1) h2 (hm m h2 ▸ h3)⟩

/-- What a merge took stays what it took when nodes are added above it. -/
theorem MergesLastTwo.extend {sense : Bool} {tb u : TreeBuilder} (hk : u.k = tb.k) {j : Nat}
    (hm : ∀ i, i ≤ j → memRead u.nm i = memRead tb.nm i) (h : MergesLastTwo sense tb j) : MergesLastTwo sense u j := by
  obtain ⟨n, hn, hl, hr, hb, hrest⟩ := h
  have hm' : ∀ i, i < j → memRead u.nm i = memRead tb.nm i := fun i hi => hm i (Nat.le_of_lt hi)
  have stands : ∀ a b, a < j → b < j → StandsBefore sense tb a b → StandsBefore sense u a b :=
    fun a b ha hb ⟨x, y, hx, hy, e⟩ => ⟨x, y, by rw [hm' a ha, hx], by rw [hm' b hb, hy], e⟩
  exact ⟨n, by rw [hm j (Nat.le_refl j), hn], hl.congr hk hm', hr.congr hk hm', stands _ _ hl.1 hr.1 hb,
    fun i hi h1 h2 => stands _ _ hi.1 hl.1
      (hrest i (hi.congr hk.symm fun a ha => (hm' a ha).symm) h1 h2)⟩

/-- A node that stands before another is no lighter. -/
theorem StandsBefore.weight {sense : Bool} {tb : TreeBuilder} {i j : Nat} (h : StandsBefore sense tb i j) :
    ∃ x y, memRead tb.nm i = some x ∧ memRead tb.nm j = some y ∧ y.wt.toNat ≤ x.wt.toNat := by
  obtain ⟨x, y, hx, hy, h⟩ := h
  refine ⟨x, y, hx, hy, ?_⟩
  rw [← Bool.not_eq_true, before_iff_weight, before_iff_weight] at h
  omega

/-- The last two entries of the sorted window are the two lightest (43_treebuilder.md R187). -/
theorem MergesLastTwo.lightest {sense : Bool} {tb : TreeBuilder} {j : Nat} (h : MergesLastTwo sense tb j) :
    MergesLightest tb j := by
  obtain ⟨n, hn, -, -, hlr, hrest⟩ := h
  obtain ⟨l, r, hl, hr, hle⟩ := hlr.weight
  refine ⟨n, l, r, hn, hl, hr, hle, fun i hi h1 h2 => ?_⟩
  obtain ⟨c, l', hc, hl', hle'⟩ := (hrest i hi h1 h2).weight
  rw [hl] at hl'; cases hl'
  exact ⟨c, hc, hle'⟩

/-! ### The forest -/

/-- What holds of a build between its steps: `tb0` is the tree builder the build started from, `L` the leaves made so
far with their counts, in the order of their nodes. -/
structure Forest (p : Params) (tb0 : TreeBuilder) (L : List (Nat × Nat)) (b : Build) : Prop where
  cap : b.tb.nalloc.toNat ≤ p.nodeCap.val
  k256 : b.tb.k.toNat ≤ 256
  klen : b.tb.k.toNat = L.length
  count : b.tb.nalloc.toNat + b.win.length = 2 * b.tb.k.toNat
  kle : b.tb.k.toNat ≤ b.tb.nalloc.toNat
  symbols : ∀ a ∈ L, a.1 < 256 ∧ a.2 < 4294967296
  leaf : ∀ j a, L[j]? = some a → memRead b.tb.nm j =
    some { sym := BitVec.ofNat 9 a.1, wt := BitVec.ofNat 40 a.2, left := noneIdx, right := noneIdx }
  nodes : ∀ i, i < b.tb.nalloc.toNat → ∃ n, memRead b.tb.nm i = some n ∧ NodeOk b.tb i n
  oneParent : OneParent b.tb
  entry : ∀ e ∈ b.win, e.idx.toNat < b.tb.nalloc.toNat ∧ memRead b.tb.nm e.idx.toNat = some e.node
  distinct : (b.win.map (·.idx)).Nodup
  free : ∀ e ∈ b.win, ∀ j n, b.tb.k.toNat ≤ j → j < b.tb.nalloc.toNat → memRead b.tb.nm j = some n →
    n.left ≠ e.idx ∧ n.right ≠ e.idx
  stable : InOrder p.tieArraySense b.win
  living : ∀ i, Candidate b.tb b.tb.nalloc.toNat i → ∃ e ∈ b.win, e.idx.toNat = i
  picks : ∀ j, b.tb.k.toNat ≤ j → j < b.tb.nalloc.toNat → MergesLastTwo p.tieArraySense b.tb j
  noRoot : b.tb.rootValid = false ∧ b.tb.root = noneIdx
  weight : (b.win.map fun e => e.node.wt.toNat).sum = (L.map (·.2)).sum
  trees : ∃ T : Idx → HTree, (∀ e ∈ b.win, TreeAt b.tb (T e.idx) e.idx) ∧
    (b.win.flatMap fun e => (T e.idx).leaves).Perm L
  ws : ∀ j, j < b.win.length → memRead b.tb.ws j = (b.win.reverse[j]?).map (·.idx)
  nmRest : ∀ j, b.tb.nalloc.toNat ≤ j → memRead b.tb.nm j = memRead tb0.nm j
  wsRest : ∀ j, b.tb.k.toNat ≤ j → memRead b.tb.ws j = memRead tb0.ws j
  nmWf : memWf tb0.nm = true → memWf b.tb.nm = true
  wsWf : memWf tb0.ws = true → memWf b.tb.ws = true

/-- The last allocated node is at the tail. -/
def TailIsNewest (b : Build) : Prop := ∀ e rest, b.win = e :: rest → e.idx.toNat + 1 = b.tb.nalloc.toNat

theorem Forest.start (p : Params) (tb0 : TreeBuilder) : Forest p tb0 [] { tb := clearTree tb0, win := [] } where
  cap := Nat.zero_le _
  k256 := Nat.zero_le _
  klen := rfl
  count := rfl
  kle := Nat.le_refl _
  symbols := by simp
  leaf := by simp
  nodes := by intro i h; exact absurd h (Nat.not_lt_zero _)
  oneParent := by intro i j n m _ h; exact absurd h (Nat.not_lt_zero _)
  entry := by simp
  distinct := by simp
  free := by simp
  stable := .nil
  living := fun i h => absurd h.1 (Nat.not_lt_zero i)
  picks := fun j _ h => absurd h (Nat.not_lt_zero j)
  noRoot := ⟨rfl, rfl⟩
  weight := rfl
  trees := ⟨fun _ => .leaf 0 0, by simp, by simp⟩
  ws := by intro j h; exact absurd h (Nat.not_lt_zero _)
  nmRest := fun _ _ => rfl
  wsRest := fun _ _ => rfl
  nmWf := id
  wsWf := id

/-- A tree in the arena stays one when nodes are added above it. -/
theorem TreeAt.extend {tb u : TreeBuilder} (hn : tb.nalloc.toNat ≤ u.nalloc.toNat)
    (hm : ∀ i, i < tb.nalloc.toNat → memRead u.nm i = memRead tb.nm i) :
    ∀ (h : HTree) (i : Idx), TreeAt tb h i → TreeAt u h i
  | .leaf _ _, i, ⟨n, hx, rest⟩ => by
    rw [nodeAt_ok] at hx
    exact ⟨n, nodeAt_ok.mpr ⟨by omega, by rw [hm _ hx.1]; exact hx.2⟩, rest⟩
  | .node l r, i, ⟨n, hx, hl, tl, tr⟩ => by
    rw [nodeAt_ok] at hx
    exact ⟨n, nodeAt_ok.mpr ⟨by omega, by rw [hm _ hx.1]; exact hx.2⟩, hl, tl.extend hn hm, tr.extend hn hm⟩

theorem isLeaf_leafNode (s : Nat) (c : Count) : (leafNode s c).isLeaf = true := rfl

theorem isInternal_leafNode {s : Nat} (h : s < 256) (c : Count) : (leafNode s c).isInternal = false := by
  simp only [leafNode, Node.isInternal, beq_eq_false_iff_ne, ne_eq]
  intro e
  have := congrArg BitVec.toNat e
  simp [sentinel] at this
  omega

/-- One turn of the seed loop that makes a leaf (43_treebuilder.md R186). -/
theorem Forest.addLeaf {p : Params} {tb0 u : TreeBuilder} {L : List (Nat × Nat)} {b : Build} (f : Forest p tb0 L b)
    (hk : b.tb.nalloc.toNat = b.tb.k.toNat) (h255 : b.tb.k.toNat < 256) {i : Idx} (ha : alloc p b.tb = some (i, u))
    {s : Nat} (hs : s < 256) (c : Count) :
    Forest p tb0 (L ++ [(s, c.toNat)]) (Machine.addLeaf i (leafNode s c) { b with tb := u }) ∧
      (Machine.addLeaf i (leafNode s c) { b with tb := u }).tb.nalloc.toNat =
        (Machine.addLeaf i (leafNode s c) { b with tb := u }).tb.k.toNat ∧
      TailIsNewest (Machine.addLeaf i (leafNode s c) { b with tb := u }) := by
  obtain ⟨rfl, rfl, hne⟩ := alloc_some ha
  have hcap := f.cap
  have hlt := p.nodeCap.isLt
  have e1 : (b.tb.nalloc + 1).toNat = b.tb.nalloc.toNat + 1 := toNat_succ9 (by omega)
  have e2 : (b.tb.k + 1).toNat = b.tb.k.toNat + 1 := toNat_succ9 (by omega)
  have hlen := f.count
  have hkl := f.klen
  have wlen : b.win.length = b.tb.k.toNat := by omega
  refine ⟨?_, by show (b.tb.nalloc + 1).toNat = (b.tb.k + 1).toNat; omega, ?_⟩
  swap
  · intro e rest h
    simp only [Machine.addLeaf, List.cons.injEq] at h
    obtain ⟨rfl, -⟩ := h
    exact e1.symm
  have hread : ∀ j, j ≠ b.tb.nalloc.toNat →
      memRead (memWrite b.tb.nm b.tb.nalloc.toNat (leafNode s c)) j = memRead b.tb.nm j :=
    fun j hj => memRead_memWrite_ne _ _ hj
  have hleafk : ∀ i n, i < b.tb.k.toNat → NodeOk b.tb i n →
      n.isLeaf = true ∧ n.isInternal = false ∧ n.sym.toNat < 256 := by
    intro i n hi hn; rw [NodeOk, if_pos hi] at hn; exact hn
  have hsym : (BitVec.ofNat 9 s).toNat = s := by rw [BitVec.toNat_ofNat]; omega
  constructor
  case cap => show (b.tb.nalloc + 1).toNat ≤ _; omega
  case k256 => show (b.tb.k + 1).toNat ≤ 256; omega
  case klen => show (b.tb.k + 1).toNat = _; simp; omega
  case count => show (b.tb.nalloc + 1).toNat + (_ :: b.win).length = 2 * (b.tb.k + 1).toNat; simp; omega
  case kle => show (b.tb.k + 1).toNat ≤ (b.tb.nalloc + 1).toNat; omega
  case symbols =>
    intro a ha
    rcases List.mem_append.mp ha with ha | ha
    · exact f.symbols a ha
    · simp only [List.mem_singleton] at ha; subst ha; exact ⟨hs, c.isLt⟩
  case leaf =>
    intro j a hj
    show memRead (memWrite b.tb.nm b.tb.nalloc.toNat (leafNode s c)) j = _
    by_cases h : j < L.length
    · rw [List.getElem?_append_left h] at hj
      rw [hread j (by omega)]; exact f.leaf j a hj
    · have hj' : j < (L ++ [(s, c.toNat)]).length := (List.getElem?_eq_some_iff.mp hj).1
      have : j = L.length := by simp at hj'; omega
      subst this
      rw [List.getElem?_append_right (Nat.le_refl _)] at hj
      simp at hj; subst hj
      have : L.length = b.tb.nalloc.toNat := by omega
      rw [this, memRead_memWrite_same]
      simp only [leafNode, Option.some.injEq, Node.mk.injEq, true_and, and_true]
      apply BitVec.eq_of_toNat_eq
      simp
  case nodes =>
    intro j hj
    have hj : j < b.tb.nalloc.toNat + 1 := by rw [← e1]; exact hj
    by_cases h : j = b.tb.nalloc.toNat
    · refine ⟨leafNode s c, ?_, ?_⟩
      · show memRead (memWrite _ _ _) j = _; rw [h, memRead_memWrite_same]
      · exact nodeOk_of_lt (by show j < (b.tb.k + 1).toNat; omega)
          ⟨rfl, isInternal_leafNode hs c, by show (BitVec.ofNat 9 s).toNat < 256; omega⟩
    · obtain ⟨n, hn, ok⟩ := f.nodes j (by omega)
      refine ⟨n, by show memRead (memWrite _ _ _) j = _; rw [hread j h]; exact hn, ?_⟩
      exact nodeOk_of_lt (by show j < (b.tb.k + 1).toNat; omega) (hleafk j n (by omega) ok)
  case oneParent =>
    intro i j n m hi hi' hj hj'
    have hi : b.tb.k.toNat + 1 ≤ i := by rw [← e2]; exact hi
    have hi' : i < b.tb.nalloc.toNat + 1 := by rw [← e1]; exact hi'
    omega
  case entry =>
    intro e he
    rcases List.mem_cons.mp he with rfl | he
    · exact ⟨by show b.tb.nalloc.toNat < (b.tb.nalloc + 1).toNat; omega,
        by show memRead (memWrite _ _ _) _ = _; rw [memRead_memWrite_same]⟩
    · obtain ⟨h1, h2⟩ := f.entry e he
      exact ⟨by show e.idx.toNat < (b.tb.nalloc + 1).toNat; omega,
        by show memRead (memWrite _ _ _) _ = _; rw [hread _ (by omega)]; exact h2⟩
  case distinct =>
    refine List.nodup_cons.mpr ⟨fun h => ?_, f.distinct⟩
    obtain ⟨e, he, hx⟩ := List.mem_map.mp h
    have := (f.entry e he).1
    simp only at hx
    rw [hx] at this
    omega
  case free =>
    intro e he j n hj hj'
    have hi : b.tb.k.toNat + 1 ≤ j := by rw [← e2]; exact hj
    have hi' : j < b.tb.nalloc.toNat + 1 := by rw [← e1]; exact hj'
    omega
  case stable => exact List.pairwise_cons.mpr ⟨fun e he _ => (f.entry e he).1, f.stable⟩
  case living =>
    intro j hj
    have hj : j < b.tb.nalloc.toNat + 1 := by rw [← e1]; exact hj.1
    by_cases h : j = b.tb.nalloc.toNat
    · exact ⟨_, List.mem_cons_self, h.symm⟩
    · obtain ⟨e, he, hx⟩ := f.living j ⟨by omega, fun m n h1 h2 => by omega⟩
      exact ⟨e, List.mem_cons_of_mem _ he, hx⟩
  case picks =>
    intro j hj hj'
    have hj : b.tb.k.toNat + 1 ≤ j := by rw [← e2]; exact hj
    have hj' : j < b.tb.nalloc.toNat + 1 := by rw [← e1]; exact hj'
    omega
  case noRoot => exact f.noRoot
  case weight =>
    have := f.weight
    simp only [Machine.addLeaf, List.map_cons, List.sum_cons, List.map_append, List.sum_append, List.map_nil,
      List.sum_nil, this, leafNode, BitVec.toNat_setWidth]
    have := c.isLt
    omega
  case trees =>
    obtain ⟨T, hT, hp⟩ := f.trees
    have hext : ∀ h j, TreeAt b.tb h j → TreeAt (Machine.addLeaf b.tb.nalloc (leafNode s c)
        { b with tb := { b.tb with nalloc := b.tb.nalloc + 1 } }).tb h j := by
      intro h j
      refine TreeAt.extend (by show _ ≤ (b.tb.nalloc + 1).toNat; omega) (fun i hi => ?_) h j
      show memRead (memWrite _ _ _) i = _
      rw [hread i (by omega)]
    refine ⟨Function.update T b.tb.nalloc (.leaf s c.toNat), ?_, ?_⟩
    · intro e he
      rcases List.mem_cons.mp he with rfl | he
      · simp only [Function.update_self]
        refine ⟨leafNode s c, nodeAt_ok.mpr ⟨by show b.tb.nalloc.toNat < (b.tb.nalloc + 1).toNat; omega,
          memRead_memWrite_same ..⟩, rfl, hs, rfl, ?_⟩
        have := c.isLt
        simp only [leafNode, BitVec.toNat_setWidth]; omega
      · have hne : e.idx ≠ b.tb.nalloc := fun h => by have := (f.entry e he).1; rw [h] at this; omega
        rw [Function.update_of_ne hne]
        exact hext _ _ (hT e he)
    · have hrest : (b.win.flatMap fun e => (Function.update T b.tb.nalloc (.leaf s c.toNat) e.idx).leaves) =
          b.win.flatMap fun e => (T e.idx).leaves := by
        refine List.flatMap_congr fun e he => ?_
        have hne : e.idx ≠ b.tb.nalloc := fun h => by have := (f.entry e he).1; rw [h] at this; omega
        rw [Function.update_of_ne hne]
      show ((⟨b.tb.nalloc, leafNode s c⟩ :: b.win : List Entry).flatMap _).Perm _
      rw [List.flatMap_cons, hrest]
      simp only [Function.update_self, HTree.leaves]
      exact (List.perm_append_comm).trans (hp.append_right _)
  case ws =>
    intro j hj
    have hj : j < b.win.length + 1 := hj
    show memRead (memWrite b.tb.ws b.tb.k.toNat b.tb.nalloc) j =
      ((⟨b.tb.nalloc, leafNode s c⟩ :: b.win : List Entry).reverse[j]?).map _
    rw [memRead_memWrite, List.reverse_cons]
    by_cases h : j = b.tb.k.toNat
    · subst h
      rw [if_pos rfl, ← wlen, List.getElem?_append_right (by simp)]
      simp
    · rw [if_neg h, List.getElem?_append_left (by simp; omega)]
      exact f.ws j (by omega)
  case nmRest =>
    intro j hj
    have hj : b.tb.nalloc.toNat + 1 ≤ j := by rw [← e1]; exact hj
    show memRead (memWrite _ _ _) j = _
    rw [hread j (by omega)]
    exact f.nmRest j (by omega)
  case wsRest =>
    intro j hj
    have hj : b.tb.k.toNat + 1 ≤ j := by rw [← e2]; exact hj
    show memRead (memWrite _ _ _) j = _
    rw [memRead_memWrite_ne _ _ (show j ≠ b.tb.k.toNat by omega)]
    exact f.wsRest j (by omega)
  case nmWf => exact fun h => memWf_memWrite (f.nmWf h) _ _
  case wsWf => exact fun h => memWf_memWrite (f.wsWf h) _ _

/-- The leaves a list of symbols gives: those with nonzero count. -/
def seedLeaves (ft : FreqTable) (syms : List Nat) : List (Nat × Nat) :=
  (syms.filter fun i => countOf ft i != 0).map fun i => (i, (countOf ft i).toNat)

/-- What the seed loop makes of a forest of leaves (43_treebuilder.md R186, R191). -/
def SeedEnds (p : Params) (tb0 : TreeBuilder) (ft : FreqTable) (L : List (Nat × Nat)) (syms : List Nat) : Phase → Prop
  | .ok b => Forest p tb0 (L ++ seedLeaves ft syms) b ∧ b.tb.nalloc.toNat = b.tb.k.toNat ∧ TailIsNewest b
  | .allocFail b => b.tb.nalloc.toNat = b.tb.k.toNat ∧ b.tb.nalloc.toNat = p.nodeCap.val ∧
      ∃ n, n < (seedLeaves ft syms).length ∧ Forest p tb0 (L ++ (seedLeaves ft syms).take n) b
  | .unreadable _ => ¬ ft.Inv

theorem seedFrom_ends (p : Params) (tb0 : TreeBuilder) (ft : FreqTable) : ∀ (syms : List Nat) (L : List (Nat × Nat))
    (b : Build), Forest p tb0 L b → b.tb.nalloc.toNat = b.tb.k.toNat → TailIsNewest b →
    L.length + syms.length ≤ 256 → (∀ s ∈ syms, s < ft.asize.val ∧ s < 256) →
    SeedEnds p tb0 ft L syms (seedFrom p ft syms b)
  | [], L, b, f, hk, hn, _, _ => by
    simp only [seedFrom, SeedEnds, seedLeaves, List.filter_nil, List.map_nil, List.append_nil]
    exact ⟨f, hk, hn⟩
  | s :: rest, L, b, f, hk, hn, hlen, hs => by
    have hs0 := hs s List.mem_cons_self
    have hrest : ∀ x ∈ rest, x < ft.asize.val ∧ x < 256 := fun x hx => hs x (List.mem_cons_of_mem _ hx)
    simp only [List.length_cons] at hlen
    have hkl := f.klen
    unfold seedFrom
    split
    · rename_i g hg
      intro inv
      rw [ftRead_entry inv hs0.1] at hg; cases hg
    rename_i c hc
    have hcount := (ftRead_ok hc).2.2
    split
    · rename_i h0
      have e : seedLeaves ft (s :: rest) = seedLeaves ft rest := by
        simp [seedLeaves, hcount, h0]
      have := seedFrom_ends p tb0 ft rest L b f hk hn (by omega) hrest
      revert this
      cases seedFrom p ft rest b <;> simp only [SeedEnds, e] <;> exact id
    · rename_i h0
      have e : seedLeaves ft (s :: rest) = (s, c.toNat) :: seedLeaves ft rest := by
        rw [seedLeaves, List.filter_cons_of_pos (by rw [hcount]; simpa using h0), List.map_cons, hcount, seedLeaves]
      split
      · rename_i ha
        refine ⟨hk, alloc_none ha, 0, by rw [e]; simp, by simpa using f⟩
      · rename_i i u ha
        obtain ⟨f', hk', hn'⟩ := f.addLeaf hk (by omega) ha hs0.2 c
        have := seedFrom_ends p tb0 ft rest _ _ f' hk' hn' (by simp; omega) hrest
        revert this
        cases seedFrom p ft rest (Machine.addLeaf i (leafNode s c) { b with tb := u }) with
        | ok b' => simp [SeedEnds, e]
        | allocFail b' =>
          simp only [SeedEnds, e]
          rintro ⟨h1, h2, n, hn, fr⟩
          exact ⟨h1, h2, n + 1, by simpa using hn, by simpa using fr⟩
        | unreadable g => exact id

/-- The seed of a command (43_treebuilder.md R186, R190). -/
theorem seed_ends (p : Params) (tb0 : TreeBuilder) (ft : FreqTable) :
    SeedEnds p tb0 ft [] (List.range ft.asize.val) (seed p ft { tb := clearTree tb0, win := [] }) := by
  have := ft.asize.isLt
  refine seedFrom_ends p tb0 ft _ [] _ (.start p tb0) rfl (by intro e r h; simp at h) (by simp; omega) fun s h => ?_
  rw [List.mem_range] at h; exact ⟨h, by omega⟩

theorem seedLeaves_range (ft : FreqTable) :
    seedLeaves ft (List.range ft.asize.val) = (activeSymbols ft).map fun i => (i, (countOf ft i).toNat) := rfl

/-! ### Merging -/

/-- The sort leaves the forest (43_treebuilder.md R185, R187). -/
theorem Forest.sorted {p : Params} {tb0 : TreeBuilder} {L : List (Nat × Nat)} {b : Build} (f : Forest p tb0 L b)
    {sense : Bool} (hs : sense = p.tieArraySense) : Forest p tb0 L (sortedBuild sense b) where
  cap := f.cap
  k256 := f.k256
  klen := f.klen
  count := by show _ + (sortWindow sense b.win).length = _; rw [length_sortWindow]; exact f.count
  kle := f.kle
  symbols := f.symbols
  leaf := f.leaf
  nodes := f.nodes
  oneParent := f.oneParent
  entry := fun e he => f.entry e ((sortWindow_perm sense b.win).mem_iff.mp he)
  distinct := (((sortWindow_perm sense b.win).map _).nodup_iff).mpr f.distinct
  free := fun e he => f.free e ((sortWindow_perm sense b.win).mem_iff.mp he)
  stable := hs ▸ (hs ▸ f.stable : InOrder sense b.win).sortWindow
  living := fun i hi => by
    obtain ⟨e, he, hx⟩ := f.living i (hi.congr rfl fun _ _ => rfl)
    exact ⟨e, (sortWindow_perm sense b.win).mem_iff.mpr he, hx⟩
  picks := fun j h1 h2 => (f.picks j h1 h2).extend rfl fun _ _ => rfl
  noRoot := f.noRoot
  weight := (((sortWindow_perm sense b.win).map _).sum_eq).trans f.weight
  trees := by
    obtain ⟨T, hT, hp⟩ := f.trees
    exact ⟨T, fun e he => TreeAt.extend (tb := b.tb) (u := (sortedBuild sense b).tb) (Nat.le_refl _) (fun _ _ => rfl) _ _
        (hT e ((sortWindow_perm sense b.win).mem_iff.mp he)),
      (List.Perm.flatMap_right _ (sortWindow_perm sense b.win)).trans hp⟩
  ws := by
    intro j hj
    show memRead (storeWindow (sortWindow sense b.win) b.tb.ws) j = _
    rw [memRead_storeWindow, if_pos (show j < (sortWindow sense b.win).length from hj)]; rfl
  nmRest := f.nmRest
  wsRest := by
    intro j hj
    have := f.count; have := f.kle
    have hj : b.tb.k.toNat ≤ j := hj
    show memRead (storeWindow (sortWindow sense b.win) b.tb.ws) j = _
    rw [memRead_storeWindow, if_neg (by rw [length_sortWindow]; omega)]
    exact f.wsRest j hj
  nmWf := f.nmWf
  wsWf := fun h => memWf_storeWindow (f.wsWf h) _

theorem sum_le_of_mem {l : List Nat} {n : Nat} (h : ∀ x ∈ l, x ≤ n) : l.sum ≤ l.length * n := by
  induction l with
  | nil => simp
  | cons a l ih =>
    have := h a List.mem_cons_self
    have := ih fun x hx => h x (List.mem_cons_of_mem _ hx)
    simp only [List.sum_cons, List.length_cons, Nat.add_mul]
    omega

/-- The sum of all counts fits a weight (00_scope.md R7). -/
theorem Forest.weight_bound {p : Params} {tb0 : TreeBuilder} {L : List (Nat × Nat)} {b : Build} (f : Forest p tb0 L b) :
    (b.win.map fun e => e.node.wt.toNat).sum < 2 ^ 40 := by
  have h1 : (L.map (·.2)).sum ≤ (L.map (·.2)).length * 4294967295 := by
    refine sum_le_of_mem fun x hx => ?_
    obtain ⟨a, ha, rfl⟩ := List.mem_map.mp hx
    have := (f.symbols a ha).2
    omega
  have := f.klen; have := f.k256
  rw [f.weight]
  rw [List.length_map] at h1
  have : L.length * 4294967295 ≤ 256 * 4294967295 := Nat.mul_le_mul_right _ (by omega)
  omega

/-- One merge step: the two entries at the tail become the children of a new node (43_treebuilder.md R187). -/
theorem Forest.merge {p : Params} {tb0 u : TreeBuilder} {L : List (Nat × Nat)} {b : Build} (f : Forest p tb0 L b)
    {i : Idx} (ha : alloc p b.tb = some (i, u)) {r l : Entry} {rest : List Entry} (hw : b.win = r :: l :: rest)
    (hsorted : b.win.Pairwise fun u v => entryKey p.tieArraySense u ≤ entryKey p.tieArraySense v) :
    Forest p tb0 L (replaceTail i (mergedNode l r) rest u) ∧
      TailIsNewest (replaceTail i (mergedNode l r) rest u) := by
  obtain ⟨rfl, rfl, hne⟩ := alloc_some ha
  have hcap := f.cap
  have hlt := p.nodeCap.isLt
  have e1 : (b.tb.nalloc + 1).toNat = b.tb.nalloc.toNat + 1 := toNat_succ9 (by omega)
  have hkle := f.kle
  have hlen := f.count
  rw [hw] at hlen
  simp only [List.length_cons] at hlen
  have hbound := f.weight_bound
  have hr := f.entry r (by simp [hw])
  have hl := f.entry l (by simp [hw])
  have hrest : ∀ e ∈ rest, e ∈ b.win := fun e he => by simp [hw, he]
  have hd := f.distinct
  rw [hw] at hd
  simp only [List.map_cons, List.nodup_cons, List.mem_cons, not_or, List.mem_map, not_exists, not_and] at hd
  obtain ⟨⟨hrl, hrr⟩, hlr, hrestd⟩ := hd
  have hread : ∀ j, j ≠ b.tb.nalloc.toNat →
      memRead (memWrite b.tb.nm b.tb.nalloc.toNat (mergedNode l r)) j = memRead b.tb.nm j :=
    fun j hj => memRead_memWrite_ne _ _ hj
  have hwt : (mergedNode l r).wt.toNat = l.node.wt.toNat + r.node.wt.toNat := by
    rw [hw] at hbound
    simp only [List.map_cons, List.sum_cons] at hbound
    show (l.node.wt + r.node.wt).toNat = _
    rw [BitVec.toNat_add]
    exact Nat.mod_eq_of_lt (by omega)
  have hnotleaf : (mergedNode l r).isLeaf = false := by
    have : l.idx ≠ noneIdx := fun h => by have := hl.1; rw [h] at this; simp [noneIdx] at this; omega
    simp [Node.isLeaf, mergedNode, this]
  have hidx : ∀ e ∈ b.win, e.idx ≠ b.tb.nalloc := fun e he h => by
    have := (f.entry e he).1; rw [h] at this; omega
  refine ⟨?_, ?_⟩
  swap
  · intro e q h
    simp only [replaceTail, List.cons.injEq] at h
    obtain ⟨rfl, -⟩ := h
    exact e1.symm
  constructor
  case cap => show (b.tb.nalloc + 1).toNat ≤ _; omega
  case k256 => exact f.k256
  case klen => exact f.klen
  case count =>
    show (b.tb.nalloc + 1).toNat + (_ :: rest).length = 2 * b.tb.k.toNat
    simp only [List.length_cons]; omega
  case kle => show b.tb.k.toNat ≤ (b.tb.nalloc + 1).toNat; omega
  case symbols => exact f.symbols
  case leaf =>
    intro j a hj
    have : j < L.length := (List.getElem?_eq_some_iff.mp hj).1
    have hkl := f.klen
    show memRead (memWrite _ _ _) j = _
    rw [hread j (by omega)]
    exact f.leaf j a hj
  case nodes =>
    intro j hj
    have hj : j < b.tb.nalloc.toNat + 1 := by rw [← e1]; exact hj
    by_cases h : j = b.tb.nalloc.toNat
    · refine ⟨mergedNode l r, ?_, ?_⟩
      · show memRead (memWrite _ _ _) j = _; rw [h, memRead_memWrite_same]
      · have hjk : ¬ j < b.tb.k.toNat := by omega
        show if j < b.tb.k.toNat then _ else _
        rw [if_neg hjk]
        refine ⟨hnotleaf, rfl, by show l.idx.toNat < j; omega, by show r.idx.toNat < j; omega, l.node, r.node, ?_, ?_,
          hwt⟩
        · show memRead (memWrite _ _ _) l.idx.toNat = _
          rw [hread _ (by omega)]; exact hl.2
        · show memRead (memWrite _ _ _) r.idx.toNat = _
          rw [hread _ (by omega)]; exact hr.2
    · obtain ⟨n, hn, ok⟩ := f.nodes j (by omega)
      refine ⟨n, by show memRead (memWrite _ _ _) j = _; rw [hread j h]; exact hn, ?_⟩
      unfold NodeOk at ok ⊢
      show if j < b.tb.k.toNat then _ else _
      split
      · rename_i hk; rw [if_pos hk] at ok; exact ok
      · rename_i hk
        rw [if_neg hk] at ok
        obtain ⟨a1, a2, a3, a4, x, y, hx, hy, a5⟩ := ok
        refine ⟨a1, a2, a3, a4, x, y, ?_, ?_, a5⟩
        · show memRead (memWrite _ _ _) n.left.toNat = _
          rw [hread _ (by omega)]; exact hx
        · show memRead (memWrite _ _ _) n.right.toNat = _
          rw [hread _ (by omega)]; exact hy
  case oneParent =>
    intro x y n m hx hx' hy hy' hn hm
    have hx' : x < b.tb.nalloc.toNat + 1 := by rw [← e1]; exact hx'
    have hy' : y < b.tb.nalloc.toNat + 1 := by rw [← e1]; exact hy'
    have hx : b.tb.k.toNat ≤ x := hx
    have hy : b.tb.k.toNat ≤ y := hy
    have hn : memRead (memWrite b.tb.nm b.tb.nalloc.toNat (mergedNode l r)) x = some n := hn
    have hm : memRead (memWrite b.tb.nm b.tb.nalloc.toNat (mergedNode l r)) y = some m := hm
    have fl := f.free l (by simp [hw])
    have fr := f.free r (by simp [hw])
    by_cases ex : x = b.tb.nalloc.toNat
    · rw [ex, memRead_memWrite_same] at hn
      cases hn
      by_cases ey : y = b.tb.nalloc.toNat
      · rw [ey, memRead_memWrite_same] at hm
        cases hm
        exact ⟨fun h => hrl h.symm, fun h => absurd (ex.trans ey.symm) h⟩
      · rw [hread y ey] at hm
        have h1 := fl y m hy (by omega) hm
        have h2 := fr y m hy (by omega) hm
        exact ⟨fun h => h1.2 h.symm, fun _ => ⟨fun h => h1.1 h.symm, fun h => h2.2 h.symm⟩⟩
    · rw [hread x ex] at hn
      by_cases ey : y = b.tb.nalloc.toNat
      · rw [ey, memRead_memWrite_same] at hm
        cases hm
        have h1 := fl x n hx (by omega) hn
        have h2 := fr x n hx (by omega) hn
        exact ⟨h2.1, fun _ => ⟨h1.1, h2.2⟩⟩
      · rw [hread y ey] at hm
        exact f.oneParent x y n m hx (by omega) hy (by omega) hn hm
  case entry =>
    intro e he
    rcases List.mem_cons.mp he with rfl | he
    · exact ⟨by show b.tb.nalloc.toNat < (b.tb.nalloc + 1).toNat; omega, memRead_memWrite_same ..⟩
    · obtain ⟨h1, h2⟩ := f.entry e (hrest e he)
      exact ⟨by show e.idx.toNat < (b.tb.nalloc + 1).toNat; omega,
        by show memRead (memWrite _ _ _) _ = _; rw [hread _ (by omega)]; exact h2⟩
  case distinct =>
    refine List.nodup_cons.mpr ⟨fun h => ?_, hrestd⟩
    obtain ⟨e, he, hx⟩ := List.mem_map.mp h
    exact hidx e (hrest e he) hx
  case free =>
    intro e he j n hj hj' hn
    have hj' : j < b.tb.nalloc.toNat + 1 := by rw [← e1]; exact hj'
    have hn : memRead (memWrite b.tb.nm b.tb.nalloc.toNat (mergedNode l r)) j = some n := hn
    by_cases ej : j = b.tb.nalloc.toNat
    · rw [ej, memRead_memWrite_same] at hn
      cases hn
      rcases List.mem_cons.mp he with rfl | he
      · exact ⟨hidx l (by simp [hw]), hidx r (by simp [hw])⟩
      · exact ⟨fun h => hlr e he h.symm, fun h => hrr e he h.symm⟩
    · rw [hread j ej] at hn
      rcases List.mem_cons.mp he with rfl | he
      · obtain ⟨n', hn', ok⟩ := f.nodes j (by omega)
        rw [hn] at hn'; cases hn'
        rw [NodeOk, if_neg (by have : b.tb.k.toNat ≤ j := hj; omega)] at ok
        obtain ⟨-, -, a3, a4, -⟩ := ok
        exact ⟨fun h => by have h : n.left = b.tb.nalloc := h; rw [h] at a3; omega,
          fun h => by have h : n.right = b.tb.nalloc := h; rw [h] at a4; omega⟩
      · exact f.free e (hrest e he) j n hj (by omega) hn
  case stable =>
    have := f.stable
    rw [hw] at this
    exact List.pairwise_cons.mpr ⟨fun e he _ => (f.entry e (hrest e he)).1,
      List.Pairwise.of_cons (List.Pairwise.of_cons this)⟩
  case living =>
    intro x hx
    have hx1 : x < b.tb.nalloc.toNat + 1 := by rw [← e1]; exact hx.1
    by_cases h : x = b.tb.nalloc.toNat
    · exact ⟨_, List.mem_cons_self, h.symm⟩
    · obtain ⟨e, he, hxe⟩ := f.living x ⟨by omega, fun m n h1 h2 h3 =>
        hx.2 m n h1 (by show m < (b.tb.nalloc + 1).toNat; omega)
          (by show memRead (memWrite _ _ _) m = _; rw [hread m (by omega)]; exact h3)⟩
      have hnew := hx.2 b.tb.nalloc.toNat (mergedNode l r) hkle (by show _ < (b.tb.nalloc + 1).toNat; omega)
        (memRead_memWrite_same ..)
      rw [hw, List.mem_cons, List.mem_cons] at he
      rcases he with rfl | rfl | he
      · exact absurd hxe hnew.2
      · exact absurd hxe hnew.1
      · exact ⟨e, List.mem_cons_of_mem _ he, hxe⟩
  case picks =>
    intro j hj hj'
    have hj' : j < b.tb.nalloc.toNat + 1 := by rw [← e1]; exact hj'
    by_cases ej : j = b.tb.nalloc.toNat
    · subst ej
      have cand : ∀ e ∈ b.win, Candidate b.tb b.tb.nalloc.toNat e.idx.toNat := fun e he =>
        ⟨(f.entry e he).1, fun m n h1 h2 h3 => by
          have := f.free e he m n h1 h2 h3
          exact ⟨fun h => this.1 (BitVec.eq_of_toNat_eq h), fun h => this.2 (BitVec.eq_of_toNat_eq h)⟩⟩
      have below : ∀ k, k < b.tb.nalloc.toNat → memRead (memWrite b.tb.nm b.tb.nalloc.toNat (mergedNode l r)) k =
          memRead b.tb.nm k := fun k hk => hread k (by omega)
      have stands : ∀ x y : Entry, x ∈ b.win → y ∈ b.win →
          entryKey p.tieArraySense y ≤ entryKey p.tieArraySense x →
          (entryKey p.tieArraySense y = entryKey p.tieArraySense x → x.idx.toNat < y.idx.toNat) →
          StandsBefore p.tieArraySense (replaceTail b.tb.nalloc (mergedNode l r) rest
            { b.tb with nalloc := b.tb.nalloc + 1 }).tb x.idx.toNat y.idx.toNat := by
        intro x y hx hy hle hage
        obtain ⟨x1, x2⟩ := f.entry x hx
        obtain ⟨y1, y2⟩ := f.entry y hy
        refine ⟨x.node, y.node, (below _ x1).trans x2, (below _ y1).trans y2, ?_⟩
        rw [before_iff, before_eq_false]
        by_cases hk : entryKey p.tieArraySense y = entryKey p.tieArraySense x
        · exact .inr ⟨hle, hage hk⟩
        · exact .inl (lt_of_le_of_ne hle hk)
      have hst := f.stable
      rw [InOrder, hw] at hst
      rw [hw] at hsorted
      have hlw : l ∈ b.win := by simp [hw]
      have hrw : r ∈ b.win := by simp [hw]
      have cand' : ∀ e ∈ b.win, Candidate (replaceTail b.tb.nalloc (mergedNode l r) rest
          { b.tb with nalloc := b.tb.nalloc + 1 }).tb b.tb.nalloc.toNat e.idx.toNat := fun e he =>
        Candidate.congr (tb := b.tb) (by rfl) below (cand e he)
      refine ⟨mergedNode l r, memRead_memWrite_same .., cand' l hlw, cand' r hrw,
        stands l r hlw hrw (List.rel_of_pairwise_cons hsorted List.mem_cons_self)
          (List.rel_of_pairwise_cons hst List.mem_cons_self), fun x hx h1 h2 => ?_⟩
      obtain ⟨e, he, rfl⟩ := f.living x
        (Candidate.congr (u := b.tb) (by rfl) (fun k hk => (below k hk).symm) hx)
      have he' := he
      rw [hw, List.mem_cons, List.mem_cons] at he'
      rcases he' with rfl | rfl | he'
      · exact absurd rfl h2
      · exact absurd rfl h1
      · exact stands e l he hlw (List.rel_of_pairwise_cons (List.Pairwise.of_cons hsorted) he')
          (List.rel_of_pairwise_cons (List.Pairwise.of_cons hst) he')
    · refine MergesLastTwo.extend (tb := b.tb) ?_ ?_ (f.picks j hj (by omega))
      · rfl
      · exact fun k hk => hread k (by omega)
  case noRoot => exact f.noRoot
  case weight =>
    have := f.weight
    rw [hw] at this
    simp only [List.map_cons, List.sum_cons] at this
    show ((⟨b.tb.nalloc, mergedNode l r⟩ :: rest : List Entry).map _).sum = _
    simp only [List.map_cons, List.sum_cons, hwt]
    omega
  case trees =>
    obtain ⟨T, hT, hp⟩ := f.trees
    have hext : ∀ h j, TreeAt b.tb h j → TreeAt (replaceTail b.tb.nalloc (mergedNode l r) rest
        { b.tb with nalloc := b.tb.nalloc + 1 }).tb h j := by
      intro h j
      refine TreeAt.extend (by show _ ≤ (b.tb.nalloc + 1).toNat; omega) (fun i hi => ?_) h j
      show memRead (memWrite _ _ _) i = _
      rw [hread i (by omega)]
    refine ⟨Function.update T b.tb.nalloc (.node (T l.idx) (T r.idx)), ?_, ?_⟩
    · intro e he
      rcases List.mem_cons.mp he with rfl | he
      · simp only [Function.update_self]
        exact ⟨mergedNode l r, nodeAt_ok.mpr ⟨by show b.tb.nalloc.toNat < (b.tb.nalloc + 1).toNat; omega,
          memRead_memWrite_same ..⟩, hnotleaf, hext _ _ (hT l (by simp [hw])), hext _ _ (hT r (by simp [hw]))⟩
      · rw [Function.update_of_ne (hidx e (hrest e he))]
        exact hext _ _ (hT e (hrest e he))
    · have hfm : (rest.flatMap fun e => (Function.update T b.tb.nalloc (.node (T l.idx) (T r.idx)) e.idx).leaves) =
          rest.flatMap fun e => (T e.idx).leaves :=
        List.flatMap_congr fun e he => by rw [Function.update_of_ne (hidx e (hrest e he))]
      rw [hw] at hp
      show ((⟨b.tb.nalloc, mergedNode l r⟩ :: rest : List Entry).flatMap _).Perm _
      rw [List.flatMap_cons, hfm]
      simp only [Function.update_self, HTree.leaves]
      simp only [List.flatMap_cons] at hp
      rw [← List.append_assoc] at hp
      exact (List.perm_append_comm.append_right _).trans hp
  case ws =>
    intro j hj
    have hj : j < rest.length + 1 := hj
    show memRead (memWrite b.tb.ws rest.length b.tb.nalloc) j =
      ((⟨b.tb.nalloc, mergedNode l r⟩ :: rest : List Entry).reverse[j]?).map _
    rw [memRead_memWrite, List.reverse_cons]
    by_cases h : j = rest.length
    · subst h
      rw [if_pos rfl, List.getElem?_append_right (by simp)]
      simp
    · rw [if_neg h, List.getElem?_append_left (by simp; omega)]
      have := f.ws j (by rw [hw]; simp; omega)
      rw [this, hw, List.reverse_cons, List.reverse_cons, List.append_assoc,
        List.getElem?_append_left (by simp; omega)]
  case nmRest =>
    intro j hj
    have hj : b.tb.nalloc.toNat + 1 ≤ j := by rw [← e1]; exact hj
    show memRead (memWrite _ _ _) j = _
    rw [hread j (by omega)]
    exact f.nmRest j (by omega)
  case wsRest =>
    intro j hj
    have hj : b.tb.k.toNat ≤ j := hj
    show memRead (memWrite _ _ _) j = _
    rw [memRead_memWrite_ne _ _ (by omega)]
    exact f.wsRest j hj
  case nmWf => exact fun h => memWf_memWrite (f.nmWf h) _ _
  case wsWf => exact fun h => memWf_memWrite (f.wsWf h) _ _

/-- What the merge loop makes of a forest (43_treebuilder.md R187, R191). -/
def MergeEnds (p : Params) (tb0 : TreeBuilder) (L : List (Nat × Nat)) (rem : Nat) : Phase → Prop
  | .ok b => Forest p tb0 L b ∧ b.win.length = min rem 1 ∧ TailIsNewest b
  | .allocFail b => Forest p tb0 L b ∧ 2 ≤ b.win.length ∧ b.tb.nalloc.toNat = p.nodeCap.val
  | .unreadable _ => False

theorem mergeFrom_ends (p : Params) (tb0 : TreeBuilder) (L : List (Nat × Nat)) : ∀ (rem : Nat) (b : Build),
    Forest p tb0 L b → TailIsNewest b → b.win.length = rem → MergeEnds p tb0 L rem (mergeFrom p rem b)
  | 0, b, f, hn, hw => ⟨f, hw, hn⟩
  | 1, b, f, hn, hw => ⟨f, hw, hn⟩
  | rem + 2, b, f, hn, hw => by
    have fs := f.sorted rfl
    have hlen : (sortedBuild p.tieArraySense b).win.length = rem + 2 := by
      show (sortWindow _ b.win).length = _; rw [length_sortWindow]; exact hw
    simp only [mergeFrom]
    split
    · rename_i ha
      exact ⟨fs, by omega, alloc_none ha⟩
    rename_i i u ha
    split
    · rename_i r l rest hwin
      obtain ⟨f', hn'⟩ := fs.merge ha hwin (sortWindow_sorted _ _)
      have := mergeFrom_ends p tb0 L (rem + 1) _ f' hn' (by
        rw [hwin] at hlen; simp only [List.length_cons] at hlen
        show (_ :: rest).length = _; simp only [List.length_cons]; omega)
      revert this
      cases mergeFrom p (rem + 1) (replaceTail i (mergedNode l r) rest u) with
      | ok c => rintro ⟨h1, h2, h3⟩; exact ⟨h1, by omega, h3⟩
      | allocFail c => exact id
      | unreadable g => exact id
    · rename_i hno
      exfalso
      match hx : (sortedBuild p.tieArraySense b).win, hlen with
      | r :: l :: rest, _ => exact hno r l rest hx

/-! ### The command -/

/-- Everything a build of an existing table can do (43_treebuilder.md R190, R191). -/
inductive BuildEnds (s : State) : Result → Prop where
  | fault (f : Fault) (h : ¬ s.ft.Inv) : BuildEnds s (.fault f)
  /-- The arena ran out in the seed phase. -/
  | seedFails (b : Build) (n : Nat) (f : Forest s.params s.tb ((seedLeaves s.ft (List.range s.ft.asize.val)).take n) b)
      (hn : n < (activeSymbols s.ft).length) (full : b.tb.nalloc.toNat = s.params.nodeCap.val)
      (hk : b.tb.nalloc.toNat = b.tb.k.toNat) : BuildEnds s (raise .alloc 0 (s.withTb b.tb))
  /-- The arena ran out in the merge phase. -/
  | mergeFails (b : Build) (f : Forest s.params s.tb (seedLeaves s.ft (List.range s.ft.asize.val)) b)
      (hw : 2 ≤ b.win.length) (full : b.tb.nalloc.toNat = s.params.nodeCap.val) :
      BuildEnds s (raise .alloc 0 (s.withTb b.tb))
  /-- No symbol has a count. -/
  | null (b : Build) (f : Forest s.params s.tb (seedLeaves s.ft (List.range s.ft.asize.val)) b)
      (hk : b.tb.k = 0) : BuildEnds s (done 0 (s.withTb b.tb))
  /-- A tree. -/
  | tree (b : Build) (e : Entry) (f : Forest s.params s.tb (seedLeaves s.ft (List.range s.ft.asize.val)) b)
      (hw : b.win = [e]) (hi : e.idx.toNat + 1 = b.tb.nalloc.toNat) :
      BuildEnds s (done (b.tb.k.setWidth 64) (s.withTb { b.tb with root := e.idx, rootValid := true }))

theorem execTbBuild_ends {s : State} (hv : s.ft.valid = true) : BuildEnds s (execTbBuild s) := by
  have hs := seed_ends s.params s.tb s.ft
  have hlen : (seedLeaves s.ft (List.range s.ft.asize.val)).length = (activeSymbols s.ft).length := by
    rw [seedLeaves_range, List.length_map]
  rw [execTbBuild, if_neg (by simp [hv])]
  revert hs
  cases seed s.params s.ft { tb := clearTree s.tb, win := [] } with
  | unreadable g => exact fun h => .fault g h
  | allocFail b =>
    rintro ⟨hk, full, n, hn, f⟩
    rw [List.nil_append] at f
    exact .seedFails b n f (hlen ▸ hn) full hk
  | ok b =>
    rintro ⟨f, hk, hn⟩
    rw [List.nil_append] at f
    simp only
    split
    · rename_i h0; exact .null b f h0
    · rename_i h0
      have hwl : b.win.length = b.tb.k.toNat := by have := f.count; omega
      have hm := mergeFrom_ends s.params s.tb _ b.tb.k.toNat b f hn hwl
      have hk0 : b.tb.k.toNat ≠ 0 := fun h => h0 (BitVec.eq_of_toNat_eq h)
      revert hm
      cases mergeFrom s.params b.tb.k.toNat b with
      | unreadable g => exact False.elim
      | allocFail c => rintro ⟨f', hw, full⟩; exact .mergeFails c f' hw full
      | ok c =>
        rintro ⟨f', hw, hl⟩
        rw [Nat.min_eq_right (by omega)] at hw
        obtain ⟨e, he⟩ := List.length_eq_one_iff.mp hw
        have : finalize c = { c.tb with root := e.idx, rootValid := true } := by simp [finalize, he]
        simp only [this]
        exact .tree c e f' he (hl e [] he)

end Sys2Proof.Machine
end

