-- ==== Sys2Proof/Laws/Tree.lean ====
section
/-! SUPPORT. The invariant of 10_state.md R32 from a build, the tree it guarantees and its depth, the codes of a tree as
a prefix-free set (44_extractor.md R216), and two builds side by side (43_treebuilder.md R193). -/

namespace Sys2Proof.Machine

/-! ### The invariant after a build -/

theorem nodeOk_congr {tb u : TreeBuilder} {i : Nat} {n : Node} (hk : u.k = tb.k) (hm : u.nm = tb.nm)
    (h : NodeOk tb i n) : NodeOk u i n := by
  unfold NodeOk at *; rw [hk, hm]; exact h

theorem treeInv_reset (p : Params) {tb : TreeBuilder} (hn : tb.nalloc = 0) (hk : tb.k = 0) (hv : tb.rootValid = false)
    (hr : tb.root = noneIdx) : tb.Inv p := by
  refine ⟨by simp [hn], by simp [hk], ?_, ?_, ?_, fun _ => hr⟩
  · intro i h; simp [hn] at h
  · intro i j n m _ h; simp [hn] at h
  · rw [hv]; simp

/-- A build that stopped or found no symbol. -/
theorem Forest.inv {p : Params} {tb0 : TreeBuilder} {L : List (Nat × Nat)} {b : Build} (f : Forest p tb0 L b) :
    b.tb.Inv p :=
  ⟨f.cap, f.k256, f.nodes, f.oneParent, by rw [f.noRoot.1]; simp, fun _ => f.noRoot.2⟩

/-- A build that made a tree. -/
theorem Forest.inv_root {p : Params} {tb0 : TreeBuilder} {L : List (Nat × Nat)} {b : Build} {e : Entry}
    (f : Forest p tb0 L b) (hw : b.win = [e]) (hi : e.idx.toNat + 1 = b.tb.nalloc.toNat) :
    TreeBuilder.Inv p { b.tb with root := e.idx, rootValid := true } := by
  have h := f.count
  rw [hw] at h
  simp only [List.length_singleton] at h
  refine ⟨f.cap, f.k256, fun i hi => ?_, f.oneParent, fun _ => ⟨?_, ?_, ?_⟩, fun h => by cases h⟩
  · obtain ⟨n, hn, ok⟩ := f.nodes i hi
    exact ⟨n, hn, nodeOk_congr rfl rfl ok⟩
  · show 0 < b.tb.k.toNat; omega
  · show b.tb.nalloc.toNat = 2 * b.tb.k.toNat - 1; omega
  · show e.idx.toNat = 2 * b.tb.k.toNat - 2; omega

/-- A build keeps the invariant of the tree, whatever stood in the arena. -/
theorem execTbBuild_tb {s t : State} (h : execTbBuild s = .next t) :
    t.tb = s.tb ∨ t.tb.Inv s.params ∧ (memWf s.tb.nm = true → memWf t.tb.nm = true) ∧
      (memWf s.tb.ws = true → memWf t.tb.ws = true) := by
  by_cases hv : s.ft.valid = true
  · right
    generalize hres : execTbBuild s = res at h
    have hb := execTbBuild_ends hv
    rw [hres] at hb
    cases hb with
    | fault f g => cases h
    | seedFails b n f => cases h; exact ⟨f.inv, f.nmWf, f.wsWf⟩
    | mergeFails b f => cases h; exact ⟨f.inv, f.nmWf, f.wsWf⟩
    | null b f => cases h; exact ⟨f.inv, f.nmWf, f.wsWf⟩
    | tree b e f hw hi => cases h; exact ⟨f.inv_root hw hi, f.nmWf, f.wsWf⟩
  · left
    rw [execTbBuild, if_pos (by simpa using hv)] at h
    cases h; rfl

/-! ### The tree an invariant guarantees -/

/-- Below every node of an arena of 10_state.md R32 stands a tree, no deeper than there are internal nodes up to it. -/
theorem tree_of_nodes {tb : TreeBuilder} (h : ∀ i, i < tb.nalloc.toNat → ∃ n, memRead tb.nm i = some n ∧ NodeOk tb i n) :
    ∀ (m : Nat) (i : Idx), i.toNat ≤ m → i.toNat < tb.nalloc.toNat →
      ∃ t, TreeAt tb t i ∧ t.depth ≤ i.toNat + 1 - tb.k.toNat := by
  intro m
  induction m using Nat.strong_induction_on with
  | _ m ih =>
    intro i him hi
    obtain ⟨n, hn, ok⟩ := h i.toNat hi
    unfold NodeOk at ok
    split at ok
    · refine ⟨.leaf n.sym.toNat n.wt.toNat, ⟨n, nodeAt_ok.mpr ⟨hi, hn⟩, ok.1, ok.2.2, ?_, rfl⟩, Nat.zero_le _⟩
      apply BitVec.eq_of_toNat_eq; simp
    · rename_i hk
      obtain ⟨a1, -, a3, a4, -⟩ := ok
      obtain ⟨l, tl, dl⟩ := ih n.left.toNat (by omega) n.left (Nat.le_refl _) (by omega)
      obtain ⟨r, tr, dr⟩ := ih n.right.toNat (by omega) n.right (Nat.le_refl _) (by omega)
      refine ⟨.node l r, ⟨n, nodeAt_ok.mpr ⟨hi, hn⟩, a1, tl, tr⟩, ?_⟩
      simp only [HTree.depth]
      omega

/-- The tree of a finished build: at most 255 deep (70_reset_and_hazards.md R268). -/
theorem tree_of_inv {p : Params} {tb : TreeBuilder} (inv : tb.Inv p) (hv : tb.rootValid = true) :
    ∃ t, TreeAt tb t tb.root ∧ t.depth ≤ 255 := by
  obtain ⟨-, hk, hn, -, hr, -⟩ := inv
  obtain ⟨h0, h1, h2⟩ := hr hv
  obtain ⟨t, ht, hd⟩ := tree_of_nodes hn tb.root.toNat tb.root (Nat.le_refl _) (by omega)
  exact ⟨t, ht, by omega⟩

/-! ### Codes -/

theorem not_prefix_of_split {path q q' : List Bit} {b b' : Bit} (h : b ≠ b') :
    ¬ (path ++ b :: q) <+: (path ++ b' :: q') := by
  rw [List.prefix_append_right_inj]
  rintro ⟨t, e⟩
  simp only [List.cons_append, List.cons.injEq] at e
  exact h e.1

/-- No code of a tree is a prefix of another. -/
theorem HTree.codes_prefixFree : ∀ (h : HTree) (path : List Bit),
    (h.codes path).Pairwise fun a b => ¬ a.2 <+: b.2 ∧ ¬ b.2 <+: a.2
  | .leaf _ _, _ => List.pairwise_singleton _ _
  | .node l r, path => by
    refine List.pairwise_append.mpr ⟨l.codes_prefixFree _, r.codes_prefixFree _, fun a ha b hb => ?_⟩
    obtain ⟨q, e, -⟩ := l.codes_path _ a ha
    obtain ⟨q', e', -⟩ := r.codes_path _ b hb
    rw [e, e', List.append_assoc, List.append_assoc]
    exact ⟨not_prefix_of_split (by decide), not_prefix_of_split (by decide)⟩

/-! ### Two builds -/

/-- Two builds agree on all a build reads and on all the host can read of its outcome. -/
structure SameBuild (b c : Build) : Prop where
  win : b.win = c.win
  rootValid : b.tb.rootValid = c.tb.rootValid
  root : b.tb.root = c.tb.root
  k : b.tb.k = c.tb.k
  nalloc : b.tb.nalloc = c.tb.nalloc
  nm : ∀ i, i < b.tb.nalloc.toNat → memRead b.tb.nm i = memRead c.tb.nm i
  ws : ∀ i, i < b.tb.k.toNat → memRead b.tb.ws i = memRead c.tb.ws i

theorem toNat_add_one_le {n : Nat} (x : BitVec n) : (x + 1).toNat ≤ x.toNat + 1 := by
  rw [BitVec.toNat_add]
  refine (Nat.mod_le _ _).trans ?_
  have : (1 : BitVec n).toNat ≤ 1 := by
    show (BitVec.ofNat n 1).toNat ≤ 1
    rw [BitVec.toNat_ofNat]; exact Nat.mod_le _ _
  omega

theorem memRead_congr_write {α : Type} {m m' : Entries α} {n i j : Nat} {v : α}
    (h : ∀ i, i < n → memRead m i = memRead m' i) (hj : j < n ∨ j = i) :
    memRead (memWrite m i v) j = memRead (memWrite m' i v) j := by
  rw [memRead_memWrite, memRead_memWrite]
  split
  · rfl
  · exact h j (by omega)

/-- Two phases end alike. -/
def SamePhase : Phase → Phase → Prop
  | .ok b, .ok c => SameBuild b c
  | .allocFail b, .allocFail c => SameBuild b c
  | .unreadable f, .unreadable g => f = g
  | _, _ => False

theorem alloc_same {p : Params} {b c : Build} (h : SameBuild b c) :
    (alloc p b.tb = none ∧ alloc p c.tb = none) ∨
      (alloc p b.tb = some (b.tb.nalloc, { b.tb with nalloc := b.tb.nalloc + 1 }) ∧
        alloc p c.tb = some (b.tb.nalloc, { c.tb with nalloc := b.tb.nalloc + 1 })) := by
  unfold alloc
  rw [← h.nalloc]
  split
  · exact .inl ⟨rfl, rfl⟩
  · exact .inr ⟨rfl, rfl⟩

theorem SameBuild.addLeaf {b c : Build} (h : SameBuild b c) (n : Node) :
    SameBuild (Machine.addLeaf b.tb.nalloc n { b with tb := { b.tb with nalloc := b.tb.nalloc + 1 } })
      (Machine.addLeaf b.tb.nalloc n { c with tb := { c.tb with nalloc := b.tb.nalloc + 1 } }) where
  win := by simp only [Machine.addLeaf, h.win]
  rootValid := h.rootValid
  root := h.root
  k := by simp only [Machine.addLeaf, writeNode, h.k]
  nalloc := rfl
  nm := by
    intro i hi
    have hi : i < (b.tb.nalloc + 1).toNat := hi
    have := toNat_add_one_le b.tb.nalloc
    exact memRead_congr_write h.nm (by omega)
  ws := by
    intro i hi
    have hi : i < (b.tb.k + 1).toNat := hi
    have := toNat_add_one_le b.tb.k
    show memRead (memWrite b.tb.ws b.tb.k.toNat _) i = memRead (memWrite c.tb.ws c.tb.k.toNat _) i
    rw [← h.k]
    exact memRead_congr_write h.ws (by omega)

theorem seedFrom_same (p : Params) (ft : FreqTable) : ∀ (syms : List Nat) (b c : Build), SameBuild b c →
    SamePhase (seedFrom p ft syms b) (seedFrom p ft syms c)
  | [], _, _, h => h
  | s :: rest, b, c, h => by
    unfold seedFrom
    split
    · rfl
    split
    · exact seedFrom_same p ft rest b c h
    rcases alloc_same (p := p) h with ⟨e, e'⟩ | ⟨e, e'⟩ <;> simp only [e, e']
    · exact h
    · exact seedFrom_same p ft rest _ _ (h.addLeaf _)

theorem SameBuild.sorted {b c : Build} (h : SameBuild b c) (sense : Bool) :
    SameBuild (sortedBuild sense b) (sortedBuild sense c) where
  win := by simp only [sortedBuild, h.win]
  rootValid := h.rootValid
  root := h.root
  k := h.k
  nalloc := h.nalloc
  nm := h.nm
  ws := by
    intro i hi
    show memRead (storeWindow _ _) i = memRead (storeWindow _ _) i
    rw [memRead_storeWindow, memRead_storeWindow, h.win]
    split
    · rfl
    · exact h.ws i hi

theorem SameBuild.replaceTail {b c : Build} (h : SameBuild b c) (n : Node) (rest : List Entry) :
    SameBuild (Machine.replaceTail b.tb.nalloc n rest { b.tb with nalloc := b.tb.nalloc + 1 })
      (Machine.replaceTail b.tb.nalloc n rest { c.tb with nalloc := b.tb.nalloc + 1 }) where
  win := rfl
  rootValid := h.rootValid
  root := h.root
  k := h.k
  nalloc := rfl
  nm := by
    intro i hi
    have hi : i < (b.tb.nalloc + 1).toNat := hi
    have := toNat_add_one_le b.tb.nalloc
    exact memRead_congr_write h.nm (by omega)
  ws := by
    intro i hi
    exact memRead_congr_write h.ws (.inl hi)

theorem mergeFrom_same (p : Params) : ∀ (rem : Nat) (b c : Build), SameBuild b c →
    SamePhase (mergeFrom p rem b) (mergeFrom p rem c)
  | 0, _, _, h => h
  | 1, _, _, h => h
  | rem + 2, b, c, h => by
    have hs := h.sorted p.tieArraySense
    simp only [mergeFrom]
    rcases alloc_same (p := p) hs with ⟨e, e'⟩ | ⟨e, e'⟩ <;> simp only [e, e']
    · exact hs
    rw [← hs.win]
    split
    · exact mergeFrom_same p (rem + 1) _ _ (hs.replaceTail _ _)
    · exact hs

end Sys2Proof.Machine
end

