-- ==== Sys2Proof/Laws/Step.lean ====
section
/-! SUPPORT. What a step can do, said once, and what each unit can be after a command: the units' invariants and the
canonical form of the arrays follow from these. -/

namespace Sys2Proof.Machine

/-- The state once the host has passed the first event of the port. -/
def passed (rest : List PortEvent) (s : State) : State := s.withIo { s.io with port := rest }

/-- What a step can do. -/
inductive StepCases (s : State) : Result → Prop where
  | idle (h : s.io.port = []) : StepCases s (.next s)
  | reset (rest : List PortEvent) (h : s.io.port = .reset :: rest) : StepCases s (.next (applyReset (passed rest s)))
  | dropped (w : Word) (rest : List PortEvent) (h : s.io.port = .command w :: rest) (b : s.busy = true) :
      StepCases s (.next (passed rest s))
  | run (w : Word) (rest : List PortEvent) (i : Instr) (h : s.io.port = .command w :: rest) (b : s.busy = false)
      (d : decode w = .ok i) : StepCases s (exec i (passed rest s))
  | illegal (w : Word) (rest : List PortEvent) (e : DecodeError) (h : s.io.port = .command w :: rest)
      (b : s.busy = false) (d : decode w = .error e) : StepCases s (illegal (passed rest s))

theorem step_cases (s : State) : StepCases s (step s) := by
  cases hp : s.io.port with
  | nil => rw [show step s = .next s by simp [step, nextEvent, hp]]; exact .idle hp
  | cons e rest =>
    have hn : nextEvent s = some (e, passed rest s) := by simp [nextEvent, hp, passed]
    unfold step
    rw [hn]
    cases e with
    | reset => exact .reset rest hp
    | command w =>
      simp only
      split
      · rename_i hb; exact .dropped w rest hp hb
      · rename_i hb
        have hb : s.busy = false := by simpa [passed] using hb
        split
        · rename_i hd; exact .run w rest _ hp hb hd
        · rename_i hd; exact .illegal w rest _ hp hb hd

/-- A property of states that only the units, `ERR`, `RES`, `ESTICKY`, `ID` and the parameters bear on is kept by a
step when reset, the illegal command and every command keep it. -/
theorem step_keeps {P : State → Prop} (hio : ∀ s io, P s → P (s.withIo io)) (hreset : ∀ s, P s → P (applyReset s))
    (hill : ∀ s, P s → P (complete .illegalCmd 0 s)) (hexec : ∀ i s t, P s → exec i s = .next t → P t)
    {s t : State} (h : P s) (e : step s = .next t) : P t := by
  have c := step_cases s
  generalize step s = x at c e
  cases c with
  | idle => cases e; exact h
  | reset rest => cases e; exact hreset _ (hio _ _ h)
  | dropped w rest => cases e; exact hio _ _ h
  | run w rest i => exact hexec i _ _ (hio _ _ h) e
  | illegal w rest => cases e; exact hill _ (hio _ _ h)

/-! ### Each unit after a command -/

/-- The bit buffer after a command. -/
theorem exec_bb {i : Instr} {s t : State} (h : exec i s = .next t) :
    t.bb = s.bb ∨
    (∃ cap c, i = .bbCreate cap ∧ c.toNat ≤ s.params.bbMax.val ∧
      t.bb = { valid := true, len := 0, cap := c, bits := zeroSlots s.params s.bb.bits }) ∨
    (s.bb.len.toNat ≤ s.bb.cap.toNat → Grown s.params s.bb t.bb) ∨
    Grown s.params (emptied s.params s.bb) t.bb := by
  by_cases hw : writesBb i = true
  · cases i <;> try exact absurd (show false = true from hw) Bool.false_ne_true
    case bbCreate cap =>
      replace h : execBbCreate cap s = .next t := h
      unfold execBbCreate at h
      split at h
      · cases h; exact .inl rfl
      · rename_i c hc
        cases h
        have := capOperand_le hc
        exact .inr (.inl ⟨cap, c, rfl, by omega, rfl⟩)
    case bbAppend bit =>
      replace h : execBbAppend bit s = .next t := h
      unfold execBbAppend at h
      split at h
      · cases h; exact .inl rfl
      split at h
      · cases h; exact .inl rfl
      split at h
      · cases h; exact .inl rfl
      · rename_i hp
        cases h
        exact .inr (.inr (.inl fun hl => grown_push hl hp))
    case bbPop =>
      replace h : execBbPop s = .next t := h
      unfold execBbPop at h
      split at h
      · cases h; exact .inl rfl
      · cases h; exact .inr (.inr (.inl fun hl => grown_pop hl))
    case tbExtract =>
      rcases execTbExtract_bb (t := t) h with e | g
      · exact .inl e
      · exact .inr (.inr (.inr g))
  · obtain ⟨u, f, ⟨e, r, rfl, -⟩ | ⟨rfl, -⟩⟩ := exec_shape h
    · exact .inl (f.bb (by simpa using hw))
    · exact .inl rfl

theorem exec_bb_inv {i : Instr} {s t : State} (inv : s.bb.Inv s.params) (h : exec i s = .next t) :
    t.bb.Inv s.params := by
  rcases exec_bb h with e | ⟨cap, c, -, hc, e⟩ | g | g
  · rw [e]; exact inv
  · rw [e]; exact ⟨Nat.zero_le _, hc, fun j _ => inv.zeroed j⟩
  · exact (g inv.1).inv inv
  · exact g.inv inv.emptied

theorem exec_bb_wf {i : Instr} {s t : State} (w : bitsWf s.bb.bits = true)
    (h : exec i s = .next t) : bitsWf t.bb.bits = true := by
  by_cases hw : writesBb i = true
  · cases i <;> try exact absurd (show false = true from hw) Bool.false_ne_true
    case bbCreate cap =>
      replace h : execBbCreate cap s = .next t := h
      unfold execBbCreate at h
      split at h <;> cases h
      · exact w
      · exact bitsWf_memClearBelow w _
    case bbAppend bit =>
      replace h : execBbAppend bit s = .next t := h
      unfold execBbAppend at h
      split at h
      · cases h; exact w
      split at h
      · cases h; exact w
      split at h
      · cases h; exact w
      · rename_i hp
        cases h
        exact bitsWf_push w hp
    case bbPop =>
      replace h : execBbPop s = .next t := h
      unfold execBbPop at h
      split at h <;> cases h
      · exact w
      · exact bitsWf_pop w
    case tbExtract =>
      rcases execTbExtract_bb (t := t) h with e | g
      · rw [e]; exact w
      · exact g.wf (bitsWf_emptied w)
  · obtain ⟨u, f, ⟨e, r, rfl, -⟩ | ⟨rfl, -⟩⟩ := exec_shape h
    · rw [show (complete e r u).bb = s.bb from f.bb (by simpa using hw)]; exact w
    · exact w

/-- A put keeps an open write stream open for writing and not at its end. -/
theorem bsPut_stream {bit : Bit} {s t : State}
    (h : bsPut bit s = .ok t ∨ bsPut bit s = .fail t ∨ bsPut bit s = .waits t) :
    t.bs.isOpen = s.bs.isOpen ∧ t.bs.mode = s.bs.mode ∧ t.bs.eos = s.bs.eos := by
  rcases bsPut_cases bit s with ⟨_, e⟩ | ⟨_, e | e | ⟨e, _⟩⟩ <;> rw [e] at h <;> simp at h <;> subst h <;>
    exact ⟨rfl, rfl, rfl⟩

/-- How the loop of `BS_WRITE_BUF` leaves the stream. -/
def EndsStream (b : BitStream) : Ending → Prop
  | .done _ t => t.bs.isOpen = b.isOpen ∧ t.bs.mode = b.mode ∧ t.bs.eos = b.eos
  | .raise _ _ t => t.bs.isOpen = b.isOpen ∧ t.bs.mode = b.mode ∧ t.bs.eos = b.eos
  | .waits _ => True
  | .unreadable _ => False

theorem writeBits_stream : ∀ (bits : List Bit) (n : Nat) (s : State), EndsStream s.bs (writeBits bits n s)
  | [], _, _ => ⟨rfl, rfl, rfl⟩
  | b :: rest, n, s => by
    unfold writeBits
    split <;> rename_i u e
    · have ih := writeBits_stream rest (n + 1) u
      obtain ⟨h1, h2, h3⟩ := bsPut_stream (.inl e)
      cases hx : writeBits rest (n + 1) u <;> rw [hx] at ih <;> simp only [EndsStream, h1, h2, h3] at ih ⊢ <;> exact ih
    · exact bsPut_stream (.inr (.inl e))
    · trivial

theorem bsInv_open {b c : BitStream} (inv : b.Inv) (h : b.isOpen = true) (h1 : c.isOpen = b.isOpen)
    (h2 : c.mode = b.mode) (h3 : c.eos = b.eos) : c.Inv := by
  refine ⟨fun e => ?_, fun e => ?_⟩
  · rw [h1, h2]; exact inv.1 (h3 ▸ e)
  · rw [h1, h] at e; cases e

/-- The stream's invariant after a command. -/
theorem exec_bs_inv {i : Instr} {s t : State} (inv : s.bs.Inv) (h : exec i s = .next t) : t.bs.Inv := by
  by_cases hw : writesBs i = true
  · cases i <;> try exact absurd (show false = true from hw) Bool.false_ne_true
    case bsOpenR =>
      replace h : execBsOpenR s = .next t := h
      unfold execBsOpenR at h
      split at h
      · cases h; exact inv
      split at h <;> rename_i e
      · cases h; cases pullBsi_answer e
        exact ⟨fun _ => ⟨rfl, rfl⟩, fun x => by cases x⟩
      · cases h; exact inv
    case bsOpenW =>
      replace h : execBsOpenW s = .next t := h
      unfold execBsOpenW at h
      split at h
      · cases h; exact inv
      · cases h; exact ⟨fun x => (by cases x), fun x => (by cases x)⟩
    case bsReadBit =>
      replace h : execBsReadBit s = .next t := h
      unfold execBsReadBit at h
      split at h
      · cases h; exact inv
      rename_i hr
      rw [Bool.not_eq_false, readable_iff] at hr
      split at h
      · cases h; exact inv
      simp only at h
      split at h
      · cases h; exact bsInv_open inv hr.1 rfl rfl rfl
      split at h <;> rename_i e
      · cases h; cases pullBsi_answer e
        exact ⟨fun _ => hr, fun x => by
          have x : s.bs.isOpen = false := x
          rw [hr.1] at x; cases x⟩
      · cases h; exact inv
    case bsWriteBit bit =>
      replace h : execBsWriteBit bit s = .next t := h
      unfold execBsWriteBit at h
      split at h
      · cases h; exact inv
      rename_i hr
      rw [Bool.not_eq_false, writable_iff] at hr
      split at h
      · cases h; exact inv
      split at h <;> rename_i e
      · cases h
        obtain ⟨h1, h2, h3⟩ := bsPut_stream (.inl e)
        exact bsInv_open inv hr.1 h1 h2 h3
      · cases h
        obtain ⟨h1, h2, h3⟩ := bsPut_stream (.inr (.inl e))
        exact bsInv_open inv hr.1 h1 h2 h3
      · cases h; exact inv
    case bsWriteBuf =>
      replace h : execBsWriteBuf s = .next t := h
      unfold execBsWriteBuf at h
      split at h
      · cases h; exact inv
      rename_i hr
      rw [Bool.not_eq_false, writable_iff] at hr
      split at h
      · cases h; exact inv
      have k := writeBits_stream (bbContents s.bb) 0 s
      cases hx : writeBits (bbContents s.bb) 0 s <;> rw [hx] at h k <;> cases h
      · exact bsInv_open inv hr.1 k.1 k.2.1 k.2.2
      · exact bsInv_open inv hr.1 k.1 k.2.1 k.2.2
      · exact inv
    case bsClose =>
      replace h : execBsClose s = .next t := h
      unfold execBsClose at h
      split at h
      · cases h; exact ⟨fun x => (by cases x), fun _ => ⟨rfl, rfl, rfl, rfl⟩⟩
      · cases h; exact inv
  · obtain ⟨u, f, ⟨e, r, rfl, -⟩ | ⟨rfl, -⟩⟩ := exec_shape h
    · rw [show (complete e r u).bs = s.bs from f.bs (by simpa using hw)]; exact inv
    · exact inv

/-- A property of the table that every write of an entry and every create keeps holds after a command. -/
theorem exec_ft {P : FreqTable → Prop} (hw : ∀ ft i c, P ft → P (ftWrite ft i c))
    (hc : ∀ (ft : FreqTable) (n : Fin 257), P ft →
      P { valid := true, asize := n, counts := memFill ft.counts n.val 0 })
    {i : Instr} {s t : State} (p : P s.ft) (h : exec i s = .next t) : P t.ft := by
  by_cases hf : writesFt i = true
  · cases i <;> try exact absurd (show false = true from hf) Bool.false_ne_true
    case ftCreate size =>
      replace h : execFtCreate size s = .next t := h
      unfold execFtCreate at h
      split at h <;> cases h
      · exact p
      · exact hc _ _ p
    case ftScan => exact execFtScan_ft hw p h
    case ftInc sym =>
      replace h : execFtInc sym s = .next t := h
      unfold execFtInc at h
      split at h
      · cases h; exact p
      split at h
      · cases h; exact p
      rename_i j _
      rcases ftBump_cases s.ft j with ⟨c, -, -, e⟩ | ⟨-, e⟩ | ⟨f, -, e⟩ <;> rw [e] at h <;> cases h
      · exact hw _ _ _ p
      · exact p
    case ftSet sym c =>
      replace h : execFtSet sym c s = .next t := h
      unfold execFtSet at h
      split at h
      · cases h; exact p
      split at h <;> cases h
      · exact p
      · exact hw _ _ _ p
  · obtain ⟨u, f, ⟨e, r, rfl, -⟩ | ⟨rfl, -⟩⟩ := exec_shape h
    · rw [show (complete e r u).ft = s.ft from f.ft (by simpa using hf)]; exact p
    · exact p

theorem exec_ft_inv {i : Instr} {s t : State} (inv : s.ft.Inv) (h : exec i s = .next t) : t.ft.Inv :=
  exec_ft (P := FreqTable.Inv) (fun _ i c p => p.write i c) (fun _ _ _ => ftInv_fill _ _ _) inv h

theorem exec_ft_wf {i : Instr} {s t : State} (w : memWf s.ft.counts = true) (h : exec i s = .next t) :
    memWf t.ft.counts = true :=
  exec_ft (P := fun ft => memWf ft.counts = true) (fun _ _ _ p => memWf_memWrite p _ _)
    (fun _ _ p => memWf_memFill p _ _) w h

/-- The tree builder after a command. -/
theorem exec_tb {i : Instr} {s t : State} (h : exec i s = .next t) :
    t.tb = s.tb ∨ t.tb.Inv s.params ∧ (memWf s.tb.nm = true → memWf t.tb.nm = true) ∧
      (memWf s.tb.ws = true → memWf t.tb.ws = true) := by
  by_cases hw : writesTb i = true
  · cases i <;> try exact absurd (show false = true from hw) Bool.false_ne_true
    exact execTbBuild_tb h
  · obtain ⟨u, f, ⟨e, r, rfl, -⟩ | ⟨rfl, -⟩⟩ := exec_shape h
    · exact .inl (f.tb (by simpa using hw))
    · exact .inl rfl

/-- The parameters, the constant `ID` and the response registers after a command. -/
theorem exec_constants {i : Instr} {s t : State} (h : exec i s = .next t) :
    t.params = s.params ∧ t.ident = s.ident ∧
      ((t.err = s.err ∧ t.esticky = s.esticky) ∨
        ∃ e ∈ ErrCode.illegalCmd :: mayEndWith i, t.err = e.code ∧ t.esticky = stickyAfter e s.esticky) := by
  obtain ⟨u, f, ⟨e, r, rfl, m⟩ | ⟨rfl, -⟩⟩ := exec_shape h
  · refine ⟨f.params, f.ident, ?_⟩
    by_cases w : i.wellFormed = true
    · exact .inr ⟨e, List.mem_cons_of_mem _ (m w), rfl, by rw [complete_esticky, f.esticky]⟩
    · right
      refine ⟨.illegalCmd, List.mem_cons_self, ?_⟩
      have key : exec i s = illegal s := by
        cases i <;> first
          | exact absurd rfl w
          | (show execBbRender _ _ s = _
             rw [execBbRender, if_pos (by simpa [Instr.wellFormed] using w)])
          | (show execTbNode _ _ s = _
             rw [execTbNode, if_pos (by simpa [Instr.wellFormed] using w)])
      have h' : complete .illegalCmd 0 s = complete e r u := by
        rw [key] at h; exact Host.Outcome.next.inj h
      rw [← h']; exact ⟨rfl, rfl⟩
  · exact ⟨rfl, rfl, .inl ⟨rfl, rfl⟩⟩

end Sys2Proof.Machine
end

