-- ==== Sys2Proof/Tests/Slice0.lean ====
section
/-! SUPPORT. The model's own tests: WellFormed on ill-formed terms, decoding of words written out from 30_encoding.md
R94, at most two one-step tests per command with the results of 95_test_vectors.md, and a witness for the hypotheses of
every statement of Certificates/Slice0/Obligations.lean. -/

namespace Sys2Proof.Tests

open Sys2Proof.Machine

/-! ### States -/

/-- One thing about the next state. -/
def after {α : Type} (r : Result) (f : State → α) : Option α :=
  match r with
  | .next t => some (f t)
  | _ => none

/-- The next state itself, or the reset state where there is none. -/
def nextOf (r : Result) : State :=
  match r with
  | .next t => t
  | _ => State.reset

/-- The outcome pair. -/
def outcome (r : Result) : Option (BitVec 8 × Word) := after r fun t => (t.err, t.res)

/-- Reset, with a bit buffer. -/
def bufferState (cap : Nat) (bits : List Bit) : State :=
  State.reset.withBb
    { valid := true
      len := BitVec.ofNat 11 bits.length
      cap := BitVec.ofNat 11 cap
      bits := ((List.range bits.length).zip bits).foldl (fun m x => bitWrite m x.1 x.2) [] }

/-- A state with an open stream. -/
def streamState (mode : StreamMode) (eos : Bool) (off : Nat) (byte : Byte) (s : State) : State :=
  s.withBs { isOpen := true, mode := mode, eos := eos, off := BitVec.ofNat 3 off, byte := byte }

/-- Reset, with a table. -/
def tableState (size : Fin 257) (counts : List (Nat × Count)) : State :=
  State.reset.withFt
    { valid := true, asize := size, counts := counts.foldl (fun m x => memWrite m x.1 x.2) (memFill [] size.val 0) }

/-- Held answers. -/
def withSrc (l : List PullAnswer) (s : State) : State := s.withIo { s.io with src := l }
def withBsi (l : List PullAnswer) (s : State) : State := s.withIo { s.io with bsi := l }
def withBso (l : List PushAnswer) (s : State) : State := s.withIo { s.io with bso := l }
def withPort (l : List PortEvent) (s : State) : State := s.withIo { s.io with port := l }
def withParams (p : Params) (s : State) : State := { s with params := p }

/-- The table of 95_test_vectors.md 1.1. -/
def classicTable : State := tableState 71 [(0x41, 5), (0x42, 9), (0x43, 12), (0x44, 13), (0x45, 16), (0x46, 45)]

/-- The table of 95_test_vectors.md 1.3. -/
def threeTable : State := tableState 100 [(0x61, 1), (0x62, 1), (0x63, 2)]

/-- The tree of 95_test_vectors.md 1.3 in the arena, written out from its table of nodes. -/
def threeTree (s : State) : State :=
  s.withTb
    { rootValid := true
      root := 4
      k := 3
      nalloc := 5
      nm :=
        [(0, ⟨0x61, 1, 0x1FF, 0x1FF⟩), (1, ⟨0x62, 1, 0x1FF, 0x1FF⟩), (2, ⟨0x63, 2, 0x1FF, 0x1FF⟩),
          (3, ⟨0x1FF, 2, 1, 0⟩), (4, ⟨0x1FF, 4, 3, 2⟩)]
      ws := [(0, 4), (1, 2), (2, 0)] }

/-- That tree as a tree. -/
def threeShape : HTree := .node (.node (.leaf 0x62 1) (.leaf 0x61 1)) (.leaf 0x63 2)

/-! ### WellFormed refuses ill-formed terms (30_encoding.md R91, R98) -/

theorem test_wellFormed_st : Instr.wellFormed (.bbRender 2 0) = false ∧ Instr.wellFormed (.bbRender 1 0) = true := by
  decide
theorem test_wellFormed_st_high : Instr.wellFormed (.bbRender 0x800000 0) = false := by decide
theorem test_wellFormed_fsel : Instr.wellFormed (.tbNode 0 4) = false ∧ Instr.wellFormed (.tbNode 0 3) = true := by
  decide
theorem test_wellFormed_fsel_high : Instr.wellFormed (.tbNode 0 0x80000000) = false := by decide

/-! ### Decoding: one word per command, the operands at their places (30_encoding.md R90, R94) -/

theorem test_decode_bbCreate : decode 0b0001000000000000000000000000000000000000000000000000011111010000 =
    .ok (.bbCreate 2000) := by decide
theorem test_decode_bbAppend : decode 0b0001000100000000000000000000000011111111111111111111111111111111 =
    .ok (.bbAppend 0xFFFFFFFF) := by decide
theorem test_decode_bbPop : decode 0b0001001000000000000000000000000000000000000000000000000000000000 =
    .ok .bbPop := by decide
theorem test_decode_bbRender : decode 0b0001001100000000000000000000000100000000000000000000000000000110 =
    .ok (.bbRender 1 6) := by decide
theorem test_decode_bsOpenR : decode 0b0010000000000000000000000000000000000000000000000000000000000000 =
    .ok .bsOpenR := by decide
theorem test_decode_bsOpenW : decode 0b0010000100000000000000000000000000000000000000000000000000000000 =
    .ok .bsOpenW := by decide
theorem test_decode_bsReadBit : decode 0b0010001000000000000000000000000000000000000000000000000000000000 =
    .ok .bsReadBit := by decide
theorem test_decode_bsWriteBit : decode 0b0010001100000000000000000000000000000000000000000000000000000001 =
    .ok (.bsWriteBit 1) := by decide
theorem test_decode_bsWriteBuf : decode 0b0010010000000000000000000000000000000000000000000000000000000000 =
    .ok .bsWriteBuf := by decide
theorem test_decode_bsAtEnd : decode 0b0010010100000000000000000000000000000000000000000000000000000000 =
    .ok .bsAtEnd := by decide
theorem test_decode_bsClose : decode 0b0010011000000000000000000000000000000000000000000000000000000000 =
    .ok .bsClose := by decide
theorem test_decode_ftCreate : decode 0b0011000000000000000000010000000000000000000000000000000000000000 =
    .ok (.ftCreate 256) := by decide
theorem test_decode_ftScan : decode 0b0011000100000000000000000000000000000000000000000000000000000000 =
    .ok .ftScan := by decide
theorem test_decode_ftInc : decode 0b0011001000000000000000000000001100000000000000000000000000000000 =
    .ok (.ftInc 3) := by decide
theorem test_decode_ftSet : decode 0b0011001111111111111111111111111100000000000000000000000000000001 =
    .ok (.ftSet 0xFFFFFF 1) := by decide
theorem test_decode_ftGet : decode 0b0011010000000000000000000000111100000000000000000000000000000000 =
    .ok (.ftGet 15) := by decide
theorem test_decode_tbBuild : decode 0b0100000000000000000000000000000000000000000000000000000000000000 =
    .ok .tbBuild := by decide
theorem test_decode_tbExtract : decode 0b0100000100000000000000000000000000000000000000000000000000000000 =
    .ok .tbExtract := by decide
theorem test_decode_tbNode : decode 0b0100001000000000000000000000101000000000000000000000000000000011 =
    .ok (.tbNode 10 3) := by decide

/-- 95_test_vectors.md 2.6: an unassigned opcode, a reserved operand field of format Z, `a[1]` of format R, `b[2]` of
format N. -/
theorem test_decode_refusals :
    decode 0 = .error (.unassignedOpcode 0) ∧ decode 0x1200000000000001 = .error (.reservedField "BB_POP") ∧
    decode 0x1300000200000000 = .error (.reservedField "BB_RENDER") ∧
    decode 0x4200000000000004 = .error (.reservedField "TB_NODE") := by decide

/-- The assembler text of 95_test_vectors.md 2.3 row 14, its word and its row as the host's tables number it. -/
theorem test_asm : Instr.toAsm (.ftSet 3 7) = "FT_SET 3, 7" := by decide
theorem test_encode : encode (.ftSet 3 0xFFFFFFFE) = 0x33000003FFFFFFFE := by decide
theorem test_decodeTableWord : decodeTableWord 64 0x1000000000000401 = some (.bbCreate 1025) := by decide

/-- The very next step after reset runs the placed word. -/
theorem test_fetch :
    nextOf (step (State.reset.withFetchWord 64 0x1000000000000400)) = nextOf (exec (.bbCreate 1024) State.reset) := by
  decide

/-! ### Bit buffer (95_test_vectors.md 1.7, 2.1) -/

theorem test_bbCreate_max : after (exec (.bbCreate 1024) State.reset) (fun t => (t.err, t.bb.valid, t.bb.len, t.bb.cap)) =
    some (0, true, 0, 1024) := by decide
theorem test_bbCreate_over : after (exec (.bbCreate 1025) State.reset) (fun t => (t.err, t.bb.valid)) =
    some (1, false) := by decide
theorem test_bbAppend_grows : after (exec (.bbAppend 0) (bufferState 4 [true, false, true, true]))
    (fun t => (t.err, t.res, t.bb.cap)) = some (0, 5, 260) := by decide
theorem test_bbAppend_state_first : outcome (exec (.bbAppend 2) State.reset) = some (2, 0) := by decide
theorem test_bbPop_clears : after (exec .bbPop (bufferState 1024 [true, false, true])) (fun t => (t.res, t.bb.bits)) =
    some (2, [(0, true)]) := by decide
theorem test_bbPop_empty : outcome (exec .bbPop (bufferState 260 [])) = some (0, 0) := by decide
theorem test_bbRender_text : after (exec (.bbRender 1 6) (bufferState 260 [true, false, true, true, false]))
    (fun t => (t.res, t.io.renderOut)) = some (6, [0x31, 0x30, 0x31, 0x31, 0x30, 0x00]) := by decide
theorem test_bbRender_small : after (exec (.bbRender 1 2) (bufferState 1024 [true, false]))
    (fun t => (t.err, t.io.renderOut)) = some (7, []) := by decide

/-! ### Bit stream (95_test_vectors.md 1.8, 2.2) -/

theorem test_bsOpenR_primes : after (exec .bsOpenR (withBsi [.data 0xA5] State.reset))
    (fun t => (t.err, t.bs.isOpen, t.bs.eos, t.bs.byte, t.io.bsiPulls)) = some (0, true, false, 0xA5, 1) := by decide
theorem test_bsOpenR_empty : after (exec .bsOpenR (withBsi [.noMore] State.reset)) (fun t => (t.bs.eos, t.bs.byte)) =
    some (true, 0) := by decide
theorem test_bsOpenW : after (exec .bsOpenW State.reset) (fun t => (t.err, t.bs.mode)) = some (0, .write) := by decide
theorem test_bsOpenW_twice : outcome (exec .bsOpenW (streamState .read true 0 0 State.reset)) = some (2, 0) := by decide
theorem test_bsReadBit_msb : after (exec .bsReadBit (streamState .read false 0 0x80 State.reset))
    (fun t => (t.res, t.bs.off)) = some (1, 1) := by decide
theorem test_bsReadBit_last : after (exec .bsReadBit (withBsi [.noMore] (streamState .read false 7 0x0F State.reset)))
    (fun t => (t.res, t.bs.off, t.bs.byte, t.bs.eos)) = some (1, 0, 0x0F, true) := by decide
theorem test_bsWriteBit_stale : after (exec (.bsWriteBit 0) (streamState .write false 0 0xFF State.reset))
    (fun t => (t.bs.byte, t.bs.off)) = some (0x7F, 1) := by decide
theorem test_bsWriteBit_fails : after (exec (.bsWriteBit 0) (withBso [.fail] (streamState .write false 7 0xF0 State.reset)))
    (fun t => (t.err, t.bs.off, t.bs.byte, t.io.outb)) = some (8, 0, 0xF0, []) := by decide
theorem test_bsWriteBuf_packs : after (exec .bsWriteBuf (withBso [.ok] (streamState .write false 0 0
      (bufferState 256 [true, false, true, false, false, true, false, true, true]))))
    (fun t => (t.err, t.res, t.io.outb, t.bs.off, t.bs.byte)) = some (0, 9, [0xA5], 1, 0xA5) := by decide
theorem test_bsWriteBuf_stops : after (exec .bsWriteBuf (withBso [.fail] (streamState .write false 0 0
      (bufferState 256 [true, true, true, true, false, false, false, false, true]))))
    (fun t => (t.err, t.res, t.io.outb, t.bs.off)) = some (8, 7, [], 0) := by decide
theorem test_bsAtEnd_read : outcome (exec .bsAtEnd (streamState .read true 0 0 State.reset)) = some (0, 1) := by decide
theorem test_bsAtEnd_write : outcome (exec .bsAtEnd (streamState .write false 3 0 State.reset)) = some (0, 0) := by decide
theorem test_bsClose : after (exec .bsClose (streamState .write false 3 0xC0 State.reset))
    (fun t => (t.err, t.bs, t.io.outb)) = some (0, closedStream, []) := by decide
theorem test_bsClose_closed : outcome (exec .bsClose State.reset) = some (0, 0) := by decide

/-! ### Frequency table (95_test_vectors.md 2.3) -/

theorem test_ftCreate : after (exec (.ftCreate 2) State.reset) (fun t => (t.err, t.ft)) =
    some (0, { valid := true, asize := 2, counts := [(0, 0), (1, 0)] }) := by decide
theorem test_ftCreate_limit : outcome (exec (.ftCreate 257) State.reset) = some (1, 0) := by decide
theorem test_ftScan : after (exec .ftScan (withSrc [.data 0, .data 1, .data 0xFF, .data 0xFF, .data 0x10, .data 0x0F,
      .data 3, .noMore] (tableState 16 [])))
    (fun t => (t.res, t.io.srcPulls, t.ft.counts.filter fun e => e.2 != 0)) =
    some (7, 8, [(0, 1), (1, 1), (3, 1), (15, 1)]) := by decide
theorem test_ftScan_overflow : after (exec .ftScan (withSrc [.data 5, .data 3, .data 3, .data 5]
      (tableState 16 [(3, 0xFFFFFFFE)])))
    (fun t => (t.err, t.res, t.io.srcPulls, t.ft.counts.filter fun e => e.2 != 0)) =
    some (9, 3, 3, [(3, 0xFFFFFFFF), (5, 1)]) := by decide
theorem test_ftInc_last : outcome (exec (.ftInc 3) (tableState 16 [(3, 0xFFFFFFFE)])) = some (0, 4294967295) := by decide
theorem test_ftInc_overflow : outcome (exec (.ftInc 3) (tableState 16 [(3, 0xFFFFFFFF)])) = some (9, 0) := by decide
theorem test_ftSet : outcome (exec (.ftSet 3 0xFFFFFFFE) (tableState 16 [(3, 0xFFFFFFFF)])) = some (0, 4294967294) := by
  decide
theorem test_ftSet_range : outcome (exec (.ftSet 0xFFFFFF 1) (tableState 16 [])) = some (3, 0) := by decide
theorem test_ftGet : outcome (exec (.ftGet 15) (tableState 16 [(15, 1)])) = some (0, 1) := by decide
theorem test_ftGet_range : outcome (exec (.ftGet 16) (tableState 16 [])) = some (3, 0) := by decide

/-! ### Tree builder and extractor (95_test_vectors.md 1.1, 1.3, 2.4, 2.5) -/

/-- 1.1: the arena of the classic example. -/
theorem test_tbBuild_classic : after (exec .tbBuild classicTable) (fun t => (t.res, t.tb)) =
    some (6,
      { rootValid := true
        root := 10
        k := 6
        nalloc := 11
        nm :=
          [(0, ⟨0x41, 5, 0x1FF, 0x1FF⟩), (1, ⟨0x42, 9, 0x1FF, 0x1FF⟩), (2, ⟨0x43, 12, 0x1FF, 0x1FF⟩),
            (3, ⟨0x44, 13, 0x1FF, 0x1FF⟩), (4, ⟨0x45, 16, 0x1FF, 0x1FF⟩), (5, ⟨0x46, 45, 0x1FF, 0x1FF⟩),
            (6, ⟨0x1FF, 14, 1, 0⟩), (7, ⟨0x1FF, 25, 3, 2⟩), (8, ⟨0x1FF, 30, 4, 6⟩), (9, ⟨0x1FF, 55, 8, 7⟩),
            (10, ⟨0x1FF, 100, 9, 5⟩)]
        ws := [(0, 10), (1, 5), (2, 7), (3, 6), (4, 2), (5, 0)] }) := by decide

/-- 2.4 (e): the arena runs out in the merge phase. -/
theorem test_tbBuild_exhausted : after (exec .tbBuild (withParams { nodeCap := 4 } threeTable))
    (fun t => (t.err, t.tb.root, t.tb.nalloc, t.tb.ws)) = some (1, 0x1FF, 4, [(0, 3), (1, 2), (2, 0)]) := by decide

/-- 1.3: the records of the tree, and the capacity grown from 0. -/
theorem test_tbExtract : after (exec .tbExtract (threeTree (bufferState 0 []))) (fun t => (t.res, t.io.codeOut, t.bb.cap)) =
    some (3, [⟨0x62, 2, [false, false]⟩, ⟨0x61, 2, [false, true]⟩, ⟨0x63, 1, [true]⟩], 256) := by decide

/-- The rule of 2.5 (c) on the smaller tree: with `BB_MAX = 1` the first path does not fit. -/
theorem test_tbExtract_full : after (exec .tbExtract (withParams { bbMax := 1 } (threeTree (bufferState 1 []))))
    (fun t => (t.err, t.res, t.bb.len)) = some (1, 0, 1) := by decide

theorem test_tbNode_fields : (outcome (exec (.tbNode 4 0) (threeTree State.reset)) = some (0, 0x1FF)) ∧
    (outcome (exec (.tbNode 4 1) (threeTree State.reset)) = some (0, 4)) ∧
    (outcome (exec (.tbNode 4 2) (threeTree State.reset)) = some (0, 3)) ∧
    (outcome (exec (.tbNode 4 3) (threeTree State.reset)) = some (0, 2)) := by decide
theorem test_tbNode_range : outcome (exec (.tbNode 5 0) (threeTree State.reset)) = some (3, 0) := by decide

/-- 2.6: an illegal word gives 10, 0 and sets its sticky bit. -/
theorem test_illegal : after (step (State.reset.withFetchWord 64 0x1200000000000001)) (fun t => (t.err, t.res, t.esticky)) =
    some (10, 0, 0x0400) := by decide

/-- 10_state.md R52 on the status port. -/
theorem test_status : (statusPort State.reset).tbRoot = 0x1FF ∧ (statusPort State.reset).ident = 0x48554601 := by decide

/-! ### Witnesses: the hypotheses of each statement can be met, clause by clause, at the boundary of the clause -/

/-- Every entry of a table of a helper has a value. -/
theorem witness_table_inv : (tableState 4 [(0, 3), (1, 0xFFFFFFFE), (2, 0xFFFFFFFF)]).ft.Inv := by
  unfold FreqTable.Inv; decide

theorem witness_DecodeEncodeRoundTrip :
    Instr.wellFormed (.bbRender 1 0xFFFFFFFF) = true ∧ Instr.wellFormed (.tbNode 0xFFFFFF 3) = true := by decide

theorem witness_DecodedWordIsItsEncoding : decode 0x33FFFFFFFFFFFFFF = .ok (.ftSet 0xFFFFFF 0xFFFFFFFF) := by decide

theorem witness_IllegalWordsRefused :
    (opcodeMap[2] ∈ opcodeMap ∧ opField 0x1200000000000001 = (opcodeMap[2]).op ∧
      0x1200000000000001 &&& (opcodeMap[2]).mask ≠ (opcodeMap[2]).matchBits) ∧
    opField 0x14FFFFFFFFFFFFFF ∉ ([0x10, 0x11, 0x12, 0x13, 0x20, 0x21, 0x22, 0x23, 0x24, 0x25, 0x26, 0x30, 0x31, 0x32,
      0x33, 0x34, 0x40, 0x41, 0x42] : List (BitVec 8)) :=
  ⟨⟨List.getElem_mem _, by decide, by decide⟩, by decide⟩

theorem witness_AtMostOneRowMatches :
    opcodeMap[3] ∈ opcodeMap ∧ 0x1300000100000000 &&& (opcodeMap[3]).mask = (opcodeMap[3]).matchBits :=
  ⟨List.getElem_mem _, by decide⟩

theorem witness_StepRunsDecodedCommand :
    (withPort [.command 0x1200000000000000] State.reset).io.port = .command 0x1200000000000000 :: [] ∧
    (withPort [.command 0x1200000000000000] State.reset).busy = false ∧
    decode 0x1200000000000000 = .ok .bbPop := by decide

theorem witness_IllegalWordOnlyReports :
    (withPort [.command 0] State.reset).io.port = .command 0 :: [] ∧
    (withPort [.command 0] State.reset).busy = false ∧ decode 0 = .error (.unassignedOpcode 0) := by decide

/-- A state with a command that waits. -/
def waiting : State := nextOf (exec .bsOpenR (withBsi [.never] State.reset))

theorem witness_BusyBlockIgnoresCommand :
    (withPort [.command 0x1200000000000000] waiting).io.port = .command 0x1200000000000000 :: [] ∧
    (withPort [.command 0x1200000000000000] waiting).busy = true := by decide

theorem witness_ResetInputRestoresState :
    (withPort [.reset] waiting).io.port = .reset :: [] ∧ (withPort [.reset] waiting).busy = true := by decide

/-- A command that ends: also the witness of the frames UnitsChangeOnlyByTheirCommands and
ChannelsUsedOnlyByTheirCommands. -/
theorem witness_EveryCommandEndsOrWaits : exec .bsClose State.reset = .next (complete .ok 0 State.reset) := rfl

theorem witness_ErrorMatrixHolds :
    Instr.wellFormed .bbPop = true ∧ Ends .bbPop State.reset .invalidState 0 (complete .invalidState 0 State.reset) :=
  ⟨rfl, rfl, rfl, rfl, rfl, rfl, rfl, rfl, rfl, rfl⟩

theorem witness_IllFormedCommandIsIllegal :
    Instr.wellFormed (.bbRender 2 0) = false ∧ Instr.wellFormed (.tbNode 0 4) = false := by decide

theorem witness_UnansweredChannelHangs_open :
    (withBsi [.never] State.reset).bs.isOpen = false ∧ (withBsi [.never] State.reset).io.bsi = .never :: [] := by decide

theorem witness_UnansweredChannelHangs_read :
    let s := withBsi [.never] (streamState .read false 7 0 State.reset)
    s.bs.isOpen = true ∧ s.bs.mode = .read ∧ s.bs.eos = false ∧ s.bs.off = 7 ∧ s.io.bsi = .never :: [] := by decide

theorem witness_UnansweredChannelHangs_write :
    let s := withBso [.never] (streamState .write false 7 0 State.reset)
    s.bs.isOpen = true ∧ s.bs.mode = .write ∧ s.bs.off = 7 ∧ s.io.bso = .never :: [] := by decide

/-- A table of four counts, with what SRC holds. -/
def scanState (l : List PullAnswer) : State :=
  withSrc l (tableState 4 [(0, 3), (1, 0xFFFFFFFE), (2, 0xFFFFFFFF)])

/-- The bytes 1, 0 and 9: the count of 1 reaches 2^32 - 1, 9 is no symbol. -/
theorem witness_scan (l : List PullAnswer) :
    (scanState l).ft.valid = true ∧ (scanState l).ft.Inv ∧
    ∀ i, i < (scanState l).ft.asize.val → (countOf (scanState l).ft i).toNat +
      ([1, 0, 9] : List Byte).countP (fun v => v.toNat == i) ≤ 4294967295 := by
  refine ⟨rfl, witness_table_inv, ?_⟩
  show ∀ i, i < 4 → (countOf (tableState 4 [(0, 3), (1, 0xFFFFFFFE), (2, 0xFFFFFFFF)]).ft i).toNat + _ ≤ _
  decide

theorem witness_UnansweredChannelHangs_scan :
    (scanState [.data 1, .data 0, .data 9, .never]).io.src = ([1, 0, 9] : List Byte).map .data ++ .never :: [] := rfl

theorem witness_FtScanCountsOccurrences :
    (scanState [.data 1, .data 0, .data 9, .noMore]).io.src = ([1, 0, 9] : List Byte).map .data ++ .noMore :: [] := rfl

theorem witness_FtScanCountsOccurrences_free :
    (scanState [.data 1, .data 0, .data 9]).io.src = ([1, 0, 9] : List Byte).map .data := rfl

/-- Symbol 1 stands at 2^32 - 1 after the bytes; symbol 2 stood there before. -/
theorem witness_FtScanStopsAtOverflow :
    let s := scanState [.data 1, .data 0, .data 9, .data 1]
    (1 : Byte).toNat < s.ft.asize.val ∧
    (countOf s.ft (1 : Byte).toNat).toNat + ([1, 0, 9] : List Byte).countP (fun x => x.toNat == (1 : Byte).toNat) =
      4294967295 ∧
    s.io.src = ([1, 0, 9] : List Byte).map .data ++ .data 1 :: [] := by decide

/-- The reset state is too early for every clause; `st` and `fsel` at their largest legal values. -/
theorem witness_CommandTooEarlyFails :
    State.reset.bb.valid = false ∧ State.reset.ft.valid = false ∧ (1 : BitVec 24).toNat ≤ 1 ∧
    (3 : BitVec 32).toNat ≤ 3 ∧ State.reset.tb.nalloc.toNat ≤ (0 : BitVec 24).toNat ∧ State.reset.bs.isOpen = false := by
  decide

theorem witness_CommandTooEarlyFails_node :
    (threeTree State.reset).tb.nalloc.toNat ≤ (5 : BitVec 24).toNat := by decide

theorem witness_CommandTooEarlyFails_mode :
    (streamState .write false 0 0 State.reset).bs.mode = .write ∧
    (streamState .read false 0 0 State.reset).bs.mode = .read ∧
    (streamState .read false 0 0 State.reset).bs.isOpen = true := by decide

theorem witness_BadOperandFails_bits :
    (bufferState 4 []).bb.valid = true ∧ 1 < (2 : BitVec 32).toNat ∧
    (streamState .write false 0 0 State.reset).bs.isOpen = true ∧
    (streamState .write false 0 0 State.reset).bs.mode = .write := by decide

theorem witness_BadOperandFails_sizes :
    (tableState 4 []).ft.valid = true ∧ (tableState 4 []).ft.asize.val ≤ (4 : BitVec 24).toNat ∧
    State.reset.params.bbMax.val < (1025 : BitVec 32).toNat ∧ 256 < (257 : BitVec 24).toNat ∧
    (1 : BitVec 32).toNat < (bufferState 4 [true]).bb.len.toNat + 1 := by decide

theorem witness_BadOperandFails_end :
    let s := streamState .read true 0 0 State.reset
    s.bs.isOpen = true ∧ s.bs.mode = .read ∧ s.bs.eos = true := by decide

/-- A full buffer of capacity 3 with `BB_MAX` = 258: one slot short of a growth. -/
theorem witness_BadOperandFails_full :
    let s := withParams { bbMax := 258 } (bufferState 3 [true, true, true])
    s.bb.valid = true ∧ s.bb.len = s.bb.cap ∧ s.params.bbMax.val < s.bb.cap.toNat + 256 ∧
    (1 : BitVec 32).toNat ≤ 1 := by decide

theorem witness_BadOperandFails_overflow :
    let s := tableState 4 [(2, 0xFFFFFFFF)]
    s.ft.valid = true ∧ (2 : BitVec 24).toNat < s.ft.asize.val ∧
    memRead s.ft.counts (2 : BitVec 24).toNat = some 0xFFFFFFFF := by decide

/-- The error clauses of the statements about one command have the hypotheses of CommandTooEarlyFails and
BadOperandFails and share the witnesses above; what is new in them stands here: a full write stream with no held answer,
the largest count, and a buffer without a tree. -/
theorem witness_clauses_of_commands :
    (let s := streamState .write false 7 0 State.reset
     s.bs.isOpen = true ∧ s.bs.mode = .write ∧ s.bs.off = 7 ∧ s.io.bso = []) ∧
    (let s := tableState 4 [(2, 0xFFFFFFFF)]
     s.ft.valid = true ∧ (2 : BitVec 24).toNat < s.ft.asize.val ∧
     memRead s.ft.counts (2 : BitVec 24).toNat = some 0xFFFFFFFF ∧ (0xFFFFFFFF : Count).toNat = 4294967295) ∧
    (bufferState 4 []).bb.valid = true ∧ (bufferState 4 []).tb.rootValid = false := by decide

theorem witness_BbCreateMakesFreshBuffer : (1024 : BitVec 32).toNat ≤ State.reset.params.bbMax.val := by decide

/-- Room for one bit; a growth that just fits (3 + 256 = 259). -/
theorem witness_BbAppendStoresAtTail :
    ((bufferState 4 [true, true, true]).bb.valid = true ∧
      (bufferState 4 [true, true, true]).bb.len ≠ (bufferState 4 [true, true, true]).bb.cap) ∧
    (let s := withParams { bbMax := 259 } (bufferState 3 [true, true, true])
     s.bb.valid = true ∧ s.bb.len = s.bb.cap ∧ s.bb.cap.toNat + 256 ≤ s.params.bbMax.val) := by decide

theorem witness_BbPopRemovesTail :
    ((bufferState 4 []).bb.valid = true ∧ (bufferState 4 []).bb.len = 0) ∧
    ((bufferState 4 [true]).bb.valid = true ∧ 0 < (bufferState 4 [true]).bb.len.toNat) := by decide

theorem witness_BbRenderEmitsString :
    (bufferState 4 [true, false]).bb.valid = true ∧ (bufferState 4 [true, false]).bb.len.toNat + 1 ≤
      (3 : BitVec 32).toNat := by decide

/-- A buffer of a helper without bits meets 10_state.md R24. -/
theorem witness_empty_inv : (bufferState 4 []).bb.Inv (bufferState 4 []).params := ⟨by decide, by decide, fun _ _ => rfl⟩

/-- Five bits into capacity 4: one growth. -/
theorem witness_AppendedBitsRenderInOrder :
    (bufferState 4 []).bb.valid = true ∧ (bufferState 4 []).bb.len = 0 ∧
    PathFits (bufferState 4 []).params (bufferState 4 []).bb.cap.toNat [true, false, true, true, false].length :=
  ⟨by decide, by decide, .inr (by decide)⟩

/-- The reset state meets the invariants and steps. -/
theorem witness_reset_step : step State.reset = .next State.reset := rfl
theorem witness_reset_bb : State.reset.bb.Inv State.reset.params := ⟨by decide, by decide, fun _ _ => rfl⟩
theorem witness_reset_bs : State.reset.bs.Inv := by unfold BitStream.Inv; decide
theorem witness_reset_ft : State.reset.ft.Inv := by unfold FreqTable.Inv; decide
theorem witness_reset_response : ResponseInv State.reset := by unfold ResponseInv; decide
theorem witness_reset_arrays : State.reset.memoryWf = true := rfl

theorem witness_CapacityGrowsBySteps :
    (bufferState 4 []).bb.Inv (bufferState 4 []).params ∧
    after (exec (.bbAppend 1) (bufferState 4 [])) (fun t => t.bb.cap) = some 4 := ⟨witness_empty_inv, by decide⟩

theorem witness_OpenReadPrimesFirstByte :
    State.reset.bs.isOpen = false ∧ (withBsi [.data 0xFF] State.reset).io.bsi = .data 0xFF :: [] ∧
    (withBsi [.noMore] State.reset).io.bsi = .noMore :: [] ∧ State.reset.io.bsi = [] := by decide

theorem witness_OpenWriteStartsEmptyByte : State.reset.bs.isOpen = false := by decide

theorem witness_ReadBitReturnsStreamBit :
    (let s := streamState .read false 6 0x01 State.reset
     s.bs.isOpen = true ∧ s.bs.mode = .read ∧ s.bs.eos = false ∧ s.bs.off.toNat < 7) ∧
    (let s := streamState .read false 7 0x01 State.reset
     s.bs.isOpen = true ∧ s.bs.mode = .read ∧ s.bs.eos = false ∧ s.bs.off = 7 ∧ s.io.bsi = [] ∧
     (withBsi [.data 0] s).io.bsi = .data 0 :: [] ∧ (withBsi [.noMore] s).io.bsi = .noMore :: []) := by decide

theorem witness_WriteBitSetsOnePosition :
    (let s := streamState .write false 6 0 State.reset
     s.bs.isOpen = true ∧ s.bs.mode = .write ∧ s.bs.off.toNat < 7) ∧
    (let s := streamState .write false 7 0 State.reset
     s.bs.isOpen = true ∧ s.bs.mode = .write ∧ s.bs.off = 7 ∧ (withBso [.ok] s).io.bso = .ok :: [] ∧
     (withBso [.fail] s).io.bso = .fail :: []) := by decide

/-- A write stream with `off` bits in its partial byte beside a buffer of eight bits. -/
def bufferStream (off : Nat) : State :=
  streamState .write false off 0xFF (bufferState 8 [true, false, true, false, false, true, false, true])

/-- At a byte boundary, and after seven bits: one push of the eight or fifteen bits, or no answer held. -/
theorem witness_WriteBufferPacksBits :
    ∀ off ∈ ([0, 7] : List Nat),
      let s := withBso [.ok] (bufferStream off)
      s.bs.isOpen = true ∧ s.bs.mode = .write ∧ s.bb.valid = true ∧
      s.io.bso = List.replicate ((bitsToWrite s).length / 8) .ok ++ [] ∧ (bufferStream off).io.bso = [] := by
  simp only [length_bitsToWrite]; decide

/-- Twenty-three bits make two pushes, and one answer is held. -/
theorem witness_WriteBufferPacksBits_held :
    let s := withBso [.ok] (streamState .write false 7 0xFF (bufferState 16 (List.replicate 16 true)))
    s.bs.isOpen = true ∧ s.bs.mode = .write ∧ s.bb.valid = true ∧ 1 < (bitsToWrite s).length / 8 ∧
    s.io.bso = List.replicate 1 .ok := by
  simp only [length_bitsToWrite]; decide

/-- The one push of eight or fifteen bits fails. -/
theorem witness_WriteBufferStopsAtFirstFailure :
    ∀ off ∈ ([0, 7] : List Nat),
      let s := withBso [.fail] (bufferStream off)
      s.bs.isOpen = true ∧ s.bs.mode = .write ∧ s.bb.valid = true ∧ 8 * (0 + 1) ≤ (bitsToWrite s).length ∧
      s.io.bso = List.replicate 0 .ok ++ .fail :: [] := by
  simp only [length_bitsToWrite]; decide

theorem witness_UnansweredChannelHangs_buffer :
    let s := withBso [.never] (bufferStream 7)
    s.bs.isOpen = true ∧ s.bs.mode = .write ∧ s.bb.valid = true ∧ 8 * (0 + 1) ≤ (bitsToWrite s).length ∧
    s.io.bso = List.replicate 0 .ok ++ .never :: [] := by
  simp only [length_bitsToWrite]; decide

theorem witness_AtEndAnswersEndOfStream : (streamState .write false 0 0 State.reset).bs.isOpen = true := by decide

theorem witness_CloseClearsStream :
    (streamState .write false 5 0xF8 State.reset).bs.isOpen = true ∧ State.reset.bs.isOpen = false := by decide

/-- Eight bits, one byte 0xA5, read back from another state. -/
theorem witness_BitStreamRoundTrip :
    State.reset.bs.isOpen = false ∧
    (withBso [.ok] State.reset).io.bso =
      List.replicate ([true, false, true, false, false, true, false, true].length / 8) .ok ++ [] ∧
    (withBsi [.data 0xA5, .noMore] State.reset).io.bsi = ([0xA5] : List Byte).map .data ++ .noMore :: [] := by decide

theorem witness_FtCreateZeroesEntries : (256 : BitVec 24).toNat ≤ 256 := by decide

theorem witness_FtIncAddsOne :
    let s := tableState 4 [(3, 0xFFFFFFFE)]
    s.ft.valid = true ∧ (3 : BitVec 24).toNat < s.ft.asize.val ∧
    memRead s.ft.counts (3 : BitVec 24).toNat = some 0xFFFFFFFE ∧ (0xFFFFFFFE : Count).toNat < 4294967295 := by decide

/-- Also the witness of FtGetAnswersCount. -/
theorem witness_FtSetWritesCount :
    let s := tableState 4 [(3, 7)]
    s.ft.valid = true ∧ (3 : BitVec 24).toNat < s.ft.asize.val ∧ memRead s.ft.counts (3 : BitVec 24).toNat = some 7 := by
  decide

/-- An internal node before a leaf of its weight, and that leaf before a lighter one. -/
theorem witness_ComparatorIsStrictOrder :
    before true ⟨0x1FF, 2, 1, 0⟩ ⟨0x63, 2, 0x1FF, 0x1FF⟩ = true ∧
    before true ⟨0x63, 2, 0x1FF, 0x1FF⟩ ⟨0x61, 1, 0x1FF, 0x1FF⟩ = true ∧
    before false ⟨0x63, 2, 0x1FF, 0x1FF⟩ ⟨0x1FF, 2, 1, 0⟩ = true := by decide

/-- Three symbols of a small table. -/
def smallTable : State := tableState 4 [(1, 1), (2, 1), (3, 2)]

theorem witness_smallTable : smallTable.ft.valid = true ∧ smallTable.ft.Inv := ⟨rfl, by unfold FreqTable.Inv; decide⟩

/-- Three symbols need five nodes: five suffice, four do not. -/
theorem witness_TbBuildMakesTree :
    2 * (activeSymbols smallTable.ft).length ≤ (withParams { nodeCap := 5 } smallTable).params.nodeCap.val + 1 := by decide

theorem witness_TbBuildArenaExhausted :
    (withParams { nodeCap := 4 } smallTable).params.nodeCap.val + 1 < 2 * (activeSymbols smallTable.ft).length := by decide

/-- A build that makes a tree: also the witness of BuildDependsOnTableOnly (both builds from it). -/
theorem witness_TreeLeavesAreTheTable :
    exec .tbBuild smallTable = .next (nextOf (exec .tbBuild smallTable)) ∧
    (nextOf (exec .tbBuild smallTable)).tb.rootValid = true := ⟨rfl, by decide⟩

theorem witness_TbNodeReadsField :
    (4 : BitVec 24).toNat < (threeTree State.reset).tb.nalloc.toNat ∧
    memRead (threeTree State.reset).tb.nm (4 : BitVec 24).toNat = some ⟨0x1FF, 4, 3, 2⟩ := by decide

/-- The tree of 1.3 stands in its arena. -/
theorem witness_tree (s : State) : TreeAt (threeTree s).tb threeShape (threeTree s).tb.root :=
  ⟨_, rfl, rfl,
    ⟨_, rfl, rfl, ⟨_, rfl, rfl, by decide, rfl, rfl⟩, ⟨_, rfl, rfl, by decide, rfl, rfl⟩⟩,
    ⟨_, rfl, rfl, by decide, rfl, rfl⟩⟩

/-- Depth 2: capacity 2 fits as it is, capacity 0 grows once. -/
theorem witness_ExtractEmitsCodes :
    (threeTree (bufferState 2 [])).bb.valid = true ∧ (threeTree (bufferState 2 [])).tb.rootValid = true ∧
    PathFits (threeTree (bufferState 2 [])).params 2 threeShape.depth ∧
    PathFits (threeTree (bufferState 0 [])).params 0 threeShape.depth :=
  ⟨by decide, by decide, .inl (by decide), .inr (by decide)⟩

/-- Depth 2 in capacity 1 with `BB_MAX` = 1 does not fit. -/
theorem witness_ExtractStopsWhenBufferFull :
    let s := withParams { bbMax := 1 } (threeTree (bufferState 1 []))
    s.bb.valid = true ∧ s.tb.rootValid = true ∧ ¬ PathFits s.params s.bb.cap.toNat threeShape.depth := by
  refine ⟨by decide, by decide, ?_⟩
  unfold PathFits
  decide

theorem witness_ExtractOfNullTree : (bufferState 4 []).bb.valid = true ∧ (bufferState 4 []).tb.rootValid = false := by
  decide

theorem witness_CodesArePrefixFree :
    Ends .tbExtract (threeTree (bufferState 2 [])) .ok 3 (nextOf (exec .tbExtract (threeTree (bufferState 2 [])))) :=
  ⟨rfl, rfl, rfl, rfl, rfl, rfl, rfl, rfl, rfl⟩

/-- One leaf in the arena, root 0, beside a buffer: every invariant holds. -/
def leafState : State :=
  (bufferState 4 []).withTb
    { rootValid := true, root := 0, k := 1, nalloc := 1, nm := [(0, ⟨0x7A, 7, 0x1FF, 0x1FF⟩)], ws := [(0, 0)] }

theorem witness_ExtractFitsByDefault :
    leafState.Inv ∧ leafState.params.bbMax.val = 1024 ∧ leafState.bb.valid = true ∧ leafState.tb.rootValid = true := by
  refine ⟨⟨⟨by decide, by decide, fun _ _ => rfl⟩, by unfold BitStream.Inv; decide, by unfold FreqTable.Inv; decide,
    ⟨by decide, by decide, ?_, ?_, by decide, by decide⟩, by unfold ResponseInv; decide, by decide, rfl⟩,
    by decide, by decide, by decide⟩
  · intro i hi
    have h0 : i = 0 := by have : i < 1 := hi; omega
    subst h0
    exact ⟨_, rfl, by rw [NodeOk, if_pos (by decide)]; decide⟩
  · intro i j n m h1 h2
    have h1 : 1 ≤ i := h1
    have h2 : i < 1 := h2
    omega

/-- The invariants of a step hold where the statements need them: at reset (StickyBitsStay, ArraysStayCanonical and the
unit invariants, with `witness_reset_step`) and beside a tree (TreeInvariantKept, StepNeverStops). -/
theorem witness_leaf_step : step leafState = .next leafState := rfl

end Sys2Proof.Tests
end

section
/-! The response registers: what a step can do to `ERR` and `ESTICKY` (10_state.md R34, R35), and the state after reset
(10_state.md R52). -/

namespace Sys2Proof.Machine

/-! ### The bit a code sets -/

/-- The code of an error that can be produced: none is above 10, and 5 is `E_INVALID_OFFSET` alone (60_exceptions.md
R231, 41_bitstream.md R135). -/
theorem code_produced {e : ErrCode} (he : e ≠ .invalidOffset) : e.code.toNat ≤ 10 ∧ e.code ≠ 5 := by
  cases e with
  | invalidOffset => exact absurd rfl he
  | _ => decide

theorem code_bit_unreserved {e : ErrCode} (he : e ≠ .invalidOffset) (h0 : e.code ≠ 0) :
    1#16 <<< e.code.toNat &&& 0xF821#16 = 0 := by
  cases e with
  | ok => exact absurd rfl h0
  | invalidOffset => exact absurd rfl he
  | _ => decide

theorem and_stickyAfter (e : ErrCode) (old : BitVec 16) : old &&& stickyAfter e old = old := by
  unfold stickyAfter
  split
  · exact BitVec.and_self
  · ext i
    simp +contextual

theorem stickyAfter_unreserved {e : ErrCode} {old : BitVec 16} (he : e ≠ .invalidOffset)
    (h : old &&& 0xF821#16 = 0) : stickyAfter e old &&& 0xF821#16 = 0 := by
  unfold stickyAfter
  split
  · exact h
  · rename_i h0
    rw [BitVec.and_or_distrib_right, h, code_bit_unreserved he h0, BitVec.or_self]

theorem stickyAfter_getLsbD_code {e : ErrCode} (old : BitVec 16) (h0 : e.code ≠ 0) :
    (stickyAfter e old).getLsbD e.code.toNat = true := by
  have hlt : e.code.toNat < 16 := by cases e <;> decide
  rw [stickyAfter, if_neg h0]
  simp [hlt]

/-! ### What a step records -/

/-- `ERR` and `ESTICKY` stay as they were, or record one code that can be produced. -/
def RecordsCode (s t : State) : Prop :=
  (t.err = s.err ∧ t.esticky = s.esticky) ∨
    ∃ e, e ≠ ErrCode.invalidOffset ∧ t.err = e.code ∧ t.esticky = stickyAfter e s.esticky

theorem RecordsCode.esticky_kept {s t : State} (h : RecordsCode s t) : s.esticky &&& t.esticky = s.esticky := by
  obtain ⟨-, hs⟩ | ⟨e, -, -, hs⟩ := h
  · rw [hs, BitVec.and_self]
  · rw [hs, and_stickyAfter]

theorem RecordsCode.responseInv {s t : State} (h : RecordsCode s t) (inv : ResponseInv s) : ResponseInv t := by
  obtain ⟨herr, hs⟩ | ⟨e, he, herr, hs⟩ := h
  · unfold ResponseInv
    rw [herr, hs]
    exact inv
  · obtain ⟨-, -, hreserved, -⟩ := inv
    obtain ⟨hle, hne⟩ := code_produced he
    unfold ResponseInv
    rw [herr, hs]
    exact ⟨hle, hne, stickyAfter_unreserved he hreserved, stickyAfter_getLsbD_code s.esticky⟩

/-- No row of 60_exceptions.md R233 has code 5 (41_bitstream.md R135). -/
theorem invalidOffset_not_mem_mayEndWith (i : Instr) : ErrCode.invalidOffset ∉ mayEndWith i := by
  cases i <;> simp [mayEndWith]

theorem exec_recordsCode {i : Instr} {s t : State} (h : exec i s = .next t) : RecordsCode s t := by
  obtain ⟨-, -, same | ⟨e, hmem, herr, hs⟩⟩ := exec_constants h
  · exact .inl same
  · refine .inr ⟨e, ?_, herr, hs⟩
    rintro rfl
    obtain hill | hrow := List.mem_cons.mp hmem
    · cases hill
    · exact invalidOffset_not_mem_mayEndWith i hrow

/-- A step is a reset, or does no more to the response registers than record a code. -/
theorem step_reset_or_recordsCode {s t : State} (h : step s = .next t) :
    (∃ rest, s.io.port = .reset :: rest ∧ t = applyReset (passed rest s)) ∨ RecordsCode s t := by
  have c := step_cases s
  generalize step s = x at c h
  cases c with
  | idle => cases h; exact .inr (.inl ⟨rfl, rfl⟩)
  | reset rest hp => cases h; exact .inl ⟨rest, hp, rfl⟩
  | dropped w rest => cases h; exact .inr (.inl ⟨rfl, rfl⟩)
  | run w rest i => exact .inr (exec_recordsCode (s := passed rest s) h)
  | illegal w rest => cases h; exact .inr (.inr ⟨.illegalCmd, by decide, rfl, rfl⟩)

theorem responseInv_applyReset (s : State) : ResponseInv (applyReset s) := by
  simp [ResponseInv]

end Sys2Proof.Machine

namespace Sys2Proof.Proofs

open Sys2Proof.Machine

/-- Settles O56: a step other than a reset at most records a code that can be produced, and recording one only sets
bits. -/
theorem stickyBitsStay : Obligations.StickyBitsStay := by
  intro s t inv h
  obtain ⟨rest, hp, rfl⟩ | rec := step_reset_or_recordsCode h
  · exact ⟨responseInv_applyReset _, fun noReset => absurd hp (noReset rest)⟩
  · exact ⟨rec.responseInv inv, fun _ => rec.esticky_kept⟩

/-- Settles O10: the flags and registers are the values `State.resetWith` writes, and an empty array holds nothing at
any index. -/
theorem resetStateIsAsListed : Obligations.ResetStateIsAsListed :=
  ⟨rfl, rfl, rfl, bitRead_nil, rfl, rfl, rfl, rfl, rfl, rfl, rfl, memRead_nil, rfl, rfl, rfl, rfl, memRead_nil,
    memRead_nil, rfl, rfl, rfl, rfl⟩

end Sys2Proof.Proofs
end

section
/-! The words that are no commands: what the decoder answers to them (30_encoding.md R93, R95) and what a step does with
one (R96). -/

namespace Sys2Proof

theorem rowOf_eq_none_iff (op : BitVec 8) : rowOf op = none ↔ op ∉ opcodeMap.map OpRow.op := by
  simp only [rowOf, List.find?_eq_none, List.mem_map, beq_iff_eq, not_exists, not_and]

/-- A row's mask and match word decide between its command and the refusal under its mnemonic (30_encoding.md R100,
second step). -/
theorem decode_of_row {w : Word} {r : OpRow} (h : rowOf (opField w) = some r) :
    decode w = if w &&& r.mask = r.matchBits then .ok (r.build (aField w) (bField w))
      else .error (.reservedField r.mnemonic) := by
  rw [decode, h]

theorem decode_of_no_row {w : Word} (h : rowOf (opField w) = none) :
    decode w = .error (.unassignedOpcode (opField w)) := by
  rw [decode, h]

end Sys2Proof

namespace Sys2Proof.Machine

theorem step_of_decode_error {s : State} {w : Word} {rest : List PortEvent} {e : DecodeError}
    (hp : s.io.port = .command w :: rest) (hb : s.busy = false) (hd : decode w = .error e) :
    step s = illegal (passed rest s) := by
  have c := step_cases s
  generalize step s = x at c ⊢
  cases c with
  | idle h => cases hp.symm.trans h
  | reset _ h => cases hp.symm.trans h
  | dropped _ _ _ b => cases hb.symm.trans b
  | run _ _ _ h _ d => cases hp.symm.trans h; cases hd.symm.trans d
  | illegal _ _ _ h => cases hp.symm.trans h; rfl

/-- Code 10 sets bit 10 (10_state.md R35). -/
theorem stickyAfter_illegalCmd (old : BitVec 16) : stickyAfter .illegalCmd old = old ||| 0x0400 := rfl

end Sys2Proof.Machine

namespace Sys2Proof.Proofs

open Sys2Proof.Machine

/-- Settles O4: an assigned opcode selects its own row, whose mask the word fails; any other opcode selects none, the
listed opcodes being those of the 19 rows. -/
theorem illegalWordsRefused : Obligations.IllegalWordsRefused := by
  constructor
  · intro w r hr hop hmask
    have hrow : rowOf (opField w) = some r := hop ▸ rowOf_op r hr
    rw [decode_of_row hrow, if_neg hmask]
  · intro w hop
    exact decode_of_no_row ((rowOf_eq_none_iff _).mpr hop)

/-- Settles O7: the step is the illegal command in the state with the word taken from the port, which writes the
response registers and the response only. -/
theorem illegalWordOnlyReports : Obligations.IllegalWordOnlyReports := by
  intro s w rest e hp hb hd
  rw [step_of_decode_error hp hb hd, illegal, raise, complete, stickyAfter_illegalCmd]
  rfl

end Sys2Proof.Proofs
end

section
/-! The bit buffer's commands: the words they have (30_encoding.md R94), what each does case by case (40_bitbuffer.md
R112 to R115), and the statements about them. -/

namespace Sys2Proof

/-- The word of a well-formed command is decoded to the command (30_encoding.md R100). -/
theorem decode_of_encode {i : Instr} {w : Word} (h : Laws.OpcodeRow.Statement i) (e : encode i = w)
    (wf : i.wellFormed = true) : decode w = .ok i := by
  subst e
  obtain ⟨r, hr, -, hop, hmask, hbuild⟩ := h
  have hrow : rowOf (opField (encode i)) = some r := hop ▸ rowOf_op r hr
  rw [decode_of_row hrow, if_pos (hmask.mpr wf), hbuild]

end Sys2Proof

namespace Sys2Proof.Machine

variable {s : State}

/-! ### BB_CREATE -/

theorem exec_bbCreate_tooLarge {cap : BitVec 32} (h : s.params.bbMax.val < cap.toNat) :
    exec (.bbCreate cap) s = raise .alloc 0 s := by
  rw [exec, execBbCreate, capOperand_none h]

theorem exec_bbCreate_of_capOperand {cap : BitVec 32} {c : BitVec 11} (h : capOperand s.params cap = some c) :
    exec (.bbCreate cap) s =
      done 0 (s.withBb { valid := true, len := 0, cap := c, bits := zeroSlots s.params s.bb.bits }) := by
  rw [exec, execBbCreate, h]

/-! ### BB_APPEND -/

theorem exec_bbAppend_noBuffer (hv : s.bb.valid = false) (bit : BitVec 32) :
    exec (.bbAppend bit) s = raise .invalidState 0 s := by
  rw [exec, execBbAppend, if_pos hv]

theorem exec_bbAppend_noBit (hv : s.bb.valid = true) {bit : BitVec 32} (h : 1 < bit.toNat) :
    exec (.bbAppend bit) s = raise .invalidBit 0 s := by
  rw [exec, execBbAppend, if_neg (by simp [hv]), bitOperand_none h]

theorem exec_bbAppend_full (hv : s.bb.valid = true) {b : Bit} (h : bbPush s.params b s.bb = none) :
    exec (.bbAppend (if b then 1 else 0)) s = raise .alloc 0 s := by
  simp only [exec, execBbAppend, hv, bitOperand_ofBit, h, Bool.true_eq_false, if_false]

theorem exec_bbAppend_pushed (hv : s.bb.valid = true) {b : Bit} {c : BitBuffer} (h : bbPush s.params b s.bb = some c) :
    exec (.bbAppend (if b then 1 else 0)) s = done (c.len.setWidth 64) (s.withBb c) := by
  simp only [exec, execBbAppend, hv, bitOperand_ofBit, h, Bool.true_eq_false, if_false]

/-- A push is made when there is room or a growth by 256 fits (40_bitbuffer.md R111). -/
theorem exists_bbPush {p : Params} {b : BitBuffer} (bit : Bit)
    (h : b.len ≠ b.cap ∨ b.cap.toNat + 256 ≤ p.bbMax.val) : ∃ c, bbPush p bit b = some c := by
  by_cases e : b.len = b.cap
  · exact ⟨_, bbPush_grow e (h.resolve_left (not_not_intro e))⟩
  · exact ⟨_, bbPush_room e⟩

/-- The capacity after a push (40_bitbuffer.md R116). -/
theorem toNat_cap_bbPush {p : Params} {bit : Bit} {b c : BitBuffer} (h : bbPush p bit b = some c) :
    c.cap.toNat = if b.len = b.cap then b.cap.toNat + 256 else b.cap.toNat := by
  obtain ⟨-, -, -, ⟨hroom, hcap⟩ | ⟨hfull, hcap, -⟩⟩ := bbPush_some h
  · rw [if_neg hroom, hcap]
  · rw [if_pos hfull, hcap]

/-! ### BB_POP -/

theorem exec_bbPop_noBuffer (hv : s.bb.valid = false) : exec .bbPop s = raise .invalidState 0 s := by
  rw [exec, execBbPop, if_pos hv]

theorem exec_bbPop_valid (hv : s.bb.valid = true) :
    exec .bbPop s = done ((bbPop s.bb).len.setWidth 64) (s.withBb (bbPop s.bb)) := by
  rw [exec, execBbPop, if_neg (by simp [hv])]

/-! ### BB_RENDER -/

theorem stOk_of_le_one {st : BitVec 24} (h : st.toNat ≤ 1) : stOk st = true := decide_eq_true h

theorem exec_bbRender_noBuffer {st : BitVec 24} (hst : st.toNat ≤ 1) (hv : s.bb.valid = false) (n : BitVec 32) :
    exec (.bbRender st n) s = raise .invalidState 0 s := by
  rw [exec, execBbRender, if_neg (by simp [stOk_of_le_one hst]), if_pos hv]

/-- The size query. -/
theorem exec_bbRender_query (hv : s.bb.valid = true) (n : BitVec 32) :
    exec (.bbRender 0 n) s = done (BitVec.ofNat 64 (s.bb.len.toNat + 1)) s := by
  rw [exec, execBbRender, if_neg (by decide), if_neg (by simp [hv]), if_pos (by decide), renderNeed_result]

theorem exec_bbRender_tooSmall (hv : s.bb.valid = true) {n : BitVec 32} (h : n.toNat < s.bb.len.toNat + 1) :
    exec (.bbRender 1 n) s = raise .bufferTooSmall 0 s := by
  rw [exec, execBbRender, if_neg (by decide), if_neg (by simp [hv]), if_neg (by decide),
    if_pos (by rwa [toNat_renderNeed])]

theorem exec_bbRender_emits (hv : s.bb.valid = true) {n : BitVec 32} (h : s.bb.len.toNat + 1 ≤ n.toNat) :
    exec (.bbRender 1 n) s =
      done (BitVec.ofNat 64 (s.bb.len.toNat + 1)) (emitChars (renderText s.bb) s) := by
  rw [exec, execBbRender, if_neg (by decide), if_neg (by simp [hv]), if_neg (by decide),
    if_neg (by rw [toNat_renderNeed]; omega), renderNeed_result]

/-! ### The channels -/

theorem SameChannels.of_io {t : State} (h : t.io = s.io) (e : ErrCode) (r : Word) :
    SameChannels s (complete e r t) := by
  simp [SameChannels, SameSrc, SameBsi, SameBso, SameEmitted, h]

end Sys2Proof.Machine

namespace Sys2Proof.Proofs

open Sys2Proof.Machine

/-- Settles O17: `BB_MAX` decides between the error and the fresh buffer. -/
theorem bbCreateMakesFreshBuffer : Obligations.BbCreateMakesFreshBuffer := by
  intro s cap
  refine ⟨decode_of_encode (Laws.OpcodeRow.bbCreate cap) rfl rfl,
    fun h => failsClean_raise (exec_bbCreate_tooLarge h), fun h => ?_⟩
  obtain ⟨c, hc, hcap⟩ := capOperand_some h
  exact ⟨_, ends_complete (exec_bbCreate_of_capOperand hc) (bodyFrame_withBb _ _ rfl), rfl, rfl, hcap,
    bitRead_zeroSlots _ _, rfl, rfl, rfl, .of_io rfl _ _⟩

/-- Settles O18: after the two checks the outcome is that of the push, which fails just when the buffer is full and
cannot grow. -/
theorem bbAppendStoresAtTail : Obligations.BbAppendStoresAtTail := by
  intro s b
  refine ⟨fun bit => decode_of_encode (Laws.OpcodeRow.bbAppend bit) rfl rfl,
    fun hv bit => failsClean_raise (exec_bbAppend_noBuffer hv bit),
    fun hv _ h => failsClean_raise (exec_bbAppend_noBit hv h),
    fun hv hfull hmax => failsClean_raise (exec_bbAppend_full hv (bbPush_full hfull hmax)), fun hv hroom => ?_⟩
  obtain ⟨c, hc⟩ := exists_bbPush b hroom
  obtain ⟨hvalid, hlen, hbits, -⟩ := bbPush_some hc
  have hslots : ∀ i, bitRead c.bits i = if i = s.bb.len.toNat then b else bitRead s.bb.bits i := fun i => by
    rw [hbits, bitRead_bitWrite]
  exact ⟨_, ends_complete (exec_bbAppend_pushed hv hc) (bodyFrame_withBb _ _ rfl), hvalid.trans hv, hlen,
    toNat_cap_bbPush hc, hslots, rfl, rfl, rfl, .of_io rfl _ _⟩

/-- Settles O19: a pop with a buffer completes with the popped buffer, which `bbPop_spec` describes. -/
theorem bbPopRemovesTail : Obligations.BbPopRemovesTail := by
  intro s
  refine ⟨decode_of_encode Laws.OpcodeRow.bbPop rfl rfl,
    fun hv => failsClean_raise (exec_bbPop_noBuffer hv), fun hv => ?_⟩
  obtain ⟨hvalid, hcap, hlen, hslots⟩ := bbPop_spec s.bb
  exact ⟨_, ends_complete (exec_bbPop_valid hv) (bodyFrame_withBb _ _ rfl), hvalid.trans hv, hcap, hlen, hslots,
    fun h => bbPop_empty (congrArg BitVec.toNat h), rfl, rfl, rfl, .of_io rfl _ _⟩

/-- Settles O20: without storage only the size is answered; with storage the size decides between the error and the
text, which `renderText_eq` spells out. -/
theorem bbRenderEmitsString : Obligations.BbRenderEmitsString := by
  intro s n
  refine ⟨fun st hst => ⟨decode_of_encode (Laws.OpcodeRow.bbRender st n) rfl (stOk_of_le_one hst),
      fun hv => failsClean_raise (exec_bbRender_noBuffer hst hv n)⟩,
    fun hv h => failsClean_raise (exec_bbRender_tooSmall hv h), fun hv => ?_, fun hv h => ?_⟩
  · exact ⟨_, ends_complete (exec_bbRender_query hv n) (.refl _ s), ⟨rfl, rfl, rfl, rfl⟩, .of_io rfl _ _⟩
  · refine ⟨_, ends_complete (exec_bbRender_emits hv h) (bodyFrame_emitChars _ _), ⟨rfl, rfl, rfl, rfl⟩, ?_, rfl,
      ⟨rfl, rfl⟩, ⟨rfl, rfl⟩, ⟨rfl, rfl, rfl⟩⟩
    rw [complete_io_renderOut, emitChars_io_renderOut, renderText_eq, List.append_assoc]

end Sys2Proof.Proofs
end

section
/-! The bit stream's commands but for BS_WRITE_BUF: what each does case by case (41_bitstream.md R131 to R136, R138,
R139), and the statements about them. -/

namespace Sys2Proof.Machine

variable {s t : State}

/-! ### One pull and one push -/

theorem pullBsi_data {v : Byte} {rest : List PullAnswer} (h : s.io.bsi = .data v :: rest) :
    pullBsi s = .answer (some v) (countBsiPull s) := by
  rw [pullBsi, h]

theorem pullBsi_noMore {rest : List PullAnswer} (h : s.io.bsi = .noMore :: rest) :
    pullBsi s = .answer none (countBsiPull s) := by
  rw [pullBsi, h]

theorem pullBsi_free (h : s.io.bsi = []) :
    pullBsi s = .answer (Config.bsiAnswer s.io.bsiPulls) (countBsiPull s) := by
  rw [pullBsi, h]

/-- From `s` to `t` one pull on BSI was made, `rest` are the answers still held, and only the stream may differ. -/
def OnePull (rest : List PullAnswer) (s t : State) : Prop :=
  t.io.bsi = rest ∧ t.io.bsiPulls = s.io.bsiPulls + 1 ∧
    t.bb = s.bb ∧ t.ft = s.ft ∧ t.tb = s.tb ∧ SameSrc s t ∧ SameBso s t ∧ SameEmitted s t

/-- From `s` to `t` one push on BSO was offered, `rest` are the answers still held, and only the stream and `OUTB` may
differ. -/
def OnePush (rest : List PushAnswer) (s t : State) : Prop :=
  t.io.bso = rest ∧ t.io.bsoPushes = s.io.bsoPushes + 1 ∧
    t.bb = s.bb ∧ t.ft = s.ft ∧ t.tb = s.tb ∧ SameSrc s t ∧ SameBsi s t ∧ SameEmitted s t

theorem onePull_countBsiPull {rest : List PullAnswer} (h : s.io.bsi.tail = rest) (x y : BitStream) (e : ErrCode)
    (r : Word) : OnePull rest s (complete e r ((countBsiPull (s.withBs x)).withBs y)) :=
  ⟨h, rfl, rfl, rfl, rfl, ⟨rfl, rfl⟩, ⟨rfl, rfl, rfl⟩, rfl, rfl⟩

theorem onePush_countBsoPush {rest : List PushAnswer} (h : s.io.bso.tail = rest) (x : BitStream) (e : ErrCode)
    (r : Word) : OnePush rest s (complete e r (countBsoPush (s.withBs x))) :=
  ⟨h, rfl, rfl, rfl, rfl, ⟨rfl, rfl⟩, ⟨rfl, rfl⟩, rfl, rfl⟩

theorem onePush_deliver {rest : List PushAnswer} (h : s.io.bso.tail = rest) (x : BitStream) (v : Byte) (e : ErrCode)
    (r : Word) : OnePush rest s (complete e r (deliver v (countBsoPush (s.withBs x)))) :=
  ⟨h, rfl, rfl, rfl, rfl, ⟨rfl, rfl⟩, ⟨rfl, rfl⟩, rfl, rfl⟩

/-- The body of a command that pulls: a write of the stream, the pull, a write of the stream. -/
theorem bodyFrame_pull {i : Instr} (w : writesBs i = true) (p : pullsBsi i = true) (s : State) (x y : BitStream) :
    BodyFrame i s ((countBsiPull (s.withBs x)).withBs y) :=
  ((bodyFrame_withBs s x w).trans (bodyFrame_countBsiPull _ p)).trans (bodyFrame_withBs _ y w)

/-! ### BS_OPEN_R -/

theorem exec_bsOpenR_open (h : s.bs.isOpen = true) : exec .bsOpenR s = raise .invalidState 0 s := by
  rw [exec, execBsOpenR, if_pos h]

/-- An open for read whose pull is answered. -/
theorem ends_bsOpenR (ho : s.bs.isOpen = false) {r : Option Byte}
    (h : pullBsi (s.withBs (openRead s.bs)) = .answer r (countBsiPull (s.withBs (openRead s.bs)))) :
    Ends .bsOpenR s .ok 0
      (complete .ok 0 ((countBsiPull (s.withBs (openRead s.bs))).withBs (primeByte r (openRead s.bs)))) := by
  have he : exec .bsOpenR s =
      done 0 ((countBsiPull (s.withBs (openRead s.bs))).withBs (primeByte r (openRead s.bs))) := by
    rw [exec, execBsOpenR, if_neg (by simp [ho]), h]
    rfl
  exact ends_complete he (bodyFrame_pull rfl rfl s _ _)

theorem primeByte_byte_of_eos {r : Option Byte} {b : BitStream} (h : (primeByte r b).eos = true) :
    (primeByte r b).byte = 0 := by
  cases r with
  | none => rfl
  | some v => cases h

/-! ### BS_OPEN_W -/

theorem exec_bsOpenW_open (h : s.bs.isOpen = true) : exec .bsOpenW s = raise .invalidState 0 s := by
  rw [exec, execBsOpenW, if_pos h]

theorem exec_bsOpenW_closed (h : s.bs.isOpen = false) : exec .bsOpenW s =
    done 0 (s.withBs { isOpen := true, mode := .write, eos := false, off := 0, byte := 0 }) := by
  rw [exec, execBsOpenW, if_neg (by simp [h])]

/-! ### BS_READ_BIT -/

theorem readable_eq_false {b : BitStream} (h : b.isOpen = false ∨ b.mode = .write) : b.readable = false := by
  obtain h | h := h <;> simp [BitStream.readable, h]

theorem exec_bsReadBit_noStream (h : s.bs.isOpen = false ∨ s.bs.mode = .write) :
    exec .bsReadBit s = raise .invalidState 0 s := by
  rw [exec, execBsReadBit, if_pos (readable_eq_false h)]

theorem exec_bsReadBit_atEnd (ho : s.bs.isOpen = true) (hm : s.bs.mode = .read) (he : s.bs.eos = true) :
    exec .bsReadBit s = raise .endOfStream 0 s := by
  have hr : s.bs.readable = true := (readable_iff _).mpr ⟨ho, hm⟩
  rw [exec, execBsReadBit, if_neg (by simp [hr]), if_pos he]

/-- A read of the eighth bit whose pull is answered. -/
theorem ends_bsReadBit_last (ho : s.bs.isOpen = true) (hm : s.bs.mode = .read) (he : s.bs.eos = false)
    (h7 : s.bs.off = 7) {r : Option Byte}
    (h : pullBsi (s.withBs { s.bs with off := 0 }) = .answer r (countBsiPull (s.withBs { s.bs with off := 0 }))) :
    Ends .bsReadBit s .ok (if s.bs.byte.getLsbD 0 then 1 else 0)
      (complete .ok (if s.bs.byte.getLsbD 0 then 1 else 0)
        ((countBsiPull (s.withBs { s.bs with off := 0 })).withBs (nextByte r { s.bs with off := 0 }))) := by
  have hx := execBsReadBit_last ho hm he (congrArg BitVec.toNat h7)
  rw [h] at hx
  exact ends_complete hx (bodyFrame_pull rfl rfl s _ _)

theorem nextByte_some (v : Byte) (b : BitStream) : nextByte (some v) b = { b with byte := v } := by
  simp [nextByte]

theorem nextByte_none (b : BitStream) : nextByte none b = { b with eos := true } := by
  simp [nextByte]

theorem nextByte_byte_of_eos {r : Option Byte} {b : BitStream} (he : b.eos = false)
    (h : (nextByte r b).eos = true) : (nextByte r b).byte = b.byte := by
  cases r with
  | none => rfl
  | some v =>
    rw [nextByte_some] at h
    exact absurd h (by simp [he])

/-! ### BS_WRITE_BIT -/

theorem writable_eq_false {b : BitStream} (h : b.isOpen = false ∨ b.mode = .read) : b.writable = false := by
  obtain h | h := h <;> simp [BitStream.writable, h]

theorem exec_bsWriteBit_noStream (h : s.bs.isOpen = false ∨ s.bs.mode = .read) (bit : BitVec 32) :
    exec (.bsWriteBit bit) s = raise .invalidState 0 s := by
  rw [exec, execBsWriteBit, if_pos (writable_eq_false h)]

theorem exec_bsWriteBit_noBit (hw : s.bs.writable = true) {bit : BitVec 32} (h : 1 < bit.toNat) :
    exec (.bsWriteBit bit) s = raise .invalidBit 0 s := by
  rw [exec, execBsWriteBit, if_neg (by simp [hw]), bitOperand_none h]

theorem ends_writeBitOf_taken (hw : s.bs.writable = true) {b : Bit} (h : bsPut b s = .ok t) :
    Ends (writeBitOf b) s .ok 0 (complete .ok 0 t) := by
  have he : exec (writeBitOf b) s = done 0 t := by
    rw [writeBitOf, exec, execBsWriteBit, if_neg (by simp [hw]), bitOperand_ofBit]
    simp only [h]
  exact ends_complete he (bodyFrame_bsPut b s rfl rfl (.inl h))

theorem ends_writeBitOf_failed (hw : s.bs.writable = true) {b : Bit} (h : bsPut b s = .fail t) :
    Ends (writeBitOf b) s .writeError 0 (complete .writeError 0 t) := by
  have he : exec (writeBitOf b) s = raise .writeError 0 t := by
    rw [writeBitOf, exec, execBsWriteBit, if_neg (by simp [hw]), bitOperand_ofBit]
    simp only [h]
  exact ends_complete he (bodyFrame_bsPut b s rfl rfl (.inr (.inl h)))

/-- A put at offset 7 whose answer the state does not hold is taken or fails. -/
theorem bsPut_full_free {b : Bit} (h7 : s.bs.off.toNat = 7) (h : s.io.bso = []) :
    bsPut b s = .ok (deliver (fullStream b s.bs).byte (countBsoPush (s.withBs (fullStream b s.bs)))) ∨
      bsPut b s = .fail (countBsoPush (s.withBs (fullStream b s.bs))) := by
  rw [bsPut_full h7]
  obtain hok | hfail | ⟨-, rest, hnever⟩ :=
    pushBso_cases (fullStream b s.bs).byte (s.withBs (fullStream b s.bs))
  · exact .inl hok
  · exact .inr hfail
  · cases h.symm.trans hnever

theorem getLsbD_putStream (bit : Bit) (b : BitStream) (i : Nat) (hi : i < 8) :
    (putStream bit b).byte.getLsbD i = if i = 7 - b.off.toNat then bit else b.byte.getLsbD i :=
  getLsbD_putBit b.byte (streamBit_lt b.off) bit hi

theorem getLsbD_fullStream {b : BitStream} (h7 : b.off = 7) (bit : Bit) (i : Nat) (hi : i < 8) :
    (fullStream bit b).byte.getLsbD i = if i = 0 then bit else b.byte.getLsbD i := by
  have h0 : streamBit b.off = 0 := by rw [h7]; rfl
  rw [fullStream, h0]
  exact getLsbD_putBit b.byte (by decide) bit hi

/-! ### BS_AT_END -/

theorem exec_bsAtEnd_closed (h : s.bs.isOpen = false) : exec .bsAtEnd s = raise .invalidState 0 s := by
  rw [exec, execBsAtEnd, if_pos h]

/-- The answer of `BS_AT_END` as one condition. -/
theorem atEndFlag_eq (b : BitStream) : atEndFlag b = if b.mode = .read ∧ b.eos = true then 1 else 0 := by
  unfold atEndFlag
  split
  next hm => simp [hm]
  next hm => rw [readBit_word]; simp [hm]

theorem exec_bsAtEnd_open (h : s.bs.isOpen = true) :
    exec .bsAtEnd s = done (if s.bs.mode = .read ∧ s.bs.eos = true then 1 else 0) s := by
  rw [exec, execBsAtEnd, if_neg (by simp [h]), atEndFlag_eq]

/-! ### BS_CLOSE -/

theorem exec_bsClose_open (h : s.bs.isOpen = true) : exec .bsClose s = done 0 (s.withBs closedStream) := by
  rw [exec, execBsClose, if_pos h]

theorem exec_bsClose_closed (h : s.bs.isOpen = false) : exec .bsClose s = done 0 s := by
  rw [exec, execBsClose, if_neg (by simp [h])]

end Sys2Proof.Machine

namespace Sys2Proof.Proofs

open Sys2Proof.Machine

/-- Settles O24: every answer of the one pull, held or free, primes the stream by `primeByte`. -/
theorem openReadPrimesFirstByte : Obligations.OpenReadPrimesFirstByte := by
  intro s
  refine ⟨decode_of_encode Laws.OpcodeRow.bsOpenR rfl rfl,
    fun ho => failsClean_raise (exec_bsOpenR_open ho), fun ho => ⟨fun v rest h => ?_, fun rest h => ?_, fun h => ?_⟩⟩
  · exact ⟨_, ends_bsOpenR ho (pullBsi_data h), rfl, onePull_countBsiPull (by rw [h]; rfl) _ _ _ _⟩
  · exact ⟨_, ends_bsOpenR ho (pullBsi_noMore h), rfl, onePull_countBsiPull (by rw [h]; rfl) _ _ _ _⟩
  · exact ⟨_, ends_bsOpenR ho (pullBsi_free h), rfl, rfl, rfl, primeByte_byte_of_eos,
      onePull_countBsiPull (by rw [h]; rfl) _ _ _ _⟩

/-- Settles O26: below offset 7 only the offset moves; at 7 every answer of the one pull gives the stream of
`nextByte`. -/
theorem readBitReturnsStreamBit : Obligations.ReadBitReturnsStreamBit := by
  intro s
  refine ⟨decode_of_encode Laws.OpcodeRow.bsReadBit rfl rfl,
    fun h => failsClean_raise (exec_bsReadBit_noStream h),
    fun ho hm he => failsClean_raise (exec_bsReadBit_atEnd ho hm he),
    fun ho hm he => ⟨fun h => ?_, fun h7 v rest h => ?_, fun h7 rest h => ?_, fun h7 h => ?_⟩⟩
  · exact ⟨_, ends_complete (execBsReadBit_below ho hm he h) (bodyFrame_withBs _ _ rfl), rfl, rfl, rfl, rfl,
      .of_io rfl _ _⟩
  · exact ⟨_, ends_bsReadBit_last ho hm he h7 (pullBsi_data h), nextByte_some v _,
      onePull_countBsiPull (by rw [h]; rfl) _ _ _ _⟩
  · exact ⟨_, ends_bsReadBit_last ho hm he h7 (pullBsi_noMore h), nextByte_none _,
      onePull_countBsiPull (by rw [h]; rfl) _ _ _ _⟩
  · exact ⟨_, ends_bsReadBit_last ho hm he h7 (pullBsi_free h), ho, hm, rfl, nextByte_byte_of_eos he,
      onePull_countBsiPull (by rw [h]; rfl) _ _ _ _⟩

/-- Settles O27: after the two checks the outcome is that of the put, which writes one position of the byte and at
offset 7 offers the byte once. -/
theorem writeBitSetsOnePosition : Obligations.WriteBitSetsOnePosition := by
  intro s b
  refine ⟨fun bit => decode_of_encode (Laws.OpcodeRow.bsWriteBit bit) rfl rfl,
    fun h bit => failsClean_raise (exec_bsWriteBit_noStream h bit),
    fun ho hm _ h => failsClean_raise (exec_bsWriteBit_noBit ((writable_iff _).mpr ⟨ho, hm⟩) h), fun ho hm => ?_⟩
  have hw : s.bs.writable = true := (writable_iff _).mpr ⟨ho, hm⟩
  refine ⟨fun h => ?_, fun h7 rest h => ?_, fun h7 rest h => ?_, fun h7 h => ?_⟩
  · exact ⟨_, ends_writeBitOf_taken hw (bsPut_below h), rfl, getLsbD_putStream b s.bs, ho, hm, rfl, rfl, rfl, rfl,
      .of_io rfl _ _⟩
  · exact ⟨_, ends_writeBitOf_taken hw (bsPut_full_ok (congrArg BitVec.toNat h7) h), rfl, getLsbD_fullStream h7 b,
      ho, hm, rfl, rfl, onePush_deliver (by rw [h]; rfl) _ _ _ _⟩
  · exact ⟨_, ends_writeBitOf_failed hw (bsPut_full_fail (congrArg BitVec.toNat h7) h), rfl, getLsbD_fullStream h7 b,
      ho, hm, rfl, rfl, onePush_countBsoPush (by rw [h]; rfl) _ _ _⟩
  · obtain hok | hfail := bsPut_full_free (b := b) (congrArg BitVec.toNat h7) h
    · exact ⟨_, .ok, ends_writeBitOf_taken hw hok, rfl, getLsbD_fullStream h7 b, ho, hm, rfl, .inl ⟨rfl, rfl⟩,
        onePush_deliver (by rw [h]; rfl) _ _ _ _⟩
    · exact ⟨_, .writeError, ends_writeBitOf_failed hw hfail, rfl, getLsbD_fullStream h7 b, ho, hm, rfl,
        .inr ⟨rfl, rfl⟩, onePush_countBsoPush (by rw [h]; rfl) _ _ _⟩

/-- Settles O25: `BS.OPEN` decides between the error and the fresh stream. -/
theorem openWriteStartsEmptyByte : Obligations.OpenWriteStartsEmptyByte := by
  intro s
  exact ⟨decode_of_encode Laws.OpcodeRow.bsOpenW rfl rfl, fun ho => failsClean_raise (exec_bsOpenW_open ho),
    fun ho => ⟨_, ends_complete (exec_bsOpenW_closed ho) (bodyFrame_withBs _ _ rfl), rfl, rfl, rfl, rfl,
      .of_io rfl _ _⟩⟩

/-- Settles O30: with an open stream the command only answers, by `atEndFlag_eq`. -/
theorem atEndAnswersEndOfStream : Obligations.AtEndAnswersEndOfStream := by
  intro s
  exact ⟨decode_of_encode Laws.OpcodeRow.bsAtEnd rfl rfl, fun ho => failsClean_raise (exec_bsAtEnd_closed ho),
    fun ho => ⟨_, ends_complete (exec_bsAtEnd_open ho) (.refl _ s), ⟨rfl, rfl, rfl, rfl⟩, .of_io rfl _ _⟩⟩

/-- Settles O31: `BS.OPEN` decides whether the stream is cleared; the command succeeds either way. -/
theorem closeClearsStream : Obligations.CloseClearsStream := by
  intro s
  refine ⟨decode_of_encode Laws.OpcodeRow.bsClose rfl rfl, ?_⟩
  cases ho : s.bs.isOpen with
  | true =>
    exact ⟨_, ends_complete (exec_bsClose_open ho) (bodyFrame_withBs _ _ rfl), fun _ => rfl, nofun, rfl, rfl, rfl,
      .of_io rfl _ _⟩
  | false =>
    exact ⟨_, ends_complete (exec_bsClose_closed ho) (.refl _ s), nofun, fun _ => rfl, rfl, rfl, rfl,
      .of_io rfl _ _⟩

end Sys2Proof.Proofs
end

section
/-! The frequency table's commands but for FT_SCAN: what each does case by case (42_freqtable.md R161, R162, R164 to
R166), and the statements about them. -/

namespace Sys2Proof.Machine

variable {s : State} {sym : BitVec 24} {c : Count}

/-! ### The increment primitive -/

theorem eq_cntMax_iff : c = cntMax ↔ c.toNat = 4294967295 := BitVec.toNat_inj.symm

theorem ftBump_counted {ft : FreqTable} {i : Nat} (hi : i < ft.asize.val) (hm : memRead ft.counts i = some c)
    (hc : c ≠ cntMax) : ftBump ft i = .counted (c + 1) (ftWrite ft i (c + 1)) := by
  rw [ftBump, ftRead_some hi hm]
  exact if_neg hc

theorem ftBump_overflow {ft : FreqTable} {i : Nat} (hi : i < ft.asize.val) (hm : memRead ft.counts i = some cntMax) :
    ftBump ft i = .overflow := by
  rw [ftBump, ftRead_some hi hm]
  exact if_pos rfl

theorem count_succ_eq_ofNat (c : Count) : c + 1 = BitVec.ofNat 32 (c.toNat + 1) := by
  rw [BitVec.ofNat_add, BitVec.ofNat_toNat, BitVec.setWidth_eq]
  rfl

/-- The result of an increment is the new count, which has not wrapped. -/
theorem setWidth_count_succ (hc : c ≠ cntMax) : (c + 1).setWidth 64 = BitVec.ofNat 64 (c.toNat + 1) := by
  apply BitVec.eq_of_toNat_eq
  rw [BitVec.toNat_setWidth, toNat_count_succ hc, BitVec.toNat_ofNat]

/-! ### FT_CREATE -/

theorem exec_ftCreate_tooLarge {size : BitVec 24} (h : 256 < size.toNat) :
    exec (.ftCreate size) s = raise .alloc 0 s := by
  rw [exec, execFtCreate, sizeOperand_none h]

theorem exec_ftCreate_of_sizeOperand {size : BitVec 24} {n : Fin 257} (h : sizeOperand size = some n) :
    exec (.ftCreate size) s =
      done 0 (s.withFt { valid := true, asize := n, counts := memFill s.ft.counts n.val 0 }) := by
  rw [exec, execFtCreate, h]

/-! ### FT_INC -/

theorem exec_ftInc_noTable (hv : s.ft.valid = false) (sym : BitVec 24) :
    exec (.ftInc sym) s = raise .invalidState 0 s := by
  rw [exec, execFtInc, if_pos hv]

theorem exec_ftInc_noSymbol (hv : s.ft.valid = true) (h : s.ft.asize.val ≤ sym.toNat) :
    exec (.ftInc sym) s = raise .invalidArg 0 s := by
  rw [exec, execFtInc, if_neg (by simp [hv]), symbolOperand_none h]

theorem exec_ftInc_overflow (hv : s.ft.valid = true) (hs : sym.toNat < s.ft.asize.val)
    (hm : memRead s.ft.counts sym.toNat = some cntMax) : exec (.ftInc sym) s = raise .overflow 0 s := by
  simp only [exec, execFtInc, hv, symbolOperand_some hs, ftBump_overflow hs hm, Bool.true_eq_false, if_false]

theorem exec_ftInc_counted (hv : s.ft.valid = true) (hs : sym.toNat < s.ft.asize.val)
    (hm : memRead s.ft.counts sym.toNat = some c) (hc : c ≠ cntMax) :
    exec (.ftInc sym) s =
      done (BitVec.ofNat 64 (c.toNat + 1)) (s.withFt (ftWrite s.ft sym.toNat (BitVec.ofNat 32 (c.toNat + 1)))) := by
  rw [← setWidth_count_succ hc, ← count_succ_eq_ofNat]
  simp only [exec, execFtInc, hv, symbolOperand_some hs, ftBump_counted hs hm hc, Bool.true_eq_false, if_false]

/-! ### FT_SET -/

theorem exec_ftSet_noTable (hv : s.ft.valid = false) (sym : BitVec 24) (c : Count) :
    exec (.ftSet sym c) s = raise .invalidState 0 s := by
  rw [exec, execFtSet, if_pos hv]

theorem exec_ftSet_noSymbol (hv : s.ft.valid = true) (h : s.ft.asize.val ≤ sym.toNat) (c : Count) :
    exec (.ftSet sym c) s = raise .invalidArg 0 s := by
  rw [exec, execFtSet, if_neg (by simp [hv]), symbolOperand_none h]

theorem exec_ftSet_symbol (hv : s.ft.valid = true) (hs : sym.toNat < s.ft.asize.val) (c : Count) :
    exec (.ftSet sym c) s = done (c.setWidth 64) (s.withFt (ftWrite s.ft sym.toNat c)) := by
  rw [exec, execFtSet, if_neg (by simp [hv]), symbolOperand_some hs]

/-! ### FT_GET -/

theorem exec_ftGet_noTable (hv : s.ft.valid = false) (sym : BitVec 24) :
    exec (.ftGet sym) s = raise .invalidState 0 s := by
  rw [exec, execFtGet, if_pos hv]

theorem exec_ftGet_noSymbol (hv : s.ft.valid = true) (h : s.ft.asize.val ≤ sym.toNat) :
    exec (.ftGet sym) s = raise .invalidArg 0 s := by
  rw [exec, execFtGet, if_neg (by simp [hv]), symbolOperand_none h]

theorem exec_ftGet_count (hv : s.ft.valid = true) (hs : sym.toNat < s.ft.asize.val)
    (hm : memRead s.ft.counts sym.toNat = some c) : exec (.ftGet sym) s = done (c.setWidth 64) s := by
  simp only [exec, execFtGet, hv, symbolOperand_some hs, ftRead_some hs hm, Bool.true_eq_false, if_false]

end Sys2Proof.Machine

namespace Sys2Proof.Proofs

open Sys2Proof.Machine

/-- Settles O34: the size operand decides between the error and the table filled with 0 below the size. -/
theorem ftCreateZeroesEntries : Obligations.FtCreateZeroesEntries := by
  intro s size
  refine ⟨decode_of_encode (Laws.OpcodeRow.ftCreate size) rfl rfl,
    fun h => failsClean_raise (exec_ftCreate_tooLarge h), fun h => ?_⟩
  obtain ⟨n, hn, hsize⟩ := sizeOperand_some h
  have hentries (i : Nat) : memRead (memFill s.ft.counts n.val 0) i =
      if i < size.toNat then some 0 else memRead s.ft.counts i := by
    rw [memRead_memFill, hsize]
  exact ⟨_, ends_complete (exec_ftCreate_of_sizeOperand hn) (bodyFrame_withFt _ _ rfl), rfl, hsize, hentries,
    rfl, rfl, rfl, .of_io rfl _ _⟩

/-- Settles O35: after the two checks the outcome is that of the increment primitive, which the largest count alone
overflows. -/
theorem ftIncAddsOne : Obligations.FtIncAddsOne := by
  intro s sym c
  refine ⟨decode_of_encode (Laws.OpcodeRow.ftInc sym) rfl rfl,
    fun hv => failsClean_raise (exec_ftInc_noTable hv sym),
    fun hv h => failsClean_raise (exec_ftInc_noSymbol hv h), fun hv hs hm hc => ?_, fun hv hs hm hc => ?_⟩
  · obtain rfl := eq_cntMax_iff.mpr hc
    exact failsClean_raise (exec_ftInc_overflow hv hs hm)
  · have hne : c ≠ cntMax := fun e => Nat.ne_of_lt hc (eq_cntMax_iff.mp e)
    exact ⟨_, ends_complete (exec_ftInc_counted hv hs hm hne) (bodyFrame_withFt _ _ rfl), hv, rfl,
      memRead_ftWrite _ _ _, rfl, rfl, rfl, .of_io rfl _ _⟩

/-- Settles O36: after the two checks the command completes with the entry written, whatever the count. -/
theorem ftSetWritesCount : Obligations.FtSetWritesCount := by
  intro s sym c
  exact ⟨decode_of_encode (Laws.OpcodeRow.ftSet sym c) rfl rfl,
    fun hv => failsClean_raise (exec_ftSet_noTable hv sym c),
    fun hv h => failsClean_raise (exec_ftSet_noSymbol hv h c),
    fun hv hs => ⟨_, ends_complete (exec_ftSet_symbol hv hs c) (bodyFrame_withFt _ _ rfl), hv, rfl,
      memRead_ftWrite _ _ _, rfl, rfl, rfl, .of_io rfl _ _⟩⟩

/-- Settles O37: after the two checks the command only answers the count. -/
theorem ftGetAnswersCount : Obligations.FtGetAnswersCount := by
  intro s sym c
  exact ⟨decode_of_encode (Laws.OpcodeRow.ftGet sym) rfl rfl,
    fun hv => failsClean_raise (exec_ftGet_noTable hv sym),
    fun hv h => failsClean_raise (exec_ftGet_noSymbol hv h),
    fun hv hs hm => ⟨_, ends_complete (exec_ftGet_count hv hs hm) (.refl _ s), ⟨rfl, rfl, rfl, rfl⟩,
      .of_io rfl _ _⟩⟩

end Sys2Proof.Proofs
end

section
/-! TB_NODE: what it does case by case and the fields it reads (43_treebuilder.md R195), and the statement about it. -/

namespace Sys2Proof.Machine

variable {s : State} {tb : TreeBuilder} {idx : BitVec 24} {fsel : BitVec 32} {n : Node}

/-! ### The operands -/

theorem fselOk_of_le_three (h : fsel.toNat ≤ 3) : fselOk fsel = true := decide_eq_true h

theorem nodeOperand_none (h : tb.nalloc.toNat ≤ idx.toNat) : nodeOperand tb idx = none := by
  rw [nodeOperand, if_pos h]

/-- The operand of an allocated node loses nothing when it is cut to the width of an index. -/
theorem nodeOperand_some (h : idx.toNat < tb.nalloc.toNat) :
    ∃ i, nodeOperand tb idx = some i ∧ i.toNat = idx.toNat := by
  refine ⟨idx.setWidth 9, by rw [nodeOperand, if_neg (by omega)], ?_⟩
  rw [BitVec.toNat_setWidth, Nat.mod_eq_of_lt (h.trans tb.nalloc.isLt)]

/-! ### The fields, the sentinel and NONE zero-extended like any other value -/

theorem nodeField_sym (n : Node) : nodeField n 0 = BitVec.ofNat 64 n.sym.toNat := (BitVec.ofNat_toNat 64 n.sym).symm

theorem nodeField_wt (n : Node) : nodeField n 1 = BitVec.ofNat 64 n.wt.toNat := (BitVec.ofNat_toNat 64 n.wt).symm

theorem nodeField_left (n : Node) : nodeField n 2 = BitVec.ofNat 64 n.left.toNat := (BitVec.ofNat_toNat 64 n.left).symm

theorem nodeField_right (n : Node) : nodeField n 3 = BitVec.ofNat 64 n.right.toNat :=
  (BitVec.ofNat_toNat 64 n.right).symm

/-! ### TB_NODE -/

theorem exec_tbNode_noNode (hf : fsel.toNat ≤ 3) (h : s.tb.nalloc.toNat ≤ idx.toNat) :
    exec (.tbNode idx fsel) s = raise .invalidArg 0 s := by
  rw [exec, execTbNode, if_neg (by simp [fselOk_of_le_three hf]), nodeOperand_none h]

theorem exec_tbNode_field (hf : fsel.toNat ≤ 3) (h : idx.toNat < s.tb.nalloc.toNat)
    (hm : memRead s.tb.nm idx.toNat = some n) : exec (.tbNode idx fsel) s = done (nodeField n fsel) s := by
  obtain ⟨i, hi, hidx⟩ := nodeOperand_some h
  have hn : nodeAt s.tb i = .ok n := nodeAt_ok.mpr (hidx ▸ ⟨h, hm⟩)
  simp only [exec, execTbNode, fselOk_of_le_three hf, hi, hn, Bool.true_eq_false, if_false]

/-- A read of an allocated node only answers. -/
theorem ends_tbNode {r : Word} (hf : fsel.toNat ≤ 3) (h : idx.toNat < s.tb.nalloc.toNat)
    (hm : memRead s.tb.nm idx.toNat = some n) (hr : nodeField n fsel = r) :
    ∃ t, Ends (.tbNode idx fsel) s .ok r t ∧ SameUnits s t ∧ SameChannels s t :=
  hr ▸ ⟨_, ends_complete (exec_tbNode_field hf h hm) (.refl _ s), ⟨rfl, rfl, rfl, rfl⟩, .of_io rfl _ _⟩

end Sys2Proof.Machine

namespace Sys2Proof.Proofs

open Sys2Proof.Machine

/-- Settles O48: `TB.NALLOC` decides between the error and the read of the node, whose fields are zero-extended. -/
theorem tbNodeReadsField : Obligations.TbNodeReadsField := by
  intro s idx n
  refine ⟨fun fsel hf => ⟨decode_of_encode (Laws.OpcodeRow.tbNode idx fsel) rfl (fselOk_of_le_three hf),
    fun h => failsClean_raise (exec_tbNode_noNode hf h)⟩, fun h hm => ⟨?_, ?_, ?_, ?_⟩⟩
  · exact ends_tbNode (by decide) h hm (nodeField_sym n)
  · exact ends_tbNode (by decide) h hm (nodeField_wt n)
  · exact ends_tbNode (by decide) h hm (nodeField_left n)
  · exact ends_tbNode (by decide) h hm (nodeField_right n)

end Sys2Proof.Proofs
end

section
/-! The commands issued too early or in the wrong mode (70_reset_and_hazards.md R262): the checks of BS_WRITE_BUF,
FT_SCAN, TB_BUILD and TB_EXTRACT, the extraction without a tree, and the statement about all of them. -/

namespace Sys2Proof.Machine

variable {s : State}

/-! ### BS_WRITE_BUF -/

theorem exec_bsWriteBuf_noStream (h : s.bs.isOpen = false ∨ s.bs.mode = .read) :
    exec .bsWriteBuf s = raise .invalidState 0 s := by
  rw [exec, execBsWriteBuf, if_pos (writable_eq_false h)]

/-- Without a buffer the stream does not matter: both checks raise the same code. -/
theorem exec_bsWriteBuf_noBuffer (hv : s.bb.valid = false) : exec .bsWriteBuf s = raise .invalidState 0 s := by
  rw [exec, execBsWriteBuf, if_pos hv, ite_self]

/-! ### FT_SCAN -/

theorem exec_ftScan_noTable (hv : s.ft.valid = false) : exec .ftScan s = raise .invalidState 0 s := by
  rw [exec, execFtScan, if_pos hv]

/-! ### TB_BUILD -/

theorem exec_tbBuild_noTable (hv : s.ft.valid = false) : exec .tbBuild s = raise .invalidState 0 s := by
  rw [exec, execTbBuild, if_pos hv]

/-! ### TB_EXTRACT -/

theorem exec_tbExtract_noBuffer (hv : s.bb.valid = false) : exec .tbExtract s = raise .invalidState 0 s := by
  rw [exec, execTbExtract, if_pos hv]

theorem exec_tbExtract_noTree (hv : s.bb.valid = true) (hr : s.tb.rootValid = false) :
    exec .tbExtract s = done 0 (s.withBb (emptied s.params s.bb)) := by
  rw [exec, execTbExtract, if_neg (by simp [hv]), if_pos hr]

end Sys2Proof.Machine

namespace Sys2Proof.Proofs

open Sys2Proof.Machine

/-- Settles O15: every command checks its unit before it does anything, so it raises in the state it was issued in; an
extraction without a tree only empties the buffer. -/
theorem commandTooEarlyFails : Obligations.CommandTooEarlyFails := by
  intro s
  refine ⟨fun hv => ?noBuffer, fun hv hr => ?noTree, fun hv => ?noTable,
    fun _ _ hf h => failsClean_raise (exec_tbNode_noNode hf h),
    fun h => failsClean_raise (exec_bsReadBit_noStream h),
    fun h => ⟨fun bit => failsClean_raise (exec_bsWriteBit_noStream h bit),
      failsClean_raise (exec_bsWriteBuf_noStream h)⟩,
    fun ho => failsClean_raise (exec_bsAtEnd_closed ho),
    fun ho => ⟨failsClean_raise (exec_bsOpenR_open ho), failsClean_raise (exec_bsOpenW_open ho)⟩⟩
  case noBuffer =>
    exact ⟨fun bit => failsClean_raise (exec_bbAppend_noBuffer hv bit), failsClean_raise (exec_bbPop_noBuffer hv),
      fun _ n hst => failsClean_raise (exec_bbRender_noBuffer hst hv n),
      failsClean_raise (exec_bsWriteBuf_noBuffer hv), failsClean_raise (exec_tbExtract_noBuffer hv)⟩
  case noTree =>
    exact ⟨_, ends_complete (exec_tbExtract_noTree hv hr) (bodyFrame_withBb _ _ rfl), rfl, rfl, rfl, .of_io rfl _ _⟩
  case noTable =>
    exact ⟨failsClean_raise (exec_ftScan_noTable hv), fun sym => failsClean_raise (exec_ftInc_noTable hv sym),
      fun sym c => failsClean_raise (exec_ftSet_noTable hv sym c),
      fun sym => failsClean_raise (exec_ftGet_noTable hv sym), failsClean_raise (exec_tbBuild_noTable hv)⟩

end Sys2Proof.Proofs
end

section
/-! The encoding (30_encoding.md R94, R98, R100): every command is the decoding of its word, every word that decodes
is the word of its command, and the rows of the opcode map exclude each other. -/

namespace Sys2Proof

/-- Every command stands in the opcode map (30_encoding.md R94). -/
theorem opcodeRow (i : Instr) : Laws.OpcodeRow.Statement i := by
  cases i with
  | bbCreate cap => exact Laws.OpcodeRow.bbCreate cap
  | bbAppend bit => exact Laws.OpcodeRow.bbAppend bit
  | bbPop => exact Laws.OpcodeRow.bbPop
  | bbRender st n => exact Laws.OpcodeRow.bbRender st n
  | bsOpenR => exact Laws.OpcodeRow.bsOpenR
  | bsOpenW => exact Laws.OpcodeRow.bsOpenW
  | bsReadBit => exact Laws.OpcodeRow.bsReadBit
  | bsWriteBit bit => exact Laws.OpcodeRow.bsWriteBit bit
  | bsWriteBuf => exact Laws.OpcodeRow.bsWriteBuf
  | bsAtEnd => exact Laws.OpcodeRow.bsAtEnd
  | bsClose => exact Laws.OpcodeRow.bsClose
  | ftCreate size => exact Laws.OpcodeRow.ftCreate size
  | ftScan => exact Laws.OpcodeRow.ftScan
  | ftInc sym => exact Laws.OpcodeRow.ftInc sym
  | ftSet sym c => exact Laws.OpcodeRow.ftSet sym c
  | ftGet sym => exact Laws.OpcodeRow.ftGet sym
  | tbBuild => exact Laws.OpcodeRow.tbBuild
  | tbExtract => exact Laws.OpcodeRow.tbExtract
  | tbNode idx fsel => exact Laws.OpcodeRow.tbNode idx fsel

theorem decode_encode {i : Instr} (wf : i.wellFormed = true) : decode (encode i) = .ok i :=
  decode_of_encode (opcodeRow i) rfl wf

/-- What a word that decodes has passed: its opcode selects a row, whose mask it matches and which makes the command of
its operand fields. -/
theorem row_of_decode {w : Word} {i : Instr} (h : decode w = .ok i) :
    ∃ r, rowOf (opField w) = some r ∧ w &&& r.mask = r.matchBits ∧ i = r.build (aField w) (bField w) := by
  cases hrow : rowOf (opField w) with
  | none => rw [decode_of_no_row hrow] at h; cases h
  | some r =>
    rw [decode_of_row hrow] at h
    split at h <;> cases h
    exact ⟨r, rfl, by assumption, rfl⟩

/-- The operands that a row's mask admits are all in the command: the fields the row's format reserves are 0
(30_encoding.md R91). -/
theorem encode_build : ∀ r ∈ opcodeMap, ∀ (a : BitVec 24) (b : BitVec 32),
    mkWord r.op a b &&& r.mask = mkWord r.op 0 0 → encode (r.build a b) = mkWord r.op a b := by
  simp only [opcodeMap, List.forall_mem_cons, maskZ_eq, maskA_eq, maskB_eq, maskAB_eq, maskR_eq, maskN_eq, mkWord_and,
    mkWord_inj, encode]
  simp +contextual

theorem encode_of_decode {w : Word} {i : Instr} (h : decode w = .ok i) : encode i = w := by
  obtain ⟨r, hrow, hmask, rfl⟩ := row_of_decode h
  obtain ⟨hr, hop⟩ := rowOf_mem hrow
  have hw : mkWord r.op (aField w) (bField w) = w := hop ▸ mkWord_fields w
  rw [encode_build r hr _ _ (by rw [hw, hmask, matchBits_eq r hr]), hw]

theorem wellFormed_of_decode {w : Word} {i : Instr} (h : decode w = .ok i) : i.wellFormed = true := by
  obtain ⟨r, hrow, hmask, -⟩ := row_of_decode h
  obtain ⟨q, hq, -, hop, hwf, -⟩ := opcodeRow i
  rw [encode_of_decode h] at hop hwf
  obtain rfl : r = q := Option.some.inj (hrow.symm.trans (hop ▸ rowOf_op q hq))
  exact hwf.mp hmask

/-- A word matches no other row than that of its opcode (30_encoding.md R100). -/
theorem rowOf_of_match {w : Word} {r : OpRow} (hr : r ∈ opcodeMap) (h : w &&& r.mask = r.matchBits) :
    rowOf (opField w) = some r := by
  rw [opField_of_match hr h, rowOf_op r hr]

end Sys2Proof

namespace Sys2Proof.Proofs

/-- Settles O2: the word of a command matches the row of its mnemonic, which makes the command again. -/
theorem decodeEncodeRoundTrip : Obligations.DecodeEncodeRoundTrip :=
  fun _ wf => decode_encode wf

/-- Settles O3: the mask that let the word pass leaves no bit outside the operands of its command. -/
theorem decodedWordIsItsEncoding : Obligations.DecodedWordIsItsEncoding :=
  fun _ _ h => ⟨encode_of_decode h, wellFormed_of_decode h⟩

/-- Settles O5: the opcode of a word that matches a row selects that row. -/
theorem atMostOneRowMatches : Obligations.AtMostOneRowMatches := by
  intro w r q hr hq hmr hmq
  obtain rfl : r = q := Option.some.inj ((rowOf_of_match hr hmr).symm.trans (rowOf_of_match hq hmq))
  exact ⟨rfl, rfl⟩

/-- Settles O1: each of the words is the word of its command. -/
theorem specWordsDecode : Obligations.SpecWordsDecode := by
  have key {w : Word} {i : Instr} (hw : encode i = w) (wf : i.wellFormed = true) : decode w = .ok i :=
    decode_of_encode (opcodeRow i) hw wf
  refine ⟨key ?_ rfl, key ?_ rfl, key ?_ rfl, key ?_ rfl, key ?_ rfl, key ?_ rfl, key ?_ rfl, key ?_ rfl, key ?_ rfl,
    key ?_ rfl, key ?_ rfl, key ?_ rfl, key ?_ rfl, key ?_ rfl, key ?_ rfl, key ?_ rfl, key ?_ rfl, key ?_ rfl,
    key ?_ rfl⟩
  all_goals rfl

end Sys2Proof.Proofs
end

section
/-! The step with each event of the port (10_state.md R21, 70_reset_and_hazards.md R260), the state after reset
(10_state.md R52), and the commands with an operand no word admits. -/

namespace Sys2Proof.Machine

variable {s : State} {w : Word} {rest : List PortEvent}

theorem nextEvent_of_port {e : PortEvent} (hp : s.io.port = e :: rest) : nextEvent s = some (e, passed rest s) := by
  rw [nextEvent, hp, passed]

/-- The step runs a presented command (30_encoding.md R102). -/
theorem step_of_decode_ok {i : Instr} (hp : s.io.port = .command w :: rest) (hb : s.busy = false)
    (hd : decode w = .ok i) : step s = exec i (passed rest s) := by
  rw [step, nextEvent_of_port hp]
  simp only [passed, withIo_busy, hb, hd, Bool.false_eq_true, if_false]

theorem step_of_busy (hp : s.io.port = .command w :: rest) (hb : s.busy = true) :
    step s = .next (passed rest s) := by
  rw [step, nextEvent_of_port hp]
  exact if_pos hb

theorem step_of_reset (hp : s.io.port = .reset :: rest) : step s = .next (applyReset (passed rest s)) := by
  rw [step, nextEvent_of_port hp]

/-- A reset state meets every invariant, whatever the parameters and the ports are. -/
theorem inv_resetWith (p : Params) (io : Ports) : (State.resetWith p io).Inv := by
  refine ⟨?_, ?_, ?_, treeInv_reset p rfl rfl rfl rfl, ?_, memoryWf_resetWith p io, rfl⟩
  · exact ⟨Nat.zero_le _, Nat.zero_le _, fun i _ => bitRead_nil i⟩
  · exact ⟨nofun, fun _ => ⟨rfl, rfl, rfl, rfl⟩⟩
  · exact fun i hi => absurd hi (Nat.not_lt_zero i)
  · exact responseInv_applyReset (State.resetWith p io)

/-- Only `st` and `fsel` have values that make a command ill-formed, and both are tested before anything else. -/
theorem exec_illFormed {i : Instr} (h : i.wellFormed = false) (s : State) : exec i s = raise .illegalCmd 0 s := by
  cases i with
  | bbRender st n => rw [exec, execBbRender, if_pos (show stOk st = false from h), illegal]
  | tbNode idx fsel => rw [exec, execTbNode, if_pos (show fselOk fsel = false from h), illegal]
  | _ => cases h

end Sys2Proof.Machine

namespace Sys2Proof.Proofs

open Sys2Proof.Machine

/-- Settles O6: the block is free and the word decodes, so the step runs the command. -/
theorem stepRunsDecodedCommand : Obligations.StepRunsDecodedCommand :=
  fun _ _ _ _ hp hb hd => step_of_decode_ok hp hb hd

/-- Settles O8: with the flag set the word is passed over. -/
theorem busyBlockIgnoresCommand : Obligations.BusyBlockIgnoresCommand :=
  fun _ _ _ hp hb => step_of_busy hp hb

/-- Settles O9: the step is the reset of the state with the event taken from the port, in which every register has its
listed value and every array is empty. -/
theorem resetInputRestoresState : Obligations.ResetInputRestoresState := by
  intro s rest hp
  exact ⟨_, step_of_reset hp, rfl, rfl, rfl, bitRead_nil, rfl, rfl, rfl, rfl, rfl, rfl, rfl, memRead_nil, rfl, rfl, rfl,
    rfl, memRead_nil, memRead_nil, rfl, rfl, rfl, rfl, rfl, rfl,
    ⟨⟨rfl, rfl⟩, ⟨rfl, rfl⟩, ⟨rfl, rfl, rfl⟩, rfl, rfl⟩, rfl, rfl⟩

/-- Settles O58: the state after reset is a reset state with the default parameters. -/
theorem resetMeetsInvariants : Obligations.ResetMeetsInvariants :=
  inv_resetWith {} Ports.idle

/-- Settles O13: an ill-formed command raises in the state it was issued in. -/
theorem illFormedCommandIsIllegal : Obligations.IllFormedCommandIsIllegal :=
  fun _ s h => failsClean_raise (exec_illFormed h s)

end Sys2Proof.Proofs
end

section
/-! What `exec_shape` says of every command: how it ends, with which codes, and which units and channels it touches
(60_exceptions.md R232, R233; 10_state.md section 6; 20_memory.md R70 to R74, R80). -/

namespace Sys2Proof.Machine

variable {i : Instr} {s t : State}

theorem errCode_code_inj {e f : ErrCode} (h : e.code = f.code) : e = f := by
  revert h
  cases e <;> cases f <;> decide

/-- A command that ends has completed a body, with a code of its row (60_exceptions.md R233): one that waits gives no
response. -/
theorem Ends.mem_mayEndWith {e : ErrCode} {r : Word} (wf : i.wellFormed = true) (h : Ends i s e r t) :
    e ∈ mayEndWith i := by
  obtain ⟨hexec, herr, -, -, hresp, -⟩ := h
  obtain ⟨u, f, ⟨e', r', rfl, hrow⟩ | ⟨rfl, -⟩⟩ := exec_shape hexec
  · obtain rfl : e' = e := errCode_code_inj herr
    exact hrow wf
  · rw [suspend_io, f.responses] at hresp
    simp at hresp

/-! ### The writers of each unit and channel, as the statements list them -/

theorem writesBb_eq_false (h1 : ∀ c, i ≠ .bbCreate c) (h2 : ∀ b, i ≠ .bbAppend b) (h3 : i ≠ .bbPop)
    (h4 : i ≠ .tbExtract) : writesBb i = false := by
  cases i with
  | bbCreate c => exact absurd rfl (h1 c)
  | bbAppend b => exact absurd rfl (h2 b)
  | bbPop => exact absurd rfl h3
  | tbExtract => exact absurd rfl h4
  | _ => rfl

theorem writesBs_eq_false (h1 : i ≠ .bsOpenR) (h2 : i ≠ .bsOpenW) (h3 : i ≠ .bsReadBit) (h4 : ∀ b, i ≠ .bsWriteBit b)
    (h5 : i ≠ .bsWriteBuf) (h6 : i ≠ .bsClose) : writesBs i = false := by
  cases i with
  | bsOpenR => exact absurd rfl h1
  | bsOpenW => exact absurd rfl h2
  | bsReadBit => exact absurd rfl h3
  | bsWriteBit b => exact absurd rfl (h4 b)
  | bsWriteBuf => exact absurd rfl h5
  | bsClose => exact absurd rfl h6
  | _ => rfl

theorem writesFt_eq_false (h1 : ∀ n, i ≠ .ftCreate n) (h2 : i ≠ .ftScan) (h3 : ∀ n, i ≠ .ftInc n)
    (h4 : ∀ n c, i ≠ .ftSet n c) : writesFt i = false := by
  cases i with
  | ftCreate n => exact absurd rfl (h1 n)
  | ftScan => exact absurd rfl h2
  | ftInc n => exact absurd rfl (h3 n)
  | ftSet n c => exact absurd rfl (h4 n c)
  | _ => rfl

theorem writesTb_eq_false (h : i ≠ .tbBuild) : writesTb i = false := by
  cases i with
  | tbBuild => exact absurd rfl h
  | _ => rfl

theorem pullsBsi_eq_false (h1 : i ≠ .bsOpenR) (h2 : i ≠ .bsReadBit) : pullsBsi i = false := by
  cases i with
  | bsOpenR => exact absurd rfl h1
  | bsReadBit => exact absurd rfl h2
  | _ => rfl

theorem pushesBso_eq_false (h1 : ∀ b, i ≠ .bsWriteBit b) (h2 : i ≠ .bsWriteBuf) : pushesBso i = false := by
  cases i with
  | bsWriteBit b => exact absurd rfl (h1 b)
  | bsWriteBuf => exact absurd rfl h2
  | _ => rfl

/-! ### Units and channels after a command -/

/-- Both ends of a command leave the units as the body left them, or as they were before it. -/
theorem exec_units (h : exec i s = .next t) :
    (writesBb i = false → t.bb = s.bb) ∧ (writesBs i = false → t.bs = s.bs) ∧ (writesFt i = false → t.ft = s.ft) ∧
      (writesTb i = false → t.tb = s.tb) := by
  obtain ⟨u, f, ⟨e, r, rfl, -⟩ | ⟨rfl, -⟩⟩ := exec_shape h
  · exact ⟨f.bb, f.bs, f.ft, f.tb⟩
  · exact ⟨fun _ => rfl, fun _ => rfl, fun _ => rfl, fun _ => rfl⟩

/-- Both ends of a command leave the ports as the body left them, but for the response of a completion. -/
theorem exec_io (h : exec i s = .next t) :
    ∃ u, BodyFrame i s u ∧ (t.io = u.io ∨ ∃ x, t.io = { u.io with responses := u.io.responses ++ [x] }) := by
  obtain ⟨u, f, ⟨e, r, rfl, -⟩ | ⟨rfl, -⟩⟩ := exec_shape h
  · exact ⟨u, f, .inr ⟨_, rfl⟩⟩
  · exact ⟨u, f, .inl rfl⟩

/-- A bit operand that is one is 0 or 1 (40_bitbuffer.md R113). -/
theorem exists_bit {bit : BitVec 32} (h : bit.toNat ≤ 1) : ∃ b : Bit, bit = if b then 1 else 0 := by
  rcases Nat.le_one_iff_eq_zero_or_eq_one.mp h with h | h
  · exact ⟨false, BitVec.eq_of_toNat_eq h⟩
  · exact ⟨true, BitVec.eq_of_toNat_eq h⟩

end Sys2Proof.Machine

namespace Sys2Proof.Proofs

open Sys2Proof.Machine

/-- Settles O11: a body is completed or waits. -/
theorem everyCommandEndsOrWaits : Obligations.EveryCommandEndsOrWaits := by
  intro i s t h
  obtain ⟨u, f, ⟨e, r, rfl, -⟩ | ⟨rfl, w⟩⟩ := exec_shape h
  · exact .inl ⟨e, r, ends_complete h f⟩
  · exact .inr (hangs_suspend h f w)

/-- Settles O12: the code of a completed body is one of its row, and different codes have different numbers. -/
theorem errorMatrixHolds : Obligations.ErrorMatrixHolds :=
  ⟨⟨rfl, rfl, rfl, rfl, rfl, rfl, rfl, rfl, rfl, rfl, rfl⟩, fun _ _ _ _ _ wf h => h.mem_mayEndWith wf⟩

/-- Settles O54: a command outside the list of a unit is none of those whose body writes it. -/
theorem unitsChangeOnlyByTheirCommands : Obligations.UnitsChangeOnlyByTheirCommands := by
  intro i s t h
  obtain ⟨hbb, hbs, hft, htb⟩ := exec_units h
  obtain ⟨hparams, hident, -⟩ := exec_constants h
  exact ⟨fun h1 h2 h3 h4 => hbb (writesBb_eq_false h1 h2 h3 h4),
    fun h1 h2 h3 h4 h5 h6 => hbs (writesBs_eq_false h1 h2 h3 h4 h5 h6),
    fun h1 h2 h3 h4 => hft (writesFt_eq_false h1 h2 h3 h4), fun h1 => htb (writesTb_eq_false h1), hident, hparams⟩

/-- Settles O55: the body touches only its own channels and lengthens their histories; its end adds at most a
response. -/
theorem channelsUsedOnlyByTheirCommands : Obligations.ChannelsUsedOnlyByTheirCommands := by
  intro i s t h
  obtain ⟨u, f, hio⟩ := exec_io h
  have hresp : s.io.responses <+: t.io.responses := by
    rw [← f.responses]
    obtain hio | ⟨x, hio⟩ := hio
    · rw [hio]
    · rw [hio]; exact ⟨_, rfl⟩
  have hsame : t.io = { u.io with responses := t.io.responses } := by
    obtain hio | ⟨x, hio⟩ := hio <;> rw [hio]
  unfold SameSrc SameBsi SameBso
  refine ⟨?_, ?_, ?_, ?_, ?_, ?_, ?_, ?_, ?_, hresp⟩ <;> rw [hsame]
  · exact f.src
  · exact fun h1 h2 => f.bsi (pullsBsi_eq_false h1 h2)
  · exact fun h1 h2 => f.bso (pushesBso_eq_false h1 h2)
  · exact f.codeOut
  · exact f.renderOut
  · exact f.port
  · exact f.outbGrows
  · exact f.codeOutGrows
  · exact f.renderOutGrows

/-- Settles O16: every check is made before the command does anything, so the command raises in the state it was issued
in. -/
theorem badOperandFails : Obligations.BadOperandFails := by
  intro s
  refine ⟨fun hv _ h => failsClean_raise (exec_bbAppend_noBit hv h),
    fun ho hm _ h => failsClean_raise (exec_bsWriteBit_noBit ((writable_iff _).mpr ⟨ho, hm⟩) h),
    fun hv _ h => ⟨failsClean_raise (exec_ftInc_noSymbol hv h), fun c => failsClean_raise (exec_ftSet_noSymbol hv h c),
      failsClean_raise (exec_ftGet_noSymbol hv h)⟩,
    fun _ h => failsClean_raise (exec_bbCreate_tooLarge h), fun _ h => failsClean_raise (exec_ftCreate_tooLarge h),
    fun hv _ h => failsClean_raise (exec_bbRender_tooSmall hv h),
    fun ho hm he => failsClean_raise (exec_bsReadBit_atEnd ho hm he), fun hv hfull hmax bit h => ?_,
    fun hv _ hs hm => failsClean_raise (exec_ftInc_overflow hv hs hm)⟩
  obtain ⟨b, rfl⟩ := exists_bit h
  exact failsClean_raise (exec_bbAppend_full hv (bbPush_full hfull hmax))

end Sys2Proof.Proofs
end

section
/-! The invariants (10_state.md R24, R26, R27, R32 and the canonical form of the arrays): a step keeps each of them,
and from a state that meets them all it gives a next state (60_exceptions.md R236). -/

namespace Sys2Proof.Machine

variable {i : Instr} {s t : State}

/-! ### One invariant at a time -/

theorem step_bb_inv (inv : s.bb.Inv s.params) (h : step s = .next t) : t.bb.Inv t.params := by
  refine step_keeps (P := fun s => s.bb.Inv s.params) (fun _ _ => id) (fun s _ => ?_) (fun _ => id) ?_ inv h
  · exact (inv_resetWith s.params s.io).1
  · intro i s t inv h
    rw [(exec_constants h).1]
    exact exec_bb_inv inv h

theorem step_bs_inv (inv : s.bs.Inv) (h : step s = .next t) : t.bs.Inv := by
  refine step_keeps (P := fun s => s.bs.Inv) (fun _ _ => id) (fun s _ => ?_) (fun _ => id) ?_ inv h
  · exact (inv_resetWith s.params s.io).2.1
  · exact fun _ _ _ => exec_bs_inv

theorem step_ft_inv (inv : s.ft.Inv) (h : step s = .next t) : t.ft.Inv := by
  refine step_keeps (P := fun s => s.ft.Inv) (fun _ _ => id) (fun s _ => ?_) (fun _ => id) ?_ inv h
  · exact (inv_resetWith s.params s.io).2.2.1
  · exact fun _ _ _ => exec_ft_inv

/-- A build establishes the invariant of the tree whatever stood in the arena; no other command touches it. -/
theorem step_tb_inv (inv : s.tb.Inv s.params) (h : step s = .next t) : t.tb.Inv t.params := by
  refine step_keeps (P := fun s => s.tb.Inv s.params) (fun _ _ => id) (fun s _ => ?_) (fun _ => id) ?_ inv h
  · exact (inv_resetWith s.params s.io).2.2.2.1
  · intro i s t inv h
    rw [(exec_constants h).1]
    obtain e | ⟨hinv, -⟩ := exec_tb h
    · exact e ▸ inv
    · exact hinv

theorem memoryWf_iff : s.memoryWf = true ↔
    bitsWf s.bb.bits = true ∧ memWf s.ft.counts = true ∧ memWf s.tb.nm = true ∧ memWf s.tb.ws = true := by
  simp only [State.memoryWf, Bool.and_eq_true, and_assoc]

theorem exec_memoryWf (wf : s.memoryWf = true) (h : exec i s = .next t) : t.memoryWf = true := by
  rw [memoryWf_iff] at wf ⊢
  obtain ⟨hbits, hcounts, hnm, hws⟩ := wf
  refine ⟨exec_bb_wf hbits h, exec_ft_wf hcounts h, ?_⟩
  obtain e | ⟨-, hnm', hws'⟩ := exec_tb h
  · exact e ▸ ⟨hnm, hws⟩
  · exact ⟨hnm' hnm, hws' hws⟩

theorem step_memoryWf (wf : s.memoryWf = true) (h : step s = .next t) : t.memoryWf = true :=
  step_keeps (P := fun s => s.memoryWf = true) (fun _ _ => id) (fun s _ => memoryWf_resetWith s.params s.io)
    (fun _ => id) (fun _ _ _ => exec_memoryWf) wf h

theorem step_ident (e : s.ident = Config.idValue) (h : step s = .next t) : t.ident = Config.idValue :=
  step_keeps (P := fun s => s.ident = Config.idValue) (fun _ _ => id) (fun _ _ => rfl) (fun _ => id)
    (fun _ _ _ e h => (exec_constants h).2.1.trans e) e h

theorem step_responseInv (inv : ResponseInv s) (h : step s = .next t) : ResponseInv t :=
  (Proofs.stickyBitsStay s t inv h).1

theorem step_inv (inv : s.Inv) (h : step s = .next t) : t.Inv := by
  obtain ⟨hbb, hbs, hft, htb, hresp, hmem, hid⟩ := inv
  exact ⟨step_bb_inv hbb h, step_bs_inv hbs h, step_ft_inv hft h, step_tb_inv htb h, step_responseInv hresp h,
    step_memoryWf hmem h, step_ident hid h⟩

/-! ### No command stops -/

theorem conclude_next {x : Ending} (s : State) (h : ∀ f, x ≠ .unreadable f) : ∃ t, conclude s x = .next t := by
  cases x with
  | unreadable f => exact absurd rfl (h f)
  | _ => exact ⟨_, rfl⟩

theorem writeBits_readable (bits : List Bit) (n : Nat) (s : State) (f : Fault) :
    writeBits bits n s ≠ .unreadable f := by
  intro e
  have k := writeBits_stream bits n s
  rwa [e] at k

theorem execFtInc_next (inv : s.ft.Inv) (sym : BitVec 24) : ∃ t, execFtInc sym s = .next t := by
  unfold execFtInc
  split
  · exact ⟨_, rfl⟩
  split
  · exact ⟨_, rfl⟩
  rename_i j hj
  obtain ⟨c, -, -, e⟩ | ⟨-, e⟩ | ⟨f, hf, -⟩ := ftBump_cases s.ft j
  · rw [e]; exact ⟨_, rfl⟩
  · rw [e]; exact ⟨_, rfl⟩
  · rw [ftRead_entry inv (symbolOperand_lt hj).2] at hf; cases hf

theorem execFtGet_next (inv : s.ft.Inv) (sym : BitVec 24) : ∃ t, execFtGet sym s = .next t := by
  unfold execFtGet
  split
  · exact ⟨_, rfl⟩
  split
  · exact ⟨_, rfl⟩
  rename_i j hj
  rw [ftRead_entry inv (symbolOperand_lt hj).2]
  exact ⟨_, rfl⟩

theorem execTbBuild_next (inv : s.ft.Inv) : ∃ t, execTbBuild s = .next t := by
  by_cases hv : s.ft.valid = true
  · have hb := execTbBuild_ends hv
    generalize execTbBuild s = x at hb ⊢
    cases hb with
    | fault f h => exact absurd inv h
    | _ => exact ⟨_, rfl⟩
  · rw [execTbBuild, if_pos (by simpa using hv)]
    exact ⟨_, rfl⟩

/-- The walk of a valid tree reads allocated nodes only. -/
theorem execTbExtract_next (inv : s.tb.Inv s.params) : ∃ t, execTbExtract s = .next t := by
  unfold execTbExtract
  split
  · exact ⟨_, rfl⟩
  split
  · exact ⟨_, rfl⟩
  rename_i hr
  obtain ⟨h, ht, -⟩ := tree_of_inv inv (by simpa using hr)
  obtain ⟨-, v, hv, -⟩ | ⟨-, v, hv, -⟩ := walk_emits s.params s.tb h walkBound s.tb.root
    { bb := emptied s.params s.bb, records := [] } ht (Nat.le_add_right _ _) (Nat.zero_le _)
  · rw [hv]; exact ⟨_, rfl⟩
  · rw [hv]; exact ⟨_, rfl⟩

theorem execTbNode_next (inv : s.tb.Inv s.params) (idx : BitVec 24) (fsel : BitVec 32) :
    ∃ t, execTbNode idx fsel s = .next t := by
  by_cases wf : (Instr.tbNode idx fsel).wellFormed = false
  · exact ⟨_, exec_illFormed wf s⟩
  have hf : fsel.toNat ≤ 3 := of_decide_eq_true (Bool.not_eq_false _ ▸ wf)
  by_cases h : s.tb.nalloc.toNat ≤ idx.toNat
  · exact ⟨_, exec_tbNode_noNode hf h⟩
  · obtain ⟨-, -, hnodes, -⟩ := inv
    obtain ⟨n, hn, -⟩ := hnodes idx.toNat (by omega)
    exact ⟨_, exec_tbNode_field hf (by omega) hn⟩

/-- Only reads of FT and NM can stop a command, and with the invariants of the table and the arena every entry they
read has a value (10_state.md R52). -/
theorem exec_next (hft : s.ft.Inv) (htb : s.tb.Inv s.params) (i : Instr) : ∃ t, exec i s = .next t := by
  cases i with
  | bbCreate cap => rw [exec, execBbCreate]; split <;> exact ⟨_, rfl⟩
  | bbAppend bit => rw [exec, execBbAppend]; (repeat' split) <;> exact ⟨_, rfl⟩
  | bbPop => rw [exec, execBbPop]; split <;> exact ⟨_, rfl⟩
  | bbRender st n => rw [exec, execBbRender]; (repeat' split) <;> exact ⟨_, rfl⟩
  | bsOpenR => rw [exec, execBsOpenR]; (repeat' split) <;> exact ⟨_, rfl⟩
  | bsOpenW => rw [exec, execBsOpenW]; split <;> exact ⟨_, rfl⟩
  | bsReadBit => rw [exec, execBsReadBit]; (repeat' split) <;> exact ⟨_, rfl⟩
  | bsWriteBit bit => rw [exec, execBsWriteBit]; (repeat' split) <;> exact ⟨_, rfl⟩
  | bsWriteBuf =>
    rw [exec, execBsWriteBuf]
    split
    · exact ⟨_, rfl⟩
    split
    · exact ⟨_, rfl⟩
    · exact conclude_next s (writeBits_readable _ _ s)
  | bsAtEnd => rw [exec, execBsAtEnd]; split <;> exact ⟨_, rfl⟩
  | bsClose => rw [exec, execBsClose]; split <;> exact ⟨_, rfl⟩
  | ftCreate size => rw [exec, execFtCreate]; split <;> exact ⟨_, rfl⟩
  | ftScan =>
    rw [exec, execFtScan]
    split
    · exact ⟨_, rfl⟩
    · exact conclude_next s fun f => scanHeld_readable _ _ s f hft
  | ftInc sym => exact execFtInc_next hft sym
  | ftSet sym c => rw [exec, execFtSet]; (repeat' split) <;> exact ⟨_, rfl⟩
  | ftGet sym => exact execFtGet_next hft sym
  | tbBuild => exact execTbBuild_next hft
  | tbExtract => exact execTbExtract_next htb
  | tbNode idx fsel => exact execTbNode_next htb idx fsel

theorem step_next (hft : s.ft.Inv) (htb : s.tb.Inv s.params) : ∃ t, step s = .next t := by
  have c := step_cases s
  generalize step s = x at c ⊢
  cases c with
  | run w rest i => exact exec_next (s := passed rest s) hft htb i
  | _ => exact ⟨_, rfl⟩

end Sys2Proof.Machine

namespace Sys2Proof.Proofs

open Sys2Proof.Machine

/-- Settles O22: pushes, pops, a create and the emptied buffer of an extraction all keep the bounds (`exec_bb_inv`). -/
theorem bitBufferInvariantKept : Obligations.BitBufferInvariantKept :=
  fun _ _ inv h => step_bb_inv inv h

/-- Settles O33: an open makes a stream not at its end or a read stream, a close clears every field (`exec_bs_inv`). -/
theorem bitStreamInvariantKept : Obligations.BitStreamInvariantKept :=
  fun _ _ inv h => step_bs_inv inv h

/-- Settles O40: entries are only ever written, and a create fills all below the size (`exec_ft_inv`). -/
theorem freqTableInvariantKept : Obligations.FreqTableInvariantKept :=
  fun _ _ inv h => step_ft_inv inv h

/-- Settles O47: the forest that a build keeps from its first leaf on meets the invariant wherever the build ends
(`execTbBuild_tb`). -/
theorem treeInvariantKept : Obligations.TreeInvariantKept :=
  fun _ _ inv h => step_tb_inv inv h

/-- Settles O57: every array operation keeps the canonical form (`exec_memoryWf`). -/
theorem arraysStayCanonical : Obligations.ArraysStayCanonical :=
  fun _ _ wf h => step_memoryWf wf h

/-- Settles O59: no read of a step finds an entry without a value, and the next state meets each invariant. -/
theorem stepNeverStops : Obligations.StepNeverStops := by
  intro s inv
  have ⟨_, _, hft, htb, _⟩ := inv
  obtain ⟨t, h⟩ := step_next hft htb
  exact ⟨t, h, step_inv inv h⟩

end Sys2Proof.Proofs
end

section
/-! The bit buffer over several commands: how far its capacity rises (40_bitbuffer.md R116), and runs of appends and
of pops (R117). -/

namespace Sys2Proof.Machine

/-! ### Runs -/

theorem execAll_cons {i : Instr} {rest : List Instr} {s t : State} (h : exec i s = .next t) :
    execAll (i :: rest) s = execAll rest t := by
  rw [execAll, h]

/-- A run of commands that gives a next state goes on with the commands after it. -/
theorem execAll_append {cs ds : List Instr} {s t : State} (h : execAll cs s = .next t) :
    execAll (cs ++ ds) s = execAll ds t := by
  induction cs generalizing s with
  | nil => cases h; rfl
  | cons i cs ih =>
    rw [execAll] at h
    split at h
    next u hu => rw [List.cons_append, execAll_cons hu, ih h]
    next => cases h
    next => cases h

/-! ### Room for a run of appends -/

/-- A buffer that has room for `n + 1` bits takes one and has room for `n` more: a growth by 256 is one of those the
last capacity is reached by (44_extractor.md R217). -/
theorem bbPush_of_pathFits {p : Params} {b : BitBuffer} {n : Nat} (hle : b.len.toNat ≤ b.cap.toNat)
    (hfit : PathFits p b.cap.toNat (b.len.toNat + (n + 1))) (bit : Bit) :
    ∃ c, bbPush p bit b = some c ∧ PathFits p c.cap.toNat (c.len.toNat + n) := by
  obtain ⟨c, hc, hcap, hfit1⟩ | ⟨-, hno⟩ := bbPush_cap (p := p) (bit := bit) hle
  · refine ⟨c, hc, ?_⟩
    rw [hcap, pathFits_max hfit1, (bbPush_len hle hc).1, Nat.max_eq_right (by omega)]
    rwa [show b.len.toNat + 1 + n = b.len.toNat + (n + 1) by omega]
  · exact absurd (pathFits_mono (by omega) hfit) hno

/-- A run of appends to a buffer with room: the bits stand behind those it held (40_bitbuffer.md R113). -/
theorem execAll_appends : ∀ (bits : List Bit) (s : State), s.bb.valid = true → s.bb.Inv s.params →
    PathFits s.params s.bb.cap.toNat (s.bb.len.toNat + bits.length) →
    ∃ t, execAll (bits.map fun b => Instr.bbAppend (if b then 1 else 0)) s = .next t ∧ t.bb.valid = true ∧
      t.bb.Inv t.params ∧ bbContents t.bb = bbContents s.bb ++ bits ∧ t.io.renderOut = s.io.renderOut
  | [], s, hv, inv, _ => ⟨s, rfl, hv, inv, (List.append_nil _).symm, rfl⟩
  | b :: bits, s, hv, inv, hfit => by
    have ⟨hle, _, _⟩ := inv
    obtain ⟨c, hc, hfit'⟩ := bbPush_of_pathFits hle hfit b
    have hvalid : c.valid = true := (bbPush_some hc).1.trans hv
    obtain ⟨t, ht, tv, tinv, tc, tr⟩ := execAll_appends bits (complete .ok (c.len.setWidth 64) (s.withBb c)) hvalid
      (inv.push hc) hfit'
    refine ⟨t, ?_, tv, tinv, ?_, tr⟩
    · rw [List.map_cons, execAll_cons (exec_bbAppend_pushed hv hc), ht]
    · rw [tc, complete_bb, withBb_bb, bbContents_push hle hc, List.append_assoc, List.singleton_append]

/-- A run of as many pops as the buffer holds bits empties it (40_bitbuffer.md R114). -/
theorem execAll_pops : ∀ (n : Nat) (s : State), s.bb.valid = true → s.bb.Inv s.params → s.bb.len.toNat = n →
    ∃ t, execAll (List.replicate n .bbPop) s = .next t ∧ t.bb.valid = true ∧ t.bb.Inv t.params ∧ t.bb.len = 0
  | 0, s, hv, inv, hn => ⟨s, rfl, hv, inv, BitVec.eq_of_toNat_eq hn⟩
  | n + 1, s, hv, inv, hn => by
    obtain ⟨pv, -, pl, -⟩ := bbPop_spec s.bb
    obtain ⟨t, ht, hend⟩ := execAll_pops n
      (complete .ok ((bbPop s.bb).len.setWidth 64) (s.withBb (bbPop s.bb))) (pv.trans hv) inv.pop
      (by rw [complete_bb, withBb_bb]; omega)
    exact ⟨t, by rw [List.replicate_succ, execAll_cons (exec_bbPop_valid hv), ht], hend⟩

theorem renderText_of_contents {b : BitBuffer} {bits : List Bit} (h : bbContents b = bits) :
    renderText b = bits.map (fun b => if b then 0x31 else 0x30) ++ [0x00] := by
  rw [renderText, h, show bitChar = _ from funext bitChar_eq]

end Sys2Proof.Machine

namespace Sys2Proof.Proofs

open Sys2Proof.Machine

/-- Settles O23: but for a create the buffer is as it was, or grown from what it was or from the emptied one, which
has its capacity. -/
theorem capacityGrowsBySteps : Obligations.CapacityGrowsBySteps := by
  intro i s t hi inv h
  have ⟨hle, _, _⟩ := inv
  obtain ⟨-, hmax, -⟩ := exec_bb_inv inv h
  obtain e | ⟨cap, c, rfl, -⟩ | g | g := exec_bb h
  · exact ⟨0, by rw [e]; rfl, hmax⟩
  · exact absurd rfl (hi cap)
  · obtain ⟨n, hn, -⟩ := (g hle).cap
    exact ⟨n, hn, hmax⟩
  · obtain ⟨n, hn, -⟩ := g.cap
    exact ⟨n, hn, hmax⟩

/-- Settles O21: the appends leave a buffer that holds exactly the bits, whose text is rendered, or which as many pops
empty. -/
theorem appendedBitsRenderInOrder : Obligations.AppendedBitsRenderInOrder := by
  intro s bits hv inv h0 hfit
  have hempty : bbContents s.bb = [] := by rw [bbContents, h0]; rfl
  obtain ⟨t, ht, tv, tinv, tc, tr⟩ := execAll_appends bits s hv inv (by rw [h0]; simpa using hfit)
  rw [hempty, List.nil_append] at tc
  have hlen : t.bb.len.toNat = bits.length := by rw [← length_bbContents, tc]
  rw [execAll_append ht, execAll_append ht]
  constructor
  · have hsize : t.bb.len.toNat + 1 ≤ (BitVec.ofNat 32 (bits.length + 1)).toNat := by
      have := t.bb.len.isLt
      rw [BitVec.toNat_ofNat]
      omega
    refine ⟨_, execAll_cons (exec_bbRender_emits tv hsize), rfl, ?_⟩
    rw [complete_io_renderOut, emitChars_io_renderOut, tr, renderText_of_contents tc, List.append_assoc]
  · obtain ⟨u, hu, uv, ⟨-, -, hzero⟩, ul⟩ := execAll_pops bits.length t tv tinv hlen
    exact ⟨u, hu, uv, ul, fun i => hzero i (by rw [ul]; exact Nat.zero_le i)⟩

end Sys2Proof.Proofs
end

section
/-! The loops of the bit stream: BS_WRITE_BUF to its end, to its first failed push and to a push that is never
answered (41_bitstream.md R131, R137), the commands that wait for a channel (20_memory.md R83), and the round trip of
bits through the stream (R140). -/

namespace Sys2Proof.Machine

variable {s t u : State}

/-! ### BS_WRITE_BUF -/

theorem exec_bsWriteBuf_loop (hw : s.bs.writable = true) (hv : s.bb.valid = true) :
    exec .bsWriteBuf s = conclude s (writeBits (bbContents s.bb) 0 s) := by
  rw [exec, execBsWriteBuf, if_neg (by simp [hw]), if_neg (by simp [hv])]

/-- A loop of `BS_WRITE_BUF` that has come from `s` to `u` has touched the stream and BSO only. -/
theorem BodyFrame.writeBuf (f : BodyFrame .bsWriteBuf s u) :
    u.bb = s.bb ∧ u.ft = s.ft ∧ u.tb = s.tb ∧ SameSrc s u ∧ SameBsi s u ∧ SameEmitted s u :=
  ⟨f.bb rfl, f.ft rfl, f.tb rfl, f.src nofun, f.bsi rfl, f.codeOut nofun, f.renderOut nofun⟩

/-- The loop wrote every bit (41_bitstream.md R137). -/
theorem writesAll_of_wrote (ho : s.bs.isOpen = true) (hm : s.bs.mode = .write)
    (hx : exec .bsWriteBuf s = done (u.bb.len.setWidth 64) u)
    (w : Wrote (bbContents s.bb) ((bitsToWrite s).length / 8) s u) (f : BodyFrame .bsWriteBuf s u) :
    WritesAll s (complete .ok (u.bb.len.setWidth 64) u) := by
  have frame := f.writeBuf
  have hoff : u.bs.off.toNat = (bitsToWrite s).length % 8 := by
    rw [← length_partialBits, w.partialBits, List.length_drop]
    exact (Nat.mod_eq_sub _ _).symm
  have hends := ends_complete hx f
  rw [frame.1] at hends ⊢
  exact ⟨hends, w.outb, w.pushed, hoff, w.partialBits, w.isOpen.trans ho, w.mode.trans hm, w.eos, frame⟩

/-- The bit behind `pre` completes byte number `j`, whose push fails (41_bitstream.md R131; 70_reset_and_hazards.md
R272). -/
theorem writeFailsAt_of_wrote {pre post : List Bit} {b : Bit} {j : Nat} (ho : s.bs.isOpen = true)
    (hm : s.bs.mode = .write) (hbits : bbContents s.bb = pre ++ b :: post)
    (hpre : s.bs.off.toNat + pre.length = 8 * j + 7) (w : Wrote pre j s u) (f : BodyFrame .bsWriteBuf s u)
    (hx : exec .bsWriteBuf s =
      raise .writeError (BitVec.ofNat 64 pre.length) (countBsoPush (u.withBs (fullStream b u.bs)))) :
    WriteFailsAt j s
      (complete .writeError (BitVec.ofNat 64 pre.length) (countBsoPush (u.withBs (fullStream b u.bs)))) := by
  obtain ⟨-, houtb, hbyte⟩ := w.completes (b := b) (post := post) hpre
  rw [← hbits] at houtb hbyte
  have hlen : (bitsToWrite s).length = s.bs.off.toNat + (pre.length + 1 + post.length) := by
    rw [length_bitsToWrite, ← length_bbContents, hbits, List.length_append, List.length_cons]
    omega
  have hnum : 8 * j + 7 - s.bs.off.toNat = pre.length := by omega
  refine ⟨by omega, ?_, houtb, congrArg (· + 1) w.pushed, rfl, hbyte, w.isOpen.trans ho, w.mode.trans hm, w.eos,
    f.writeBuf⟩
  rw [hnum]
  exact ends_complete hx ((f.trans (bodyFrame_withBs u _ rfl)).trans (bodyFrame_countBsoPush _ rfl))

/-! ### Reading back -/

/-- An open for read whose first byte is held. -/
theorem exec_bsOpenR_data {v : Byte} {rest : List PullAnswer} (ho : s.bs.isOpen = false)
    (h : s.io.bsi = .data v :: rest) : exec .bsOpenR s =
      .next (complete .ok 0 ((countBsiPull (s.withBs (openRead s.bs))).withBs (primeByte (some v) (openRead s.bs)))) :=
  (ends_bsOpenR ho (pullBsi_data h)).1

theorem exec_bsOpenR_noMore {rest : List PullAnswer} (ho : s.bs.isOpen = false) (h : s.io.bsi = .noMore :: rest) :
    exec .bsOpenR s =
      .next (complete .ok 0 ((countBsiPull (s.withBs (openRead s.bs))).withBs (primeByte none (openRead s.bs)))) :=
  (ends_bsOpenR ho (pullBsi_noMore h)).1

/-- A fresh read stream over whole bytes gives all their bits in order, and the last read finds the end
(41_bitstream.md R140); over no bytes it is at its end at once. -/
theorem execAll_readBack (bytes : List Byte) (rest : List PullAnswer) (ho : s.bs.isOpen = false)
    (h : s.io.bsi = bytes.map .data ++ .noMore :: rest) :
    ∃ v, execAll (.bsOpenR :: List.replicate (8 * bytes.length) .bsReadBit) s = .next v ∧
      v.io.responses =
        s.io.responses ++ (0, 0) :: (bytes.flatMap bitsOfByte).map (fun b => (0, if b then 1 else 0)) ∧
      v.bs.eos = true ∧ v.io.bsiPulls = s.io.bsiPulls + bytes.length + 1 := by
  cases bytes with
  | nil => exact ⟨_, execAll_cons (exec_bsOpenR_noMore ho h), rfl, rfl, rfl⟩
  | cons v bytes =>
    have hlen : (unreadBits (primeByte (some v) (openRead s.bs)) bytes).length = 8 * (bytes.length + 1) := by
      simp [unreadBits, openRead, primeByte, List.length_flatMap]
      omega
    obtain ⟨u, hu, ueos, uresp, upulls⟩ := execAll_reads rest (8 * (bytes.length + 1)) bytes
      (complete .ok 0 ((countBsiPull (s.withBs (openRead s.bs))).withBs (primeByte (some v) (openRead s.bs))))
      rfl rfl rfl (by simp [h]) hlen
    refine ⟨u, ?_, ?_, ueos, ?_⟩
    · rw [execAll_cons (exec_bsOpenR_data ho h)]
      exact hu
    · rw [uresp]
      simp [unreadBits, openRead, primeByte, ErrCode.code]
    · rw [upulls]
      simp
      omega

/-- Bits written to a fresh write stream whose pushes are taken, then a close: the whole bytes among them are pushed
(41_bitstream.md R140). -/
theorem execAll_writeOut (bits : List Bit) (more : List PushAnswer) (ho : s.bs.isOpen = false)
    (h : s.io.bso = List.replicate (bits.length / 8) .ok ++ more) :
    ∃ t, execAll (.bsOpenW :: bits.map writeBitOf ++ [.bsClose]) s = .next t ∧
      t.io.outb = s.io.outb ++ packBytes bits := by
  obtain ⟨u, hu, w⟩ := execAll_writes [.bsClose] more bits (bits.length / 8)
    (complete .ok 0 (s.withBs { isOpen := true, mode := .write, eos := false, off := 0, byte := 0 })) rfl rfl
    (by simp) h
  refine ⟨complete .ok 0 (u.withBs closedStream), ?_, w.outb⟩
  rw [List.cons_append, execAll_cons (exec_bsOpenW_closed ho), hu]
  exact execAll_cons (exec_bsClose_open w.isOpen)

/-! ### Commands that wait -/

/-- From `s` the command waits in `t` for a pull on BSI, the one answer `never` consumed. -/
theorem hangs_pull {i : Instr} {rest : List PullAnswer} (hi : i = .bsOpenR ∨ i = .bsReadBit) (w : writesBs i = true)
    (p : pullsBsi i = true) (x : BitStream) (hb : s.io.bsi = .never :: rest)
    (hx : exec i s = .next (suspend s (countBsiPull (s.withBs x)))) :
    ∃ t, Hangs i s t ∧ t.io.bsi = rest ∧ t.io.bsiPulls = s.io.bsiPulls + 1 ∧ SameSrc s t ∧ SameBso s t ∧
      SameEmitted s t := by
  have f : BodyFrame i s (countBsiPull (s.withBs x)) := (bodyFrame_withBs s x w).trans (bodyFrame_countBsiPull _ p)
  exact ⟨_, hangs_suspend hx f (waitsOn_bsi hi hb rfl rfl), by simp [hb], rfl, ⟨rfl, rfl⟩, ⟨rfl, rfl, rfl⟩, rfl, rfl⟩

theorem pullBsi_never {rest : List PullAnswer} (h : s.io.bsi = .never :: rest) :
    pullBsi s = .waits (countBsiPull s) := by
  rw [pullBsi, h]

theorem exec_bsOpenR_never {rest : List PullAnswer} (ho : s.bs.isOpen = false) (h : s.io.bsi = .never :: rest) :
    exec .bsOpenR s = .next (suspend s (countBsiPull (s.withBs (openRead s.bs)))) := by
  rw [exec, execBsOpenR, if_neg (by simp [ho]), pullBsi_never (s := s.withBs (openRead s.bs)) h]

theorem exec_bsReadBit_never {rest : List PullAnswer} (ho : s.bs.isOpen = true) (hm : s.bs.mode = .read)
    (he : s.bs.eos = false) (h7 : s.bs.off = 7) (h : s.io.bsi = .never :: rest) :
    exec .bsReadBit s = .next (suspend s (countBsiPull (s.withBs { s.bs with off := 0 }))) := by
  have hx := execBsReadBit_last ho hm he (congrArg BitVec.toNat h7)
  rw [pullBsi_never (s := s.withBs { s.bs with off := 0 }) h] at hx
  exact hx

theorem exec_writeBitOf_never {b : Bit} {rest : List PushAnswer} (hw : s.bs.writable = true) (h7 : s.bs.off = 7)
    (h : s.io.bso = .never :: rest) :
    exec (writeBitOf b) s = .next (suspend s (countBsoPush (s.withBs (fullStream b s.bs)))) := by
  rw [writeBitOf, exec, execBsWriteBit, if_neg (by simp [hw]), bitOperand_ofBit]
  simp only [bsPut_full_never (congrArg BitVec.toNat h7) h]

/-- The loop of `BS_WRITE_BUF` waits at the push of byte number `j`. -/
theorem exec_bsWriteBuf_never {j : Nat} {rest : List PushAnswer} (hw : s.bs.writable = true) (hv : s.bb.valid = true)
    (hj : 8 * (j + 1) ≤ (bitsToWrite s).length) (h : s.io.bso = List.replicate j .ok ++ .never :: rest) :
    ∃ u, exec .bsWriteBuf s = .next (suspend s u) ∧ BodyFrame .bsWriteBuf s u ∧ u.io.bso = rest ∧
      u.io.bsoPushes = s.io.bsoPushes + (j + 1) ∧
      u.io.outb = s.io.outb ++ packBytes ((bitsToWrite s).take (8 * j)) := by
  obtain ⟨pre, b, post, u, hbits, hpre, hloop, w, f, hbso⟩ := writeBits_toByte (bits := bbContents s.bb)
    (by simpa using hj) h
  obtain ⟨h7, houtb, -⟩ := w.completes (b := b) (post := post) hpre
  rw [← hbits] at houtb
  refine ⟨countBsoPush (u.withBs (fullStream b u.bs)), ?_,
    (f.trans (bodyFrame_withBs u _ rfl)).trans (bodyFrame_countBsoPush _ rfl), by simp [hbso],
    congrArg (· + 1) w.pushed, houtb⟩
  rw [exec_bsWriteBuf_loop hw hv, hloop, writeBits, bsPut_full_never h7 hbso]
  rfl

end Sys2Proof.Machine

namespace Sys2Proof.Proofs

open Sys2Proof.Machine

/-- Settles O28: with all pushes taken the loop writes every bit; past the held answers it does so, or stops at a push
that is none of those held. -/
theorem writeBufferPacksBits : Obligations.WriteBufferPacksBits := by
  intro s ho hm hv
  have hloop := exec_bsWriteBuf_loop ((writable_iff _).mpr ⟨ho, hm⟩) hv
  constructor
  · intro rest hb
    obtain ⟨u, hu, w, f⟩ := writeBits_taken [] rest (bbContents s.bb) 0 ((bitsToWrite s).length / 8) s (by simp) hb
    rw [List.append_nil] at hu
    rw [hu] at hloop
    exact ⟨_, writesAll_of_wrote ho hm hloop w f, by rw [complete_io_bso, w.bso, hb]; simp⟩
  · intro k hk hb
    obtain ⟨u, hu, w, f⟩ | ⟨pre, b, post, u, hbits, h7, hk', w, f, hu⟩ :=
      writeBits_free (bbContents s.bb) 0 k s hb (by simpa using hk)
    · rw [hu] at hloop
      rw [length_bbContents, ← length_bitsToWrite] at w
      exact ⟨_, .inl (writesAll_of_wrote ho hm hloop w f), by
        rw [complete_io_bso, w.bso, List.drop_eq_nil_of_le (by rwa [hb, List.length_replicate])]⟩
    · rw [hu, Nat.zero_add] at hloop
      have hpre : s.bs.off.toNat + pre.length = 8 * ((s.bs.off.toNat + pre.length) / 8) + 7 := by
        have := congrArg List.length w.partialBits
        rw [length_partialBits, h7, List.length_drop, List.length_append, length_partialBits] at this
        omega
      refine ⟨_, .inr ⟨_, hk', writeFailsAt_of_wrote ho hm hbits hpre w f hloop⟩, ?_⟩
      have : s.io.bso.length ≤ (s.bs.off.toNat + pre.length) / 8 + 1 := by rw [hb]; simp; omega
      show u.io.bso.tail = []
      rw [w.bso, List.tail_drop, List.drop_eq_nil_of_le this]

/-- Settles O29: the loop comes to the bit that completes byte number `j`, whose push is answered with fail. -/
theorem writeBufferStopsAtFirstFailure : Obligations.WriteBufferStopsAtFirstFailure := by
  intro s j rest ho hm hv hj hb
  obtain ⟨pre, b, post, u, hbits, hpre, hu, w, f, hbso⟩ := writeBits_toByte (bits := bbContents s.bb)
    (by simpa using hj) hb
  obtain ⟨h7, -⟩ := w.completes (b := b) (post := post) hpre
  have hloop := exec_bsWriteBuf_loop ((writable_iff _).mpr ⟨ho, hm⟩) hv
  rw [hu, writeBits, bsPut_full_fail h7 hbso] at hloop
  exact ⟨_, writeFailsAt_of_wrote ho hm hbits hpre w f hloop, by simp [hbso]⟩

/-- Settles O32: the bytes pushed are those packed from the bits, and reading bytes back gives their bits. -/
theorem bitStreamRoundTrip : Obligations.BitStreamRoundTrip := by
  intro s u bits more rest ho hb hu
  obtain ⟨t, ht, hout⟩ := execAll_writeOut bits more ho hb
  have hlen := length_packBytes bits.length bits (Nat.le_refl _)
  refine ⟨t, packBytes bits, ht, hout, hlen, fun hbsi => ?_⟩
  have hread := execAll_readBack (packBytes bits) rest hu hbsi
  rwa [hlen, bits_packBytes bits.length bits (Nat.le_refl _)] at hread

/-- Settles O14: each command comes as far as the pull or push whose answer is never, and what it had consumed and
pushed before it stays so. -/
theorem unansweredChannelHangs : Obligations.UnansweredChannelHangs := by
  refine ⟨fun s rest ho hb => ?openR, fun s rest ho hm he h7 hb => ?readBit, fun s b rest ho hm h7 hb => ?writeBit,
    fun s j rest ho hm hv hj hb => ?writeBuf, fun s bytes rest hv inv hsum hsrc => ?scan⟩
  case openR => exact hangs_pull (.inl rfl) rfl rfl _ hb (exec_bsOpenR_never ho hb)
  case readBit => exact hangs_pull (.inr rfl) rfl rfl _ hb (exec_bsReadBit_never ho hm he h7 hb)
  case writeBit =>
    have hx := exec_writeBitOf_never (b := b) ((writable_iff _).mpr ⟨ho, hm⟩) h7 hb
    have f := (bodyFrame_withBs (i := writeBitOf b) s (fullStream b s.bs) rfl).trans (bodyFrame_countBsoPush _ rfl)
    exact ⟨_, hangs_suspend hx f (waitsOn_put (bsPut_full_never (congrArg BitVec.toNat h7) hb)), by simp [hb], rfl, rfl,
      ⟨rfl, rfl⟩, ⟨rfl, rfl⟩, rfl, rfl⟩
  case writeBuf =>
    obtain ⟨u, hx, f, hbso, hpush, hout⟩ := exec_bsWriteBuf_never ((writable_iff _).mpr ⟨ho, hm⟩) hv hj hb
    obtain ⟨-, -, -, hsrc, hbsi, hemit⟩ := f.writeBuf
    have hwait : WaitsOn .bsWriteBuf s u := .inr (.inr (.inr ⟨rfl, j, rest, hb, hbso, hpush⟩))
    exact ⟨_, hangs_suspend hx f hwait, hbso, hpush, hout, hsrc, hbsi, hemit⟩
  case scan =>
    obtain ⟨u, hu, -, -⟩ := scanHeld_data (.never :: rest) bytes 0 s inv hsum
    have hx : exec .ftScan s = .next (suspend s (countSrcPull (scanned bytes.length u s))) := by
      rw [exec, execFtScan, if_neg (by simp [hv]), hsrc, hu]
      rfl
    have f := (bodyFrame_scanned bytes.length u s).trans (bodyFrame_countSrcPull _)
    have hrest : (countSrcPull (scanned bytes.length u s)).io.src = rest := by
      show (s.io.src.drop bytes.length).tail = rest
      rw [hsrc]
      simp
    have hwait : WaitsOn .ftScan s (countSrcPull (scanned bytes.length u s)) :=
      .inl ⟨rfl, bytes, rest, hsrc, hrest, rfl⟩
    exact ⟨_, hangs_suspend hx f hwait, hrest, rfl, ⟨rfl, rfl⟩, ⟨rfl, rfl, rfl⟩, rfl, rfl⟩

end Sys2Proof.Proofs
end

section
/-! FT_SCAN to the end of the data and to a count that overflows (42_freqtable.md R163). -/

namespace Sys2Proof.Machine

variable {s : State} {bytes : List Byte}

theorem exec_ftScan_loop (hv : s.ft.valid = true) : exec .ftScan s = conclude s (scanHeld s.io.src 0 s) := by
  rw [exec, execFtScan, if_neg (by simp [hv])]

/-- From `s` to `t` a scan has taken `n` bytes and made the pull that ended it, `rest` are the answers still held, and
only the table may differ. -/
def ScanFrame (rest : List PullAnswer) (n : Nat) (s t : State) : Prop :=
  t.io.src = rest ∧ t.io.srcPulls = s.io.srcPulls + n + 1 ∧
    t.bb = s.bb ∧ t.bs = s.bs ∧ t.tb = s.tb ∧ SameBsi s t ∧ SameBso s t ∧ SameEmitted s t

theorem scanFrame_scanned {rest : List PullAnswer} {n : Nat} (h : (s.io.src.drop n).tail = rest) (u : FreqTable)
    (e : ErrCode) (r : Word) : ScanFrame rest n s (complete e r (countSrcPull (scanned n u s))) :=
  ⟨h, rfl, rfl, rfl, rfl, ⟨rfl, rfl⟩, ⟨rfl, rfl, rfl⟩, rfl, rfl⟩

theorem ends_scanned {k : Nat} {u : FreqTable} {e : ErrCode} {r : Word}
    (h : exec .ftScan s = .next (complete e r (countSrcPull (scanned k u s)))) :
    Ends .ftScan s e r (complete e r (countSrcPull (scanned k u s))) :=
  ends_complete h ((bodyFrame_scanned k u s).trans (bodyFrame_countSrcPull _))

/-- A table that has counted `bytes` up to the largest count of `v` does not count `v` again. -/
theorem scanByte_overflow {ft u : FreqTable} {v : Byte} (hu : u.Inv) (hc : Counted bytes ft u)
    (hv : v.toNat < ft.asize.val)
    (hmax : (countOf ft v.toNat).toNat + bytes.countP (fun x => x.toNat == v.toNat) = 4294967295) :
    scanByte u v = .overflow := by
  obtain ⟨-, hsize, hcount, -⟩ := hc
  obtain ⟨c, x, -, -, -, -, hx, -⟩ | ⟨e, -⟩ := scanByte_cases hu v
  · have h1 := hx v.toNat (hsize ▸ hv)
    rw [hcount v.toNat hv, hmax, List.countP_singleton, if_pos (beq_self_eq_true _)] at h1
    have := (countOf x v.toNat).isLt
    omega
  · exact e

end Sys2Proof.Machine

namespace Sys2Proof.Proofs

open Sys2Proof.Machine

/-- Settles O38: the held bytes are counted; then the data ends, or the bytes that follow are counted up to their end
or to one whose count is the largest. -/
theorem ftScanCountsOccurrences : Obligations.FtScanCountsOccurrences := by
  intro s bytes hv inv hsum
  have hloop := exec_ftScan_loop hv
  constructor
  · intro rest hsrc
    obtain ⟨u, hu, -, hc⟩ := scanHeld_data (.noMore :: rest) bytes 0 s inv hsum
    rw [hsrc, hu, Nat.zero_add] at hloop
    exact ⟨_, ends_scanned hloop, hc, scanFrame_scanned (by rw [hsrc]; simp) _ _ _⟩
  · intro hsrc
    obtain ⟨u, hu, uinv, hc⟩ := scanHeld_data [] bytes 0 s inv hsum
    rw [List.append_nil, Nat.zero_add, scanHeld] at hu
    rw [hsrc, hu] at hloop
    have hnone (k : Nat) : (s.io.src.drop (bytes.length + k)).tail = [] := by
      rw [hsrc, List.drop_eq_nil_of_le (by simp), List.tail_nil]
    have hscan (k : Nat) (w : FreqTable) : scanned k w (scanned bytes.length u s) = scanned (bytes.length + k) w s := by
      simp [scanned, State.withIo, State.withFt, Nat.add_assoc]
    obtain ⟨w, wc, hw⟩ | ⟨more, v, w, wc, hlt, hmax, hw⟩ :=
      scanRest_cases (Config.srcRest (scanned bytes.length u s).io.srcPulls) bytes.length (scanned bytes.length u s)
        uinv
    · rw [hw, hscan, ← List.length_append] at hloop
      refine ⟨_, _, .inl (ends_scanned hloop), hc.trans wc, scanFrame_scanned ?_ _ _ _⟩
      rw [List.length_append]
      exact hnone _
    · rw [hw, hscan, ← List.length_append] at hloop
      have hsize : u.asize = s.ft.asize := hc.2.1
      refine ⟨_, more, .inr ⟨v, hsize ▸ hlt, hmax, ends_scanned hloop⟩, hc.trans wc, scanFrame_scanned ?_ _ _ _⟩
      rw [List.length_append]
      exact hnone _

/-- Settles O39: the earlier bytes are counted, which brings the count of the last one to the largest. -/
theorem ftScanStopsAtOverflow : Obligations.FtScanStopsAtOverflow := by
  intro s bytes v rest hv inv hsum hlt hmax hsrc
  obtain ⟨u, hu, uinv, hc⟩ := scanHeld_data (.data v :: rest) bytes 0 s inv hsum
  have hover : scanByte (scanned bytes.length u s).ft v = .overflow := scanByte_overflow uinv hc hlt hmax
  have hloop := exec_ftScan_loop hv
  rw [hsrc, hu, Nat.zero_add, scanHeld, hover] at hloop
  exact ⟨_, ends_scanned hloop, hc, scanFrame_scanned (by rw [hsrc]; simp) _ _ _⟩

end Sys2Proof.Proofs
end

section
/-! The tree builder: the comparator and the sort (43_treebuilder.md R182 to R185), and a build from the forest its
last step leaves (R186 to R193). -/

namespace Sys2Proof.Machine

variable {s : State} {b : Build}

/-! ### What stands in the arena after a build -/

theorem length_seedLeaves_range (ft : FreqTable) :
    (seedLeaves ft (List.range ft.asize.val)).length = (activeSymbols ft).length := by
  rw [seedLeaves_range, List.length_map]

theorem getElem?_seedLeaves_range {ft : FreqTable} {j sym : Nat} (h : (activeSymbols ft)[j]? = some sym) :
    (seedLeaves ft (List.range ft.asize.val))[j]? = some (sym, (countOf ft sym).toNat) := by
  rw [seedLeaves_range, List.getElem?_map, h]
  rfl

/-- The leaf of a symbol (43_treebuilder.md R186). -/
theorem Forest.leaf_of_symbol {p : Params} {tb0 : TreeBuilder} {L : List (Nat × Nat)} (f : Forest p tb0 L b)
    {j sym : Nat} {c : Count} (h : L[j]? = some (sym, c.toNat)) :
    memRead b.tb.nm j =
      some { sym := BitVec.ofNat 9 sym, wt := c.setWidth 40, left := 0x1FF, right := 0x1FF } := by
  rw [f.leaf j _ h, BitVec.ofNat_toNat]
  rfl

/-- An internal node: over two earlier nodes, with the exact sum of their weights (43_treebuilder.md R187, R194). -/
theorem Forest.internal {p : Params} {tb0 : TreeBuilder} {L : List (Nat × Nat)} (f : Forest p tb0 L b) {j : Nat}
    (hk : b.tb.k.toNat ≤ j) (hj : j < b.tb.nalloc.toNat) :
    ∃ n l r, memRead b.tb.nm j = some n ∧ n.sym = 0x1FF ∧ n.left.toNat < j ∧ n.right.toNat < j ∧
      memRead b.tb.nm n.left.toNat = some l ∧ memRead b.tb.nm n.right.toNat = some r ∧
      n.wt.toNat = l.wt.toNat + r.wt.toNat := by
  obtain ⟨n, hn, ok⟩ := f.nodes j hj
  rw [NodeOk, if_neg (by omega)] at ok
  obtain ⟨-, hint, hl, hr, l, r, hml, hmr, hwt⟩ := ok
  exact ⟨n, l, r, hn, eq_of_beq hint, hl, hr, hml, hmr, hwt⟩

/-- The clauses of TbBuildMakesTree on the nodes, the working set and the frame of a build that used all its leaves. -/
def ArenaOfTable (s t : State) : Prop :=
  (∀ j sym, (activeSymbols s.ft)[j]? = some sym →
    memRead t.tb.nm j = some { sym := BitVec.ofNat 9 sym, wt := (countOf s.ft sym).setWidth 40, left := 0x1FF,
                               right := 0x1FF }) ∧
  (∀ j, (activeSymbols s.ft).length ≤ j → j < t.tb.nalloc.toNat →
    ∃ n l r, memRead t.tb.nm j = some n ∧ n.sym = 0x1FF ∧ n.left.toNat < j ∧ n.right.toNat < j ∧
      memRead t.tb.nm n.left.toNat = some l ∧ memRead t.tb.nm n.right.toNat = some r ∧
      n.wt.toNat = l.wt.toNat + r.wt.toNat) ∧
  (∀ j, (activeSymbols s.ft).length ≤ j → j < t.tb.nalloc.toNat →
    MergesLastTwo s.params.tieArraySense t.tb j ∧ MergesLightest t.tb j) ∧
  (∀ j, t.tb.nalloc.toNat ≤ j → memRead t.tb.nm j = memRead s.tb.nm j) ∧
  (∀ j, (activeSymbols s.ft).length ≤ j → memRead t.tb.ws j = memRead s.tb.ws j) ∧
  t.bb = s.bb ∧ t.bs = s.bs ∧ t.ft = s.ft ∧ SameChannels s t

/-- The forest over all leaves, under whatever root. -/
theorem Forest.arenaOfTable (f : Forest s.params s.tb (seedLeaves s.ft (List.range s.ft.asize.val)) b) (i : Idx)
    (v : Bool) (e : ErrCode) (r : Word) :
    ArenaOfTable s (complete e r (s.withTb { b.tb with root := i, rootValid := v })) := by
  have hk : b.tb.k.toNat = (activeSymbols s.ft).length := f.klen.trans (length_seedLeaves_range s.ft)
  refine ⟨fun j sym h => f.leaf_of_symbol (getElem?_seedLeaves_range h), fun j h1 h2 => f.internal (hk ▸ h1) h2,
    fun j h1 h2 => ?_, f.nmRest, fun j h => f.wsRest j (hk ▸ h), rfl, rfl, rfl, .of_io rfl _ _⟩
  have merges : MergesLastTwo s.params.tieArraySense { b.tb with root := i, rootValid := v } j :=
    (f.picks j (hk ▸ h1) h2).extend rfl fun _ _ => rfl
  exact ⟨merges, merges.lightest⟩

/-- A build ends so. -/
theorem ends_tbBuild {tb : TreeBuilder} {e : ErrCode} {r : Word}
    (h : exec .tbBuild s = .next (complete e r (s.withTb tb))) : Ends .tbBuild s e r (complete e r (s.withTb tb)) :=
  ends_complete h (bodyFrame_withTb s tb rfl)

/-! ### Two builds over one table -/

/-- Two tree builders agree on all that R193 names. -/
structure SameTree (a b : TreeBuilder) : Prop where
  rootValid : a.rootValid = b.rootValid
  root : a.root = b.root
  k : a.k = b.k
  nalloc : a.nalloc = b.nalloc
  nm : ∀ i, i < a.nalloc.toNat → memRead a.nm i = memRead b.nm i
  ws : ∀ i, i < a.k.toNat → memRead a.ws i = memRead b.ws i

theorem sameBuild_start (a b : TreeBuilder) :
    SameBuild { tb := clearTree a, win := [] } { tb := clearTree b, win := [] } :=
  ⟨rfl, rfl, rfl, rfl, rfl, fun i h => absurd h (Nat.not_lt_zero i), fun i h => absurd h (Nat.not_lt_zero i)⟩

theorem SameBuild.tree {b c : Build} (h : SameBuild b c) : SameTree b.tb c.tb :=
  ⟨h.rootValid, h.root, h.k, h.nalloc, h.nm, h.ws⟩

theorem SameBuild.finalize {b c : Build} (h : SameBuild b c) : SameTree (finalize b) (finalize c) := by
  unfold Machine.finalize
  rw [← h.win]
  split
  · exact ⟨rfl, rfl, h.k, h.nalloc, h.nm, h.ws⟩
  · exact h.tree

/-- Two results end alike: with the same code, result and tree, or with the same fault. -/
def SameOutcome : Result → Result → Prop
  | .next s, .next t => s.err = t.err ∧ s.res = t.res ∧ SameTree s.tb t.tb
  | .fault f, .fault g => f = g
  | _, _ => False

theorem sameOutcome_complete {a b : TreeBuilder} (h : SameTree a b) (s t : State) (e : ErrCode) (r : Word) :
    SameOutcome (.next (complete e r (s.withTb a))) (.next (complete e r (t.withTb b))) :=
  ⟨rfl, rfl, h⟩

/-- A build reads nothing of the tree builder it starts from (43_treebuilder.md R193). -/
theorem execTbBuild_same {s t : State} (hft : s.ft = t.ft) (hp : s.params = t.params) (hv : s.ft.valid = true) :
    SameOutcome (execTbBuild s) (execTbBuild t) := by
  have hseed := seedFrom_same s.params s.ft (List.range s.ft.asize.val) _ _ (sameBuild_start s.tb t.tb)
  simp only [execTbBuild, ← hft, ← hp, hv, Bool.true_eq_false, if_false]
  unfold seed
  generalize seedFrom s.params s.ft _ { tb := clearTree s.tb, win := [] } = x at hseed ⊢
  generalize seedFrom s.params s.ft _ { tb := clearTree t.tb, win := [] } = y at hseed ⊢
  match x, y, hseed with
  | .unreadable f, .unreadable g, e => exact e
  | .allocFail b, .allocFail c, h => exact sameOutcome_complete h.tree s t _ _
  | .ok b, .ok c, h =>
    have hmerge := mergeFrom_same s.params b.tb.k.toNat b c h
    simp only [← h.k]
    split
    · exact sameOutcome_complete h.tree s t _ _
    generalize mergeFrom s.params b.tb.k.toNat b = x at hmerge ⊢
    generalize mergeFrom s.params b.tb.k.toNat c = y at hmerge ⊢
    match x, y, hmerge with
    | .unreadable f, .unreadable g, e => exact e
    | .allocFail b, .allocFail c, h => exact sameOutcome_complete h.tree s t _ _
    | .ok b, .ok c, h =>
      simp only [← h.k]
      exact sameOutcome_complete h.finalize s t _ _

end Sys2Proof.Machine

namespace Sys2Proof.Proofs

open Sys2Proof.Machine

/-- Settles O41: the comparator compares keys, which are equal just when weight and symbol field are. -/
theorem comparatorIsStrictOrder : Obligations.ComparatorIsStrictOrder := by
  intro sense x y z
  refine ⟨before_iff_weight sense x y, ?_, ?_, ?_⟩
  · rw [before_iff, before_eq_false]
    exact le_of_lt
  · rw [before_iff, before_iff, before_iff]
    exact fun hxy hyz => lt_trans hyz hxy
  · rw [before_eq_false, before_eq_false, ← le_antisymm_iff, sortKey_inj]

/-- Settles O42: the passes permute the window, carry the largest keys to index 0 and keep the order of entries with
one key. -/
theorem sortWindowIsStableSort : Obligations.SortWindowIsStableSort := by
  intro sense w
  refine ⟨sortWindow_perm sense w, ?_, fun x => ?_⟩
  · exact (sortWindow_sorted sense w).imp fun h => (before_eq_false _ _ _).mpr h
  · simp only [unordered_iff]
    exact sortPasses_filter sense (sortKey sense x) w.length w

/-- Settles O43: the arena suffices, so no build ends without its last merge, and the forest it leaves is one tree, or
none without a symbol. -/
theorem tbBuildMakesTree : Obligations.TbBuildMakesTree := by
  intro s hv inv hcap
  have hx : exec .tbBuild s = execTbBuild s := rfl
  have hends := execTbBuild_ends hv
  have hL := length_seedLeaves_range s.ft
  generalize execTbBuild s = x at hx hends
  cases hends with
  | fault f h => exact absurd inv h
  | seedFails b n f hn full hk =>
    have hlen := f.klen
    rw [List.length_take, hL] at hlen
    omega
  | mergeFails b f hw full =>
    have hcount := f.count
    rw [f.klen, hL] at hcount
    omega
  | null b f hk =>
    have hcount := f.count
    have hlen := f.klen
    have hzero : b.tb.k.toNat = 0 := by rw [hk]; rfl
    obtain ⟨hnoValid, hnoRoot⟩ := f.noRoot
    rw [hL, hzero] at hlen
    have hnone : activeSymbols s.ft = [] := List.length_eq_zero_iff.mp hlen.symm
    have harena := f.arenaOfTable b.tb.root b.tb.rootValid .ok 0
    refine ⟨_, by rw [← hlen]; exact ends_tbBuild hx, hzero.trans hlen, ?_, fun _ => ⟨hnoValid, hnoRoot⟩,
      fun h => absurd hnone h, harena⟩
    show b.tb.nalloc.toNat = _
    omega
  | tree b e f hw hi =>
    have hcount := f.count
    have hlen := f.klen
    rw [hw, List.length_singleton] at hcount
    rw [hL] at hlen
    have hres : BitVec.ofNat 64 (activeSymbols s.ft).length = b.tb.k.setWidth 64 := by
      rw [← hlen, BitVec.ofNat_toNat]
    have hroot : e.idx.toNat = 2 * (activeSymbols s.ft).length - 2 := by omega
    have harena := f.arenaOfTable e.idx true .ok (b.tb.k.setWidth 64)
    refine ⟨_, by rw [hres]; exact ends_tbBuild hx, hlen, ?_, fun h => ?_, fun _ => ⟨rfl, hroot⟩, harena⟩
    · show b.tb.nalloc.toNat = _
      omega
    · rw [h, List.length_nil] at hlen
      omega

/-- Settles O44: the arena does not suffice, so the build stops at an allocation, in the seed with every node a leaf,
or in the merge with all leaves made. -/
theorem tbBuildArenaExhausted : Obligations.TbBuildArenaExhausted := by
  intro s hv inv hcap
  have hx : exec .tbBuild s = execTbBuild s := rfl
  have hends := execTbBuild_ends hv
  have hL := length_seedLeaves_range s.ft
  generalize execTbBuild s = x at hx hends
  cases hends with
  | fault f h => exact absurd inv h
  | seedFails b n f hn full hk =>
    have hlen := f.klen
    rw [List.length_take, hL] at hlen
    obtain ⟨hnoValid, hnoRoot⟩ := f.noRoot
    refine ⟨_, ends_tbBuild hx, hnoValid, hnoRoot, full, ?_, fun j sym hj h => f.leaf_of_symbol ?_, fun j h1 h2 =>
      ⟨f.picks j h1 h2, (f.picks j h1 h2).lightest⟩, rfl, rfl, rfl, .of_io rfl _ _⟩
    · show b.tb.k.toNat = _
      omega
    · rw [List.getElem?_take_of_lt (by omega), getElem?_seedLeaves_range h]
  | mergeFails b f hw full =>
    have hkle := f.kle
    have hlen := f.klen
    rw [hL] at hlen
    obtain ⟨hnoValid, hnoRoot⟩ := f.noRoot
    refine ⟨_, ends_tbBuild hx, hnoValid, hnoRoot, full, ?_,
      fun j sym _ h => f.leaf_of_symbol (getElem?_seedLeaves_range h), fun j h1 h2 =>
      ⟨f.picks j h1 h2, (f.picks j h1 h2).lightest⟩, rfl, rfl, rfl, .of_io rfl _ _⟩
    show b.tb.k.toNat = _
    omega
  | null b f hk =>
    have hlen := f.klen
    rw [hL, hk] at hlen
    have : (0 : BitVec 9).toNat = 0 := rfl
    omega
  | tree b e f hw hi =>
    have hcount := f.count
    have hbound := f.cap
    rw [hw, List.length_singleton, f.klen, hL] at hcount
    omega

/-- Settles O45: a build that leaves a root leaves a forest of one tree, whose leaves and weight are those of the
leaves made. -/
theorem treeLeavesAreTheTable : Obligations.TreeLeavesAreTheTable := by
  intro s t hv inv hx hroot
  replace hx : execTbBuild s = .next t := hx
  have hends := execTbBuild_ends hv
  generalize execTbBuild s = x at hx hends
  cases hends with
  | fault f h => cases hx
  | seedFails b n f => cases hx; cases hroot.symm.trans f.noRoot.1
  | mergeFails b f => cases hx; cases hroot.symm.trans f.noRoot.1
  | null b f => cases hx; cases hroot.symm.trans f.noRoot.1
  | tree b e f hw hi =>
    cases hx
    obtain ⟨T, hT, hleaves⟩ := f.trees
    have hweight := f.weight
    have hmem : e ∈ b.win := by rw [hw]; exact List.mem_singleton_self e
    obtain ⟨halloc, hnode⟩ := f.entry e hmem
    rw [hw] at hleaves hweight
    simp only [List.flatMap_cons, List.flatMap_nil, List.append_nil, seedLeaves_range] at hleaves
    simp only [List.map_cons, List.map_nil, List.sum_cons, List.sum_nil, Nat.add_zero, seedLeaves_range,
      List.map_map] at hweight
    have htree := TreeAt.extend (tb := b.tb) (u := { b.tb with root := e.idx, rootValid := true }) (Nat.le_refl _)
      (fun _ _ => rfl) _ _ (hT e hmem)
    exact ⟨T e.idx, e.node, htree, hleaves, nodeAt_ok.mpr ⟨halloc, hnode⟩,
      hweight⟩

/-- Settles O46: seed and merge run side by side from the two cleared builders. -/
theorem buildDependsOnTableOnly : Obligations.BuildDependsOnTableOnly := by
  intro s t s' t' hft hv hp hs ht
  have h := execTbBuild_same hft hp hv
  rw [show execTbBuild s = .next s' from hs, show execTbBuild t = .next t' from ht] at h
  obtain ⟨herr, hres, tree⟩ := h
  exact ⟨herr, hres, tree.rootValid, tree.root, tree.k, tree.nalloc, tree.nm, tree.ws⟩

end Sys2Proof.Proofs
end

section
/-! TB_EXTRACT on the tree that stands in the arena: the two ways its walk can end (44_extractor.md R211 to R213, R217;
70_reset_and_hazards.md R268), and the statements about them. -/

namespace Sys2Proof.Machine

variable {s : State} {h : HTree}

/-- Every path fits: all records are emitted, the buffer is empty again and its capacity is the first that holds the
deepest path. -/
def Extracted (h : HTree) (s : State) (v : Walk) : Prop :=
  exec .tbExtract s = done (BitVec.ofNat 64 h.leaves.length) (emitCodes v.records (s.withBb v.bb)) ∧
    v.records = (h.codes []).map codeRecord ∧ v.bb.len = 0 ∧
    v.bb.cap.toNat = capacityFor s.bb.cap.toNat h.depth ∧ Grown s.params (emptied s.params s.bb) v.bb

/-- The walk stopped at the leaf with code `c`, behind the leaves of `pre`, with a full buffer that cannot grow. -/
def ExtractionStopped (h : HTree) (s : State) (v : Walk) (pre : List (Nat × List Bit)) (c : Nat × List Bit) : Prop :=
  exec .tbExtract s = raise .alloc (BitVec.ofNat 64 pre.length) (emitCodes v.records (s.withBb v.bb)) ∧
    (∃ post, h.codes [] = pre ++ c :: post) ∧ v.records = pre.map codeRecord ∧
    (∀ x ∈ pre, x.2.length ≤ v.bb.cap.toNat) ∧ v.bb.cap.toNat < c.2.length ∧ bbContents v.bb <+: c.2 ∧
    v.bb.len = v.bb.cap ∧ s.params.bbMax.val < v.bb.cap.toNat + 256 ∧ Grown s.params (emptied s.params s.bb) v.bb

/-- Whether the paths fit decides between the two ends of an extraction (70_reset_and_hazards.md R268). -/
theorem extract_cases (hv : s.bb.valid = true) (hr : s.tb.rootValid = true) (ht : TreeAt s.tb h s.tb.root) :
    (PathFits s.params s.bb.cap.toNat h.depth ∧ ∃ v, Extracted h s v) ∨
      (¬ PathFits s.params s.bb.cap.toNat h.depth ∧ ∃ v pre c, ExtractionStopped h s v pre c) := by
  have hkeeps := walk_start s.params s.tb s.tb.root s.bb
  have hemits := walk_emits s.params s.tb h walkBound s.tb.root { bb := emptied s.params s.bb, records := [] } ht
    (Nat.le_add_right _ _) (Nat.zero_le _)
  have hx : exec .tbExtract s = execTbExtract s := rfl
  rw [execTbExtract, if_neg (by simp [hv]), if_neg (by simp [hr])] at hx
  unfold WalkEmits at hemits
  simp only [emptied_len, Nat.zero_add, bbContents_emptied, List.nil_append] at hemits
  obtain ⟨hfit, v, hwalk, hrec, hcap⟩ | ⟨hfit, v, hwalk, pre, c, post, hcodes, hrec, hpre, hc, hpath⟩ := hemits
  · rw [hwalk] at hkeeps hx
    obtain ⟨grown, hcontents⟩ := hkeeps
    have hlen : v.bb.len = 0 := by
      apply BitVec.eq_of_toNat_eq
      rw [← length_bbContents, hcontents, bbContents_emptied]
      rfl
    have hnum : v.records.length = h.leaves.length := by rw [hrec, List.length_map, h.length_codes]
    simp only [hnum] at hx
    exact .inl ⟨hfit, v, hx, hrec, hlen, hcap, grown⟩
  · rw [hwalk] at hkeeps hx
    obtain ⟨grown, hfull, hmax⟩ := hkeeps
    rw [List.nil_append] at hrec
    have hnum : v.records.length = pre.length := by rw [hrec, List.length_map]
    simp only [hnum] at hx
    exact .inr ⟨hfit, v, pre, c, hx, ⟨post, hcodes⟩, hrec, hpre, hc, hpath, hfull, hmax, grown⟩

theorem extracted_of_fits (hv : s.bb.valid = true) (hr : s.tb.rootValid = true) (ht : TreeAt s.tb h s.tb.root)
    (hfit : PathFits s.params s.bb.cap.toNat h.depth) : ∃ v, Extracted h s v := by
  obtain ⟨-, hx⟩ | ⟨hno, -⟩ := extract_cases hv hr ht
  · exact hx
  · exact absurd hfit hno

/-- An extraction that ends well has emitted every record. -/
theorem extracted_of_ends_ok {t : State} {r : Word} (hr : s.tb.rootValid = true) (ht : TreeAt s.tb h s.tb.root)
    (hends : Ends .tbExtract s .ok r t) : t.io.codeOut = s.io.codeOut ++ (h.codes []).map codeRecord := by
  obtain ⟨hexec, herr, -⟩ := hends
  cases hv : s.bb.valid with
  | false =>
    cases (exec_tbExtract_noBuffer hv).symm.trans hexec
    cases errCode_code_inj (e := .invalidState) (f := .ok) herr
  | true =>
    obtain ⟨-, v, hx, hrec, -⟩ | ⟨-, v, pre, c, hx, -⟩ := extract_cases hv hr ht
    · cases hx.symm.trans hexec
      rw [← hrec]
      rfl
    · cases hx.symm.trans hexec
      cases errCode_code_inj (e := .alloc) (f := .ok) herr

theorem ends_tbExtract {v : Walk} {e : ErrCode} {r : Word}
    (hx : exec .tbExtract s = .next (complete e r (emitCodes v.records (s.withBb v.bb)))) :
    Ends .tbExtract s e r (complete e r (emitCodes v.records (s.withBb v.bb))) :=
  ends_complete hx ((bodyFrame_withBb s v.bb rfl).trans (bodyFrame_emitCodes _ _))

/-- The slots of the emptied buffer are 0, and so are those above the length when it has only grown. -/
theorem Grown.zero_of_emptied {p : Params} {b c : BitBuffer} (g : Grown p (emptied p b) c) :
    ∀ i, c.len.toNat ≤ i → i < p.bbMax.val → bitRead c.bits i = false :=
  g.zero fun i _ hi => by rw [emptied, bitRead_zeroSlots, if_pos hi]

theorem getElem?_of_bbContents_isPrefix {b : BitBuffer} {l : List Bit} (hl : bbContents b <+: l) {i : Nat}
    (hi : i < b.len.toNat) : l[i]? = some (bitRead b.bits i) := by
  obtain ⟨m, rfl⟩ := hl
  rw [List.getElem?_append_left (by rwa [length_bbContents])]
  simp [bbContents, hi]

/-- With the default `BB_MAX` a path of 255 bits fits (70_reset_and_hazards.md R268). -/
theorem pathFits_of_bbMax {p : Params} {c d : Nat} (hp : p.bbMax.val = 1024) (hd : d ≤ 255) : PathFits p c d := by
  unfold PathFits capacityFor
  split <;> omega

end Sys2Proof.Machine

namespace Sys2Proof.Proofs

open Sys2Proof.Machine

/-- Settles O49: the paths fit, so the walk emits every record and takes back every bit it pushed. -/
theorem extractEmitsCodes : Obligations.ExtractEmitsCodes := by
  intro s h hv hr ht hfit
  obtain ⟨v, hx, hrec, hlen, hcap, grown⟩ := extracted_of_fits hv hr ht hfit
  refine ⟨_, ends_tbExtract hx, ?_, grown.valid.trans hv, hlen, hcap, fun i hi => ?_, rfl, rfl, rfl, rfl, ⟨rfl, rfl⟩,
    ⟨rfl, rfl⟩, ⟨rfl, rfl, rfl⟩⟩
  · rw [← hrec]
    rfl
  · exact grown.zero_of_emptied i (by rw [hlen]; exact Nat.zero_le i) hi

/-- Settles O50: the paths do not fit, so the walk stops with a full buffer that holds the first bits of the code it
could not complete. -/
theorem extractStopsWhenBufferFull : Obligations.ExtractStopsWhenBufferFull := by
  intro s h hv hr ht hfit
  obtain ⟨hfit', -⟩ | ⟨-, v, pre, c, hx, ⟨post, hcodes⟩, hrec, hpre, hc, hpath, hfull, hmax, grown⟩ :=
    extract_cases hv hr ht
  · exact absurd hfit' hfit
  · have hnum : pre.length < h.leaves.length := by
      rw [← h.length_codes [], hcodes, List.length_append, List.length_cons]
      omega
    refine ⟨_, pre, c, post, hcodes, ends_tbExtract hx, hnum, ?_, hpre, hc, grown.valid.trans hv, hfull, hmax,
      grown.cap, fun i hi => getElem?_of_bbContents_isPrefix hpath hi, grown.zero_of_emptied, rfl, rfl, rfl, rfl,
      ⟨rfl, rfl⟩, ⟨rfl, rfl⟩, ⟨rfl, rfl, rfl⟩⟩
    rw [← hrec]
    rfl

/-- Settles O51: without a tree the command only empties the buffer. -/
theorem extractOfNullTree : Obligations.ExtractOfNullTree := by
  intro s hv hr
  refine ⟨_, ends_complete (exec_tbExtract_noTree hv hr) (bodyFrame_withBb _ _ rfl), hv, rfl, rfl, fun i hi => ?_,
    rfl, rfl, rfl, .of_io rfl _ _⟩
  exact (bitRead_zeroSlots s.params s.bb.bits i).trans (if_pos hi)

/-- Settles O52: the records emitted are the codes of a tree. -/
theorem codesArePrefixFree : Obligations.CodesArePrefixFree := by
  intro s t h r hr ht hends
  exact ⟨_, extracted_of_ends_ok hr ht hends, List.pairwise_map.mpr (h.codes_prefixFree [])⟩

/-- Settles O53: a valid tree is at most 255 deep, and 255 bits fit whatever the capacity is. -/
theorem extractFitsByDefault : Obligations.ExtractFitsByDefault := by
  intro s inv hmax hv hr
  obtain ⟨-, -, -, htb, -⟩ := inv
  obtain ⟨h, ht, hdepth⟩ := tree_of_inv htb hr
  obtain ⟨v, hx, hrec, -⟩ := extracted_of_fits hv hr ht (pathFits_of_bbMax hmax hdepth)
  have hnum : v.records.length = h.leaves.length := by rw [hrec, List.length_map, h.length_codes]
  refine ⟨_, v.records, by rw [hnum]; exact ends_tbExtract hx, rfl, fun r hmem => ?_⟩
  rw [hrec] at hmem
  obtain ⟨c, hc, rfl⟩ := List.mem_map.mp hmem
  obtain ⟨q, hq, hlen⟩ := h.codes_path [] c hc
  have hle : c.2.length ≤ 255 := by
    rw [hq, List.nil_append]
    omega
  exact ⟨hle, by simp only [codeRecord, BitVec.toNat_ofNat]; omega⟩

end Sys2Proof.Proofs
end
